-- ==== Sys2Proof/Word.lean ====
section
/-! DEFINITION. The word types of OSE-RRI (00_scope R7, R10): every value has a stated width and is unsigned. -/

namespace Sys2Proof

/-- `u8`: one byte of memory, a status, command or errors byte, a fault code. -/
abbrev Byte := BitVec 8

/-- `u16`: a descriptor's length, checksum or special field (`LEN_BITS` = 16). -/
abbrev Word16 := BitVec 16

/-- `u32`: the value of a NIC register (`REG_BITS` = 32). -/
abbrev Word32 := BitVec 32

/-- `u64`: a command word. -/
abbrev Word64 := BitVec 64

/-- A host physical address (`PADDR_BITS` = 64). -/
abbrev Addr := BitVec 64

/-- A page id: the address of the start of a page (00_scope R14). -/
abbrev PageId := BitVec 64

end Sys2Proof
end

