-- ==== Sys2Proof/Syntax.lean ====
section
/-! DEFINITION. The commands of OSE-RRI (30_encoding R110), a command's two words (R100), and the names of the NIC
registers (10_state R30). -/

namespace Sys2Proof

/-- A command as it stands on the command port: `W0`, then `W1` (R100). -/
structure Command where
  w0 : Word64
  w1 : Word64
  deriving DecidableEq, Repr

/-- The nine commands of R110, one constructor per row of opcode_table.json, with the operands of their formats
(R104 to R108). -/
inductive Instr where
  /-- REG_READ, format R. `ofs = zext_32(W0[19:0])` (R104). -/
  | regRead (ofs : Word32)
  /-- REG_WRITE, format RW (R105). -/
  | regWrite (ofs : Word32) (data : Word32)
  /-- REG_SET_BITS, format RW (R105); the data is a mask. -/
  | regSetBits (ofs : Word32) (mask : Word32)
  /-- REG_CLEAR_BITS, format RW (R105); the data is a mask. -/
  | regClearBits (ofs : Word32) (mask : Word32)
  /-- TX_INIT, format B (R107). -/
  | txInit (base : Addr)
  /-- TX_ENQUEUE, format T (R106). -/
  | txEnqueue (addr : Addr) (len : Word16) (eop : Bool)
  /-- RX_INIT, format B (R107). -/
  | rxInit (base : Addr)
  /-- RX_POLL, format N (R108). -/
  | rxPoll
  /-- INT_ACK, format N (R108). -/
  | intAck
  deriving DecidableEq, Repr

/-- The 23 named registers of the NIC (10_state R30). -/
inductive Reg where
  | ctrl | status | icr | ims | imc | rctl | tctl | tipg
  | rdbal | rdbah | rdlen | rdh | rdt | rsrpd
  | tdbal | tdbah | tdlen | tdh | tdt | tidv
  | mta | ral0 | rah0
  deriving DecidableEq, Repr

/-- The registers for which the NIC holds a stored value, `dev.store[r]` of 10_state R50: the storage and the
ring-owned storage classes of R31. -/
inductive StoreReg where
  | rctl | tctl | tipg | rsrpd | tidv | mta | ral0 | rah0
  | rdbal | rdbah | rdlen | tdbal | tdbah | tdlen
  deriving DecidableEq, Repr

/-- The two descriptor rings. -/
inductive Ring where
  | tx | rx
  deriving DecidableEq, Repr

end Sys2Proof
end

