-- ==== Sys2Proof/WellFormed.lean ====
section
/-! DEFINITION. Well-formed commands: the operand values a command word can carry (30_encoding R101, R102, R109). -/

namespace Sys2Proof

/-- An OFS operand fits the 20 bits of W0[19:0] (R102). -/
abbrev ofsFits (ofs : Word32) : Prop := ofs.toNat < 2 ^ 20

/-- Every operand has a value its field can hold. All fields but OFS are as wide as the operand itself
(R105 to R107), so OFS is the one check. -/
abbrev Instr.wf (i : Instr) : Prop :=
  match i with
  | .regRead ofs => ofsFits ofs
  | .regWrite ofs _ => ofsFits ofs
  | .regSetBits ofs _ => ofsFits ofs
  | .regClearBits ofs _ => ofsFits ofs
  | .txInit _ => True
  | .txEnqueue _ _ _ => True
  | .rxInit _ => True
  | .rxPoll => True
  | .intAck => True

end Sys2Proof
end

