-- ==== Sys2Proof/Decode.lean ====
section
/-! DEFINITION. The decoder (30_encoding R111), total on any two words, with the reason of each rejection, and the
encoder (R101, R103, R110, R115). -/

namespace Sys2Proof

/-- Why a command word is ILLEGAL_COMMAND. -/
inductive DecodeError where
  /-- An OP value that R110 does not assign (R113). -/
  | unassignedOpcode
  /-- A bit that R103 reserves in the command's format is set (R112). -/
  | reservedBitSet
  deriving DecidableEq, Repr

/-- The five formats (R103). -/
inductive Format where
  | r | rw | t | b | n
  deriving DecidableEq, Repr

/-- OP = W0[63:56] (R101). -/
def Command.op (c : Command) : Byte := c.w0.extractLsb' 56 8

/-- `ofs = zext_32(W0[19:0])` (R104). -/
def Command.ofs (c : Command) : Word32 := (c.w0.extractLsb' 0 20).setWidth 32

/-- `data = W1[31:0]` (R105). -/
def Command.data (c : Command) : Word32 := c.w1.extractLsb' 0 32

/-- `len = W0[47:32]` (R106). -/
def Command.len (c : Command) : Word16 := c.w0.extractLsb' 32 16

/-- `eop = W0[48]` (R106). -/
def Command.eop (c : Command) : Bool := c.w0.getLsbD 48

/-- The requirement R111 puts on the bits its format reserves (R103). -/
def Command.reservedClear (c : Command) (f : Format) : Bool :=
  match f with
  | .r => c.w0.extractLsb' 20 36 == 0#36 && c.w1 == 0#64
  | .rw => c.w0.extractLsb' 20 36 == 0#36 && c.w1.extractLsb' 32 32 == 0#32
  | .t => c.w0.extractLsb' 49 7 == 0#7 && c.w0.extractLsb' 0 32 == 0#32
  | .b => c.w0.extractLsb' 0 56 == 0#56
  | .n => c.w0.extractLsb' 0 56 == 0#56 && c.w1 == 0#64

/-- The instruction, if the bits its format reserves are clear. -/
def Command.ifClear (c : Command) (f : Format) (i : Instr) : Except DecodeError Instr :=
  if c.reservedClear f then .ok i else .error .reservedBitSet

/-- `decode(W0, W1)` of R111. -/
def decode (c : Command) : Except DecodeError Instr :=
  if c.op = 0x01#8 then c.ifClear .r (.regRead c.ofs)
  else if c.op = 0x02#8 then c.ifClear .rw (.regWrite c.ofs c.data)
  else if c.op = 0x03#8 then c.ifClear .rw (.regSetBits c.ofs c.data)
  else if c.op = 0x04#8 then c.ifClear .rw (.regClearBits c.ofs c.data)
  else if c.op = 0x10#8 then c.ifClear .b (.txInit c.w1)
  else if c.op = 0x11#8 then c.ifClear .t (.txEnqueue c.w1 c.len c.eop)
  else if c.op = 0x20#8 then c.ifClear .b (.rxInit c.w1)
  else if c.op = 0x21#8 then c.ifClear .n .rxPoll
  else if c.op = 0x30#8 then c.ifClear .n .intAck
  else .error .unassignedOpcode

/-- `W0 = (OP << 56) | (E << 48) | (LEN << 32) | OFS` (R115). -/
def buildW0 (op : Byte) (e : Bool) (len : Word16) (ofs : Word32) : Word64 :=
  (op.setWidth 64 <<< 56) ||| ((BitVec.ofBool e).setWidth 64 <<< 48) ||| (len.setWidth 64 <<< 32) |||
    ofs.setWidth 64

/-- The words of a command (R103, R110, R115). -/
def encode (i : Instr) : Command :=
  match i with
  | .regRead ofs => ⟨buildW0 0x01 false 0 ofs, 0⟩
  | .regWrite ofs data => ⟨buildW0 0x02 false 0 ofs, data.setWidth 64⟩
  | .regSetBits ofs mask => ⟨buildW0 0x03 false 0 ofs, mask.setWidth 64⟩
  | .regClearBits ofs mask => ⟨buildW0 0x04 false 0 ofs, mask.setWidth 64⟩
  | .txInit base => ⟨buildW0 0x10 false 0 0, base⟩
  | .txEnqueue addr len eop => ⟨buildW0 0x11 eop len 0, addr⟩
  | .rxInit base => ⟨buildW0 0x20 false 0 0, base⟩
  | .rxPoll => ⟨buildW0 0x21 false 0 0, 0⟩
  | .intAck => ⟨buildW0 0x30 false 0 0, 0⟩

/-- The two command words of an instruction whose bits are `w`, numbered as opcode_table.json numbers them: W0 is
bits 63..0, W1 counts on from bit 64, and every bit above `nbits` is 0. -/
def commandOfTableWord (nbits w : Nat) : Command :=
  let v := w % 2 ^ nbits
  ⟨BitVec.ofNat 64 v, BitVec.ofNat 64 (v / 2 ^ 64)⟩

/-- What the decoder reads from a table word; none where it rejects it. -/
def decodeTableWord (nbits w : Nat) : Option Instr :=
  (decode (commandOfTableWord nbits w)).toOption

end Sys2Proof
end

