-- ==== Sys2Proof/Config.lean ====
section
/-! DEFINITION. What an implementation of OSE-RRI fixes (00_scope R7, R8) and the values the spec leaves free:
`draw()` (R11), the bytes of memory nothing has written (10_state R52), and the open platform parameters. -/

namespace Sys2Proof

/-- `N_TX`, the TX ring capacity (R7); fixed when the block is built (R8). -/
abbrev Config.nTx : Nat := 16

/-- `M_RX`, the RX ring capacity (R7); fixed when the block is built (R8). -/
abbrev Config.mRx : Nat := 128

/-- `DESC_BYTES`, the size of one descriptor (R7). -/
abbrev Config.descBytes : Nat := 16

/-- `TCTL_INIT` (R7); 10_state R34 gives its fields. -/
abbrev Config.tctlInit : Word32 := 0x0004010A#32

/-- `TIPG_INIT` (R7); 10_state R35 gives its fields. -/
abbrev Config.tipgInit : Word32 := 0x0140200A#32

/-- `IMS_INIT` (R7), the mask the attach program writes: TXDW | RXDMT0 (43_interrupt R192). -/
abbrev Config.imsInit : Word32 := 0x00000011#32

/-- The n-th value drawn by `draw()` (R11): nothing constrains it. FREE VALUE, safe: assumption log 2. -/
opaque Config.draw : Nat → Word64

/-- The byte that host memory holds at an address nothing has written since power-on (10_state R52: "Its contents
at reset are unspecified"; U18: any value). FREE VALUE, safe: assumption log 4. -/
opaque Config.unwrittenByte : Addr → Byte

/-- The OPEN parameters of R7 that the block itself uses. `PAGE_SIZE` is a power of two, held by its exponent;
`rxBuf[i]` is `rxBufAddr(i)`. -/
structure Params where
  pageShift : Nat
  rxBuf     : Vector Addr Config.mRx
  deriving DecidableEq, Repr, Inhabited

/-- `PAGE_SIZE`, also `RX_BUF_BYTES` (R7). -/
def Params.pageSize (p : Params) : Nat := 2 ^ p.pageShift

/-- `rxBufAddr(i)` (R7, 10_state R48). -/
def Params.rxBufAddr (p : Params) (i : Fin Config.mRx) : Addr := p.rxBuf[i]

/-- What R7 lets the model assume of the open parameters: `PAGE_SIZE >= 2048` (a power of two by its form), each
`rxBufAddr(i)` a multiple of `PAGE_SIZE`, and the addresses pairwise distinct. -/
abbrev Params.wf (p : Params) : Prop :=
  11 ≤ p.pageShift ∧ (∀ i : Fin Config.mRx, (p.rxBufAddr i).toNat % p.pageSize = 0) ∧
    ∀ i j : Fin Config.mRx, p.rxBufAddr i = p.rxBufAddr j → i = j

/-- The instance of the open parameters that 95_test_vectors uses: `PAGE_SIZE` = 4096 and
`rxBufAddr(i)` = 0x00400000 + 0x1000*i. -/
def Params.reference : Params where
  pageShift := 12
  rxBuf := Vector.ofFn fun i => BitVec.ofNat 64 (0x400000 + 0x1000 * i.val)

/-- The platform the block is built into, wholly unknown. FREE VALUE, safe: assumption log 5. -/
opaque Config.platform : Params

/-- The platform's parameters, under the constraints R7 states: any parameters that meet them, and nothing more is
known of them. -/
def Config.params : Params :=
  if Config.platform.wf then Config.platform else Params.reference

end Sys2Proof
end

