-- ==== Sys2Proof/Machine/State.lean ====
section
/-! DEFINITION. The state of OSE-RRI and its environment, as plain data: the block (10_state R20), the NIC
(10_state R50, 44_device_agent R204), host memory (10_state R52), the ports, and which agent moves next. -/

namespace Sys2Proof.Machine

/-- No step of this machine stops with a fault: a fault of the spec is a next state in which `fault_code` is set and
the response is FAULT (60_exceptions R236, R237). So this type has no value; nothing raises it. Safe. -/
inductive Fault where
  deriving DecidableEq, Repr

/-- The reasons for which a step gives an instruction no meaning. -/
inductive Refusal where
  /-- Raised by `exec`'s arm of an instruction that has no meaning yet; no arm of this model raises it. Safe. -/
  | notModelled (mnemonic : String)
  deriving DecidableEq, Repr

/-- The fault codes of 60_exceptions R234. -/
inductive FaultCode where
  | illegalCommand | badOffset | accessDenied | unmodelled
  | notInitialized | alreadyInitialized | badArgument | rxLengthOverrun
  deriving DecidableEq, Repr

/-- The response codes of 60_exceptions R231. -/
inductive RespCode where
  | ok | busy | noData | fault
  deriving DecidableEq, Repr

/-- The fields of a response (30_encoding R116). A field a command does not name is 0 (60_exceptions R232). -/
structure Response where
  code  : RespCode
  fcode : Byte := 0
  txh   : Bool := false
  rxh   : Bool := false
  data  : Word32 := 0
  plen  : Word16 := 0
  rstat : Byte := 0
  rerr  : Byte := 0
  slot  : Word16 := 0
  bytes : List Byte := []
  deriving DecidableEq, Repr

/-- An event on the host event port (00_scope R11). -/
inductive Event where
  | pin (page : PageId)
  | unpin (page : PageId)
  deriving DecidableEq, Repr

/-- One access of the block on its memory port or its MMIO port (00_scope R11, 20_memory R77). -/
inductive Access where
  | memRead (addr : Addr) (n : Nat)
  | memReadBytes (addr : Addr) (n : Nat)
  | memWrite (addr : Addr) (n : Nat) (v : Word64)
  | mmioRead (r : Reg) (v : Word32)
  | mmioWrite (r : Reg) (v : Word32)
  deriving DecidableEq, Repr

/-- A step of an agent other than the block, with the choices the spec leaves to that agent. -/
inductive AgentStep where
  /-- The host writes a command to the command port (30_encoding R100). -/
  | issue (c : Command)
  /-- The host stores bytes to its memory (00_scope R6, 20_memory R87). -/
  | hostStore (addr : Addr) (bytes : List Byte)
  /-- Block reset (70_reset_and_hazards R260, R264). -/
  | blockReset
  /-- DEV_TX (44_device_agent R204): whether a completed frame reaches the wire, the EC, LC and TU bits, and
  whether TXDW is raised now. -/
  | devTx (sent : Bool) (errors : Byte) (cause : Bool)
  /-- DEV_RX (44_device_agent R210): the frame, the checksum, errors and special fields, the status bits other than
  DD, and the causes raised. -/
  | devRx (data : List Byte) (checksum : Word16) (errors : Byte) (special : Word16) (status : Byte)
      (causes : Word32)
  /-- DEV_CAUSE (44_device_agent R215). -/
  | devCause (causes : Word32)
  /-- The device overwrites the buffer of a slot RX_POLL has returned (70_reset_and_hazards R275,
  93_implementation_defined U19): the bytes it writes. log 19. -/
  | devOverwrite (slot : Fin Config.mRx) (data : List Byte)
  deriving DecidableEq, Repr

/-- Who moves next: the block, executing the oldest command on its port, or another agent. -/
inductive Turn where
  | execute
  | agent (a : AgentStep)
  deriving DecidableEq, Repr

/-- Host memory: the bytes written so far, as (address, byte) pairs with strictly rising addresses. An address that
is not listed holds no written byte; it reads as `Config.unwrittenByte`. -/
abbrev Memory := List Host.Cell

/-- The block's own state, exactly the elements of 10_state R20. -/
structure Block where
  txReady   : Bool
  rxReady   : Bool
  txBase    : Addr
  rxBase    : Addr
  txTail    : Fin Config.nTx
  txBound   : Vector (Option PageId) Config.nTx
  rxCursor  : Fin Config.mRx
  faultCode : Byte
  faultW0   : Word64
  faultW1   : Word64
  deriving DecidableEq, Repr

/-- `dev.store[r]` of 10_state R50; none is "never written since device reset". -/
structure NicStore where
  rctl  : Option Word32
  tctl  : Option Word32
  tipg  : Option Word32
  rsrpd : Option Word32
  tidv  : Option Word32
  mta   : Option Word32
  ral0  : Option Word32
  rah0  : Option Word32
  rdbal : Option Word32
  rdbah : Option Word32
  rdlen : Option Word32
  tdbal : Option Word32
  tdbah : Option Word32
  tdlen : Option Word32
  deriving DecidableEq, Repr

/-- The NIC's state (10_state R50, with `dev.txframe` and `dev.wire` of 44_device_agent R204). -/
structure Nic where
  store   : NicStore
  icr     : Word32
  ims     : Word32
  tdh     : Option Word32
  tdt     : Option Word32
  rdh     : Option Word32
  rdt     : Option Word32
  txframe : List Byte
  wire    : List (List Byte)
  deriving DecidableEq, Repr

/-- The whole machine. -/
structure State where
  /-- The block (10_state R20). -/
  block     : Block
  /-- The NIC (10_state R50). -/
  dev       : Nic
  /-- Host memory (10_state R52). -/
  mem       : Memory
  /-- The platform's parameters (00_scope R7); constant. -/
  params    : Params
  /-- The command port: commands issued and not yet executed, in arrival order (10_state R22). -/
  commands  : List Command
  /-- The response port: every response delivered, oldest first (60_exceptions R232). -/
  responses : List Response
  /-- The event port: every event emitted, oldest first (41_tx_ring R154). -/
  events    : List Event
  /-- Every access the block has made on its ports, oldest first (20_memory R82). The model's own: log 11. -/
  bus       : List Access
  /-- Which RX buffers are open: RX_POLL has returned the slot and DEV_RX has not filled it since, so the contents are
  any value (93_implementation_defined U19). The model's own: log 19. -/
  rxOpen    : Vector Bool Config.mRx
  /-- How many values `draw()` has given. The model's own: log 2. -/
  draws     : Nat
  /-- The run is outside the spec (60_exceptions R239, U26). The model's own: log 6, log 7. -/
  outside   : Bool
  /-- Who moves next; when the list is empty the block does. The model's own: log 1. -/
  schedule  : List Turn
  deriving DecidableEq, Repr

/-- The block after block reset (70_reset_and_hazards R260): every element at the value of 10_state R20. The two
bases are unspecified there, so the caller gives free values. -/
def Block.reset (txBase rxBase : Addr) : Block where
  txReady := false
  rxReady := false
  txBase := txBase
  rxBase := rxBase
  txTail := ⟨0, by decide⟩
  txBound := Vector.replicate Config.nTx none
  rxCursor := ⟨0, by decide⟩
  faultCode := 0
  faultW0 := 0
  faultW1 := 0

/-- No register of the NIC has been written (10_state R50). -/
def NicStore.reset : NicStore where
  rctl := none
  tctl := none
  tipg := none
  rsrpd := none
  tidv := none
  mta := none
  ral0 := none
  rah0 := none
  rdbal := none
  rdbah := none
  rdlen := none
  tdbal := none
  tdbah := none
  tdlen := none

/-- The NIC after device reset (10_state R50, 70_reset_and_hazards R261); ICR and IMS are drawn. -/
def Nic.reset (icr ims : Word32) : Nic where
  store := NicStore.reset
  icr := icr
  ims := ims
  tdh := none
  tdt := none
  rdh := none
  rdt := none
  txframe := []
  wire := []

/-- The machine right after power-on: block and NIC reset together (70_reset_and_hazards R261), host memory unwritten
(R262), no command issued. Draws 0 and 1 are ICR and IMS; draws 2 and 3 are the unspecified bases (log 3). -/
def State.reset : State where
  block := Block.reset (Config.draw 2) (Config.draw 3)
  dev := Nic.reset ((Config.draw 0).setWidth 32) ((Config.draw 1).setWidth 32)
  mem := []
  params := Config.params
  commands := []
  responses := []
  events := []
  bus := []
  rxOpen := Vector.replicate Config.mRx false
  draws := 4
  outside := false
  schedule := []

end Sys2Proof.Machine
end

