-- ==== Sys2Proof/Machine/Flags.lean ====
section
/-! DEFINITION. Named bits and fields: TX command and status (10_state R41, R42), RX status (R46), interrupt causes
(R33), TCTL (R34), TIPG (R35), RCTL (R36), and the hints of INT_ACK (43_interrupt R190). The block has no condition
codes of its own (R27). -/

namespace Sys2Proof.Machine

/-- Descriptor-Done, bit 0 of a TX or RX status byte (R42, R46). -/
def ddSet (status : Byte) : Bool := status.getLsbD 0

/-- A status byte with Descriptor-Done alone (41_tx_ring R151). -/
def ddOnly : Byte := 0x01

/-- EOP, bit 0 of a TX command byte (R41). -/
def txCmdEop (cmd : Byte) : Bool := cmd.getLsbD 0

/-- RS, bit 3 of a TX command byte (R41). -/
def txCmdRs (cmd : Byte) : Bool := cmd.getLsbD 3

/-- The command byte the block writes: RS and IDE always, EOP as the command's E operand (R41). -/
def txCmdByte (eop : Bool) : Byte := 0x88 ||| (BitVec.ofBool eop).setWidth 8

/-- The status byte of a completed TX descriptor: DD, and EC, LC and TU as the device drew them
(44_device_agent R204). -/
def txDoneStatus (errors : Byte) : Byte := ddOnly ||| (errors &&& 0x0E)

/-- The status byte of a completed RX descriptor: DD, and the other bits as the device drew them
(44_device_agent R210). -/
def rxDoneStatus (status : Byte) : Byte := ddOnly ||| (status &&& 0xFE)

/-- TXDW, ICR bit 0 (R33). -/
def icrTxdw : Word32 := 0x00000001

/-- The causes DEV_RX may raise: RXDMT0, RXO and RXT0 (44_device_agent R210). -/
def icrRxCauses : Word32 := 0x000000D0

/-- TXH, the TX hint of INT_ACK: ICR bit 0 (43_interrupt R190). -/
def txHint (icr : Word32) : Bool := icr.getLsbD 0

/-- RXH, the RX hint of INT_ACK: ICR bit 4 (43_interrupt R190). -/
def rxHint (icr : Word32) : Bool := icr.getLsbD 4

/-- EN, bit 1 of TCTL (R34) and of RCTL (R36). -/
def enableSet (ctl : Word32) : Bool := ctl.getLsbD 1

/-- The fields TX_INIT gives TCTL: EN, PSP, Collision-Threshold 0x10 at bit 4, Collision-Distance 0x40 at bit 12 (R34). -/
def tctlFields : Word32 := (1 <<< 1) ||| (1 <<< 3) ||| (0x10 <<< 4) ||| (0x40 <<< 12)

/-- The fields TX_INIT gives TIPG: 10, 8 and 20 at shifts 0, 10 and 20 (R35). -/
def tipgFields : Word32 := 10 ||| (8 <<< 10) ||| (20 <<< 20)

/-- FCODE of a fault (60_exceptions R234). -/
def FaultCode.byte (f : FaultCode) : Byte :=
  match f with
  | .illegalCommand => 0x01
  | .badOffset => 0x02
  | .accessDenied => 0x03
  | .unmodelled => 0x04
  | .notInitialized => 0x05
  | .alreadyInitialized => 0x06
  | .badArgument => 0x07
  | .rxLengthOverrun => 0x08

/-- P0.CODE of a response (60_exceptions R231). -/
def RespCode.byte (c : RespCode) : Byte :=
  match c with
  | .ok => 0x00
  | .busy => 0x01
  | .noData => 0x02
  | .fault => 0xFF

/-- The response word P0 (30_encoding R116). -/
def Response.p0 (r : Response) : Word64 :=
  r.code.byte.setWidth 64 ||| (r.fcode.setWidth 64 <<< 8) ||| ((BitVec.ofBool r.txh).setWidth 64 <<< 16) |||
    ((BitVec.ofBool r.rxh).setWidth 64 <<< 17) ||| (r.data.setWidth 64 <<< 32)

/-- The response word P1 (30_encoding R116). -/
def Response.p1 (r : Response) : Word64 :=
  r.plen.setWidth 64 ||| (r.rstat.setWidth 64 <<< 16) ||| (r.rerr.setWidth 64 <<< 24) |||
    (r.slot.setWidth 64 <<< 32)

/-- The response of a command that faults, or that meets a faulted block (60_exceptions R236, R237). -/
def Response.faulted (fcode : Byte) : Response := { code := .fault, fcode := fcode }

end Sys2Proof.Machine
end

