-- ==== Sys2Proof/Machine/Operands.lean ====
section
/-! DEFINITION. What operands name and which of them a command accepts: the register map (10_state R30), register
classes and access rights (R31, 40_register_access R131, R132), ring bases (41_tx_ring R150, 42_rx_ring R170), TX
buffers and page ids (41_tx_ring R152, R154). -/

namespace Sys2Proof.Machine

/-- The register map (10_state R30). -/
def regOffset (r : Reg) : Word32 :=
  match r with
  | .ctrl => 0x00000
  | .status => 0x00008
  | .icr => 0x000C0
  | .ims => 0x000D0
  | .imc => 0x000D8
  | .rctl => 0x00100
  | .tctl => 0x00400
  | .tipg => 0x00410
  | .rdbal => 0x02800
  | .rdbah => 0x02804
  | .rdlen => 0x02808
  | .rdh => 0x02810
  | .rdt => 0x02818
  | .rsrpd => 0x02C00
  | .tdbal => 0x03800
  | .tdbah => 0x03804
  | .tdlen => 0x03808
  | .tdh => 0x03810
  | .tdt => 0x03818
  | .tidv => 0x03820
  | .mta => 0x05200
  | .ral0 => 0x05400
  | .rah0 => 0x05404

/-- Every register of the map. -/
def allRegs : List Reg :=
  [.ctrl, .status, .icr, .ims, .imc, .rctl, .tctl, .tipg, .rdbal, .rdbah, .rdlen, .rdh, .rdt, .rsrpd,
    .tdbal, .tdbah, .tdlen, .tdh, .tdt, .tidv, .mta, .ral0, .rah0]

/-- The register at a byte offset; none for an offset outside `Map` (40_register_access R130, R131). -/
def regAt (ofs : Word32) : Option Reg := allRegs.find? fun r => regOffset r == ofs

/-- The register classes of 10_state R31. -/
inductive RegClass where
  | deviceOwned
  | readOnly
  | readToClear
  | writeOneToSet
  | writeOneToClear
  | storage (k : StoreReg)
  | ringStorage (k : StoreReg)
  | ringHead (ring : Ring)
  | ringDoorbell (ring : Ring)
  deriving DecidableEq, Repr

/-- The class of each register (10_state R31). -/
def regClass (r : Reg) : RegClass :=
  match r with
  | .ctrl => .deviceOwned
  | .status => .readOnly
  | .icr => .readToClear
  | .ims => .writeOneToSet
  | .imc => .writeOneToClear
  | .rctl => .storage .rctl
  | .tctl => .storage .tctl
  | .tipg => .storage .tipg
  | .rsrpd => .storage .rsrpd
  | .tidv => .storage .tidv
  | .mta => .storage .mta
  | .ral0 => .storage .ral0
  | .rah0 => .storage .rah0
  | .rdbal => .ringStorage .rdbal
  | .rdbah => .ringStorage .rdbah
  | .rdlen => .ringStorage .rdlen
  | .tdbal => .ringStorage .tdbal
  | .tdbah => .ringStorage .tdbah
  | .tdlen => .ringStorage .tdlen
  | .tdh => .ringHead .tx
  | .rdh => .ringHead .rx
  | .tdt => .ringDoorbell .tx
  | .rdt => .ringDoorbell .rx

/-- The kind K of a REG_* command (40_register_access R132). -/
inductive AccessKind where
  | read | write | rmw
  deriving DecidableEq, Repr

/-- `Access(ofs, K)` (40_register_access R132, 10_state R31): none where the access is allowed, else the fault. -/
def accessFault (r : Reg) (k : AccessKind) : Option FaultCode :=
  match k, regClass r with
  | .read, _ => none
  | _, .deviceOwned => some .unmodelled
  | .write, .writeOneToSet => none
  | .write, .writeOneToClear => none
  | _, .storage _ => none
  | _, _ => some .accessDenied

/-- The alignment and range check of a ring base: 16-byte aligned, and a ring of `slots` descriptors does not pass the
top of the address space (41_tx_ring R150, 42_rx_ring R170). -/
def ringBaseOk (base : Addr) (slots : Nat) : Bool :=
  base.toNat % Config.descBytes == 0 && decide (base.toNat ≤ 2 ^ 64 - Config.descBytes * slots)

/-- Descriptor i of a ring is at `base + 16*i` (10_state R40, R45). -/
def slotAddr (base : Addr) (i : Nat) : Addr := base + BitVec.ofNat 64 (Config.descBytes * i)

/-- A TX buffer lies within one page: `(addr mod PAGE_SIZE) + len <= PAGE_SIZE` (41_tx_ring R152). -/
def withinPage (p : Params) (addr : Addr) (len : Word16) : Bool :=
  decide (addr.toNat % p.pageSize + len.toNat ≤ p.pageSize)

/-- The page id of an address, `addr - (addr mod PAGE_SIZE)` (41_tx_ring R154). -/
def pageOf (p : Params) (addr : Addr) : PageId := BitVec.ofNat 64 (addr.toNat - addr.toNat % p.pageSize)

/-- The next ring index, `(i + 1) mod K` (41_tx_ring R155, 42_rx_ring R174). -/
def nextSlot {k : Nat} (i : Fin k) : Fin k := ⟨(i.val + 1) % k, Nat.mod_lt _ (Nat.zero_lt_of_lt i.isLt)⟩

/-- An address lies in the `len` bytes that start at `base`, addresses taken modulo 2^64. -/
def inRange (x base : Addr) (len : Nat) : Bool := decide ((x - base).toNat < len)

end Sys2Proof.Machine
end

