-- ==== Sys2Proof/Machine/Ops.lean ====
section
/-! DEFINITION. The shared operations: host memory (20_memory R72), the NIC register file (10_state R31), `draw()`,
`Emit`, `respond` and `raise` (00_scope R11, 60_exceptions R232, R236), taking a fault, the frame every command runs
in (60_exceptions R235), and the descriptors (10_state R40, R45). -/

namespace Sys2Proof.Machine

/-! ### Host memory -/

/-- The canonical form of memory: addresses strictly rising, each a 64-bit address. -/
abbrev Memory.wf (m : Memory) : Prop :=
  m.Pairwise (fun x y => x.1 < y.1) ∧ ∀ c ∈ m, c.1 < 2 ^ 64

/-- The byte listed for an address; none where nothing has written it. -/
def Memory.lookup (m : Memory) (a : Nat) : Option Byte :=
  match m with
  | [] => none
  | (k, v) :: rest => if k = a then some v else Memory.lookup rest a

/-- List a byte for an address, keeping the addresses in order. -/
def Memory.insert (m : Memory) (a : Nat) (b : Byte) : Memory :=
  match m with
  | [] => [(a, b)]
  | (k, v) :: rest =>
    if a < k then (a, b) :: (k, v) :: rest
    else if a = k then (a, b) :: rest
    else (k, v) :: Memory.insert rest a b

/-- The byte of memory at an address: the written byte, or the free byte memory held before any write (log 4). -/
def Memory.byte (m : Memory) (a : Addr) : Byte := (Memory.lookup m a.toNat).getD (Config.unwrittenByte a)

/-- `byte[a] <- b`. -/
def Memory.setByte (m : Memory) (a : Addr) (b : Byte) : Memory := Memory.insert m a.toNat b

/-- The value of `MemRead(a, n)`: the n bytes at `a`, little-endian (20_memory R72). -/
def Memory.readLE (m : Memory) (a : Addr) (n : Nat) : Word64 :=
  match n with
  | 0 => 0
  | k + 1 => Memory.readLE m a k ||| ((Memory.byte m (a + BitVec.ofNat 64 k)).setWidth 64 <<< (8 * k))

/-- The memory after `MemWrite(a, n, v)`: `byte[a+k] <- v[8k+7:8k]` (20_memory R72). -/
def Memory.writeLE (m : Memory) (a : Addr) (n : Nat) (v : Word64) : Memory :=
  match n with
  | 0 => m
  | k + 1 => Memory.setByte (Memory.writeLE m a k v) (a + BitVec.ofNat 64 k) (v.extractLsb' (8 * k) 8)

/-- The value of `MemReadBytes(a, n)`: the bytes at a..a+n-1, in address order (00_scope R11). -/
def Memory.readBytes (m : Memory) (a : Addr) (n : Nat) : List Byte :=
  (List.range n).map fun k => Memory.byte m (a + BitVec.ofNat 64 k)

/-- The memory after the bytes are written one by one from `a` on. -/
def Memory.writeBytes (m : Memory) (a : Addr) (bs : List Byte) : Memory :=
  match bs with
  | [] => m
  | b :: rest => Memory.writeBytes (Memory.setByte m a b) (a + 1) rest

/-- Record an access of the block. -/
def recordAccess (x : Access) (s : State) : State := { s with bus := s.bus ++ [x] }

/-- `MemRead(a, n)` by the block. -/
def memRead (a : Addr) (n : Nat) (s : State) : Word64 × State :=
  (Memory.readLE s.mem a n, recordAccess (.memRead a n) s)

/-- `MemReadBytes(a, n)` by the block. -/
def memReadBytes (a : Addr) (n : Nat) (s : State) : List Byte × State :=
  (Memory.readBytes s.mem a n, recordAccess (.memReadBytes a n) s)

/-- `MemWrite(a, n, v)` by the block. -/
def memWrite (a : Addr) (n : Nat) (v : Word64) (s : State) : State :=
  recordAccess (.memWrite a n v) { s with mem := Memory.writeLE s.mem a n v }

/-! ### Free values -/

/-- `draw()` at 64 bits: a fresh free value (00_scope R11, log 2). -/
def draw64 (s : State) : Word64 × State := (Config.draw s.draws, { s with draws := s.draws + 1 })

/-- `draw()` at 32 bits. -/
def draw32 (s : State) : Word32 × State := ((draw64 s).1.setWidth 32, (draw64 s).2)

/-! ### The NIC register file -/

/-- `dev.store[k]`. -/
def NicStore.get (st : NicStore) (k : StoreReg) : Option Word32 :=
  match k with
  | .rctl => st.rctl
  | .tctl => st.tctl
  | .tipg => st.tipg
  | .rsrpd => st.rsrpd
  | .tidv => st.tidv
  | .mta => st.mta
  | .ral0 => st.ral0
  | .rah0 => st.rah0
  | .rdbal => st.rdbal
  | .rdbah => st.rdbah
  | .rdlen => st.rdlen
  | .tdbal => st.tdbal
  | .tdbah => st.tdbah
  | .tdlen => st.tdlen

/-- `dev.store[k] <- some v`. -/
def NicStore.set (st : NicStore) (k : StoreReg) (v : Word32) : NicStore :=
  match k with
  | .rctl => { st with rctl := some v }
  | .tctl => { st with tctl := some v }
  | .tipg => { st with tipg := some v }
  | .rsrpd => { st with rsrpd := some v }
  | .tidv => { st with tidv := some v }
  | .mta => { st with mta := some v }
  | .ral0 => { st with ral0 := some v }
  | .rah0 => { st with rah0 := some v }
  | .rdbal => { st with rdbal := some v }
  | .rdbah => { st with rdbah := some v }
  | .rdlen => { st with rdlen := some v }
  | .tdbal => { st with tdbal := some v }
  | .tdbah => { st with tdbah := some v }
  | .tdlen => { st with tdlen := some v }

/-- `dev.tdh` or `dev.rdh`. -/
def Nic.head (d : Nic) (ring : Ring) : Option Word32 :=
  match ring with
  | .tx => d.tdh
  | .rx => d.rdh

/-- `dev.tdt` or `dev.rdt`. -/
def Nic.tail (d : Nic) (ring : Ring) : Option Word32 :=
  match ring with
  | .tx => d.tdt
  | .rx => d.rdt

/-- Write a head register. -/
def Nic.setHead (d : Nic) (ring : Ring) (v : Word32) : Nic :=
  match ring with
  | .tx => { d with tdh := some v }
  | .rx => { d with rdh := some v }

/-- Write a tail register. -/
def Nic.setTail (d : Nic) (ring : Ring) (v : Word32) : Nic :=
  match ring with
  | .tx => { d with tdt := some v }
  | .rx => { d with rdt := some v }

/-- The value the NIC holds for a register; none where a read of it is `draw()` (10_state R31): CTRL, STATUS, IMC,
and a register never written since device reset. -/
def Nic.held (d : Nic) (r : Reg) : Option Word32 :=
  match regClass r with
  | .deviceOwned => none
  | .readOnly => none
  | .readToClear => some d.icr
  | .writeOneToSet => some d.ims
  | .writeOneToClear => none
  | .storage k => d.store.get k
  | .ringStorage k => d.store.get k
  | .ringHead ring => d.head ring
  | .ringDoorbell ring => d.tail ring

/-- The side effect of a read: a read of ICR clears it, a read of any other register has none (10_state R31). -/
def Nic.afterRead (d : Nic) (r : Reg) : Nic :=
  match regClass r with
  | .readToClear => { d with icr := 0 }
  | _ => d

/-- The effect of a write (10_state R31). The spec does not model a write of CTRL, STATUS or ICR; no command makes
one, since R132 refuses it first, and the NIC is left as it was (log 13). -/
def Nic.afterWrite (d : Nic) (r : Reg) (v : Word32) : Nic :=
  match regClass r with
  | .deviceOwned => d
  | .readOnly => d
  | .readToClear => d
  | .writeOneToSet => { d with ims := d.ims ||| v }
  | .writeOneToClear => { d with ims := d.ims &&& ~~~v }
  | .storage k => { d with store := d.store.set k v }
  | .ringStorage k => { d with store := d.store.set k v }
  | .ringHead ring => d.setHead ring v
  | .ringDoorbell ring => d.setTail ring v

/-- The value a read of a register gives: the value held, or a fresh free value. -/
def regValue (r : Reg) (s : State) : Word32 × State :=
  match s.dev.held r with
  | some v => (v, s)
  | none => draw32 s

/-- `MmioRead32` (00_scope R11, 10_state R31). -/
def mmioRead (r : Reg) (s : State) : Word32 × State :=
  let v := (regValue r s).1
  let t := (regValue r s).2
  (v, recordAccess (.mmioRead r v) { t with dev := t.dev.afterRead r })

/-- `MmioWrite32` (00_scope R11, 10_state R31). -/
def mmioWrite (r : Reg) (v : Word32) (s : State) : State :=
  recordAccess (.mmioWrite r v) { s with dev := s.dev.afterWrite r v }

/-! ### Events, responses and faults -/

/-- `Emit(e)` (00_scope R11). -/
def emit (e : Event) (s : State) : State := { s with events := s.events ++ [e] }

/-- Deliver the response of a command (60_exceptions R232). -/
def respond (r : Response) (s : State) : State := { s with responses := s.responses ++ [r] }

/-- TAKING A FAULT (60_exceptions R236): the code and the two command words are recorded and the response is FAULT;
nothing else changes. UNMODELLED also marks the run (R239). -/
def takeFault (f : FaultCode) (c : Command) (s : State) : State :=
  respond (Response.faulted f.byte)
    { s with
      block := { s.block with faultCode := f.byte, faultW0 := c.w0, faultW1 := c.w1 }
      outside := s.outside || f == .unmodelled }

/-- The response of a faulted block (60_exceptions R237): FAULT with the sticky code, and no other effect. -/
def respondFaulted (s : State) : State := respond (Response.faulted s.block.faultCode) s

/-- How a command's own pseudocode ends: with `respond`, or with `raise Fault`. -/
inductive Ending where
  | done (r : Response) (s : State)
  | raised (f : FaultCode) (s : State)

/-- The outcome of a command's ending: its response, or its fault taken with its words. -/
def Ending.settle (c : Command) (e : Ending) : Host.Outcome State Fault Refusal :=
  match e with
  | .done r t => .next (respond r t)
  | .raised f t => .next (takeFault f c t)

/-- The frame every command runs in (60_exceptions R235, R236, R237): on a faulted block the sticky response, else
the command's own pseudocode, whose fault is taken with the command's words. -/
def runCommand (c : Command) (body : State → Ending) (s : State) : Host.Outcome State Fault Refusal :=
  if s.block.faultCode = 0 then (body s).settle c else .next (respondFaulted s)

/-- A command whose words do not decode (30_encoding R111 to R113): ILLEGAL_COMMAND. -/
def rejectCommand (c : Command) (s : State) : Host.Outcome State Fault Refusal :=
  runCommand c (fun t => .raised .illegalCommand t) s

/-- The checks of a REG_* command (40_register_access R131, R132), then its accesses. -/
def withRegister (ofs : Word32) (k : AccessKind) (body : Reg → State → Ending) (s : State) : Ending :=
  match regAt ofs with
  | none => .raised .badOffset s
  | some r =>
    match accessFault r k with
    | some f => .raised f s
    | none => body r s

/-- One read and one write of a register as one command (40_register_access R135, R136; 20_memory R88). -/
def readModifyWrite (f : Word32 → Word32) (r : Reg) (s : State) : Ending :=
  let v := (mmioRead r s).1
  .done { code := .ok, data := v } (mmioWrite r (f v) (mmioRead r s).2)

/-! ### Descriptors -/

/-- A TX descriptor (10_state R40). -/
structure TxDescriptor where
  addr    : Addr
  length  : Word16
  cso     : Byte
  cmd     : Byte
  status  : Byte
  css     : Byte
  special : Word16
  deriving DecidableEq, Repr

/-- An RX descriptor (10_state R45). -/
structure RxDescriptor where
  addr     : Addr
  length   : Word16
  checksum : Word16
  status   : Byte
  errors   : Byte
  special  : Word16
  deriving DecidableEq, Repr

/-- The block writes a TX descriptor field by field (41_tx_ring R150, R152). -/
def writeTxDescriptor (d : Addr) (x : TxDescriptor) (s : State) : State :=
  memWrite (d + 14) 2 (x.special.setWidth 64) <|
  memWrite (d + 13) 1 (x.css.setWidth 64) <|
  memWrite (d + 12) 1 (x.status.setWidth 64) <|
  memWrite (d + 11) 1 (x.cmd.setWidth 64) <|
  memWrite (d + 10) 1 (x.cso.setWidth 64) <|
  memWrite (d + 8) 2 (x.length.setWidth 64) <|
  memWrite d 8 x.addr s

/-- The block writes an RX descriptor field by field (42_rx_ring R170). -/
def writeRxDescriptor (d : Addr) (x : RxDescriptor) (s : State) : State :=
  memWrite (d + 14) 2 (x.special.setWidth 64) <|
  memWrite (d + 13) 1 (x.errors.setWidth 64) <|
  memWrite (d + 12) 1 (x.status.setWidth 64) <|
  memWrite (d + 10) 2 (x.checksum.setWidth 64) <|
  memWrite (d + 8) 2 (x.length.setWidth 64) <|
  memWrite d 8 x.addr s

/-- Write descriptors 0 .. n-1 of a TX ring, each with the same contents. -/
def writeTxRing (base : Addr) (x : TxDescriptor) (n : Nat) (s : State) : State :=
  match n with
  | 0 => s
  | k + 1 => writeTxDescriptor (slotAddr base k) x (writeTxRing base x k s)

/-- Write descriptors of an RX ring, one for each entry of the list, from slot i on. -/
def writeRxRing (base : Addr) (i : Nat) (xs : List RxDescriptor) (s : State) : State :=
  match xs with
  | [] => s
  | x :: rest => writeRxRing base (i + 1) rest (writeRxDescriptor (slotAddr base i) x s)

end Sys2Proof.Machine
end

