-- ==== Sys2Proof/Machine/Interrupt.lean ====
section
/-! DEFINITION. The interrupt-cause command (43_interrupt) and the NIC's interrupt line (44_device_agent R212). -/

namespace Sys2Proof.Machine

/-- INT_ACK (43_interrupt R190): one read of ICR, which clears it; the hints are bits 0 and 4 of the value read. -/
def execIntAck (s : State) : Host.Outcome State Fault Refusal :=
  runCommand (encode .intAck)
    (fun t =>
      let v := (mmioRead .icr t).1
      .done { code := .ok, data := v, txh := txHint v, rxh := rxHint v } (mmioRead .icr t).2) s

/-- The NIC's interrupt line: asserted exactly when `(dev.icr & dev.ims) != 0` (44_device_agent R212). The block does
not receive it (60_exceptions R240). -/
def intLine (d : Nic) : Bool := (d.icr &&& d.ims) != 0

end Sys2Proof.Machine
end

