-- ==== Sys2Proof/Machine/RegAccess.lean ====
section
/-! DEFINITION. The register access commands (40_register_access). -/

namespace Sys2Proof.Machine

/-- REG_READ (40_register_access R133). -/
def execRegRead (ofs : Word32) (s : State) : Host.Outcome State Fault Refusal :=
  runCommand (encode (.regRead ofs))
    (withRegister ofs .read fun r t => .done { code := .ok, data := (mmioRead r t).1 } (mmioRead r t).2) s

/-- REG_WRITE (40_register_access R134). -/
def execRegWrite (ofs data : Word32) (s : State) : Host.Outcome State Fault Refusal :=
  runCommand (encode (.regWrite ofs data))
    (withRegister ofs .write fun r t => .done { code := .ok } (mmioWrite r data t)) s

/-- REG_SET_BITS (40_register_access R135). -/
def execRegSetBits (ofs mask : Word32) (s : State) : Host.Outcome State Fault Refusal :=
  runCommand (encode (.regSetBits ofs mask))
    (withRegister ofs .rmw (readModifyWrite fun v => v ||| mask)) s

/-- REG_CLEAR_BITS (40_register_access R136). -/
def execRegClearBits (ofs mask : Word32) (s : State) : Host.Outcome State Fault Refusal :=
  runCommand (encode (.regClearBits ofs mask))
    (withRegister ofs .rmw (readModifyWrite fun v => v &&& ~~~mask)) s

end Sys2Proof.Machine
end

