-- ==== Sys2Proof/Machine/RxRing.lean ====
section
/-! DEFINITION. The RX ring commands (42_rx_ring). -/

namespace Sys2Proof.Machine

/-- The initial RX descriptor of the slot bound to a buffer: DD clear, every other field 0 (42_rx_ring R170, R171). -/
def rxDescriptorInit (buf : Addr) : RxDescriptor where
  addr := buf
  length := 0
  checksum := 0
  status := 0
  errors := 0
  special := 0

/-- The initial RX ring: slot i bound to `rxBufAddr(i)` (10_state R48). -/
def rxRingInit (p : Params) : List RxDescriptor := p.rxBuf.toList.map rxDescriptorInit

/-- The register writes of RX_INIT, in order (42_rx_ring R170). -/
def rxInitRegisters (base : Addr) (s : State) : State :=
  mmioWrite .rdt (BitVec.ofNat 32 (Config.mRx - 1)) <|
  mmioWrite .rdh 0 <|
  mmioWrite .rdlen (BitVec.ofNat 32 (Config.descBytes * Config.mRx)) <|
  mmioWrite .rdbah (base.extractLsb' 32 32) <|
  mmioWrite .rdbal (base.extractLsb' 0 32) s

/-- The body of RX_INIT (42_rx_ring R170). -/
def rxInitBody (base : Addr) (s : State) : Ending :=
  if s.block.rxReady then .raised .alreadyInitialized s
  else if ringBaseOk base Config.mRx then
    let t := rxInitRegisters base (writeRxRing base 0 (rxRingInit s.params) s)
    .done { code := .ok }
      { t with block := { t.block with
          rxBase := base
          rxCursor := ⟨0, by decide⟩
          rxReady := true } }
  else .raised .badArgument s

/-- RX_INIT (42_rx_ring R170). -/
def execRxInit (base : Addr) (s : State) : Host.Outcome State Fault Refusal :=
  runCommand (encode (.rxInit base)) (rxInitBody base) s

/-- Return slot `rx_cursor` to the NIC and advance the cursor (42_rx_ring R172, R174; 20_memory R83). From here on the
slot's buffer is open: any value until DEV_RX fills it (70_reset_and_hazards R275, log 19). -/
def advanceRxCursor (s : State) : State :=
  let c := s.block.rxCursor
  let t := mmioWrite .rdt (BitVec.ofNat 32 c.val) s
  { t with
    block := { t.block with rxCursor := nextSlot c }
    rxOpen := t.rxOpen.set c true }

/-- Clear the status and errors of an RX descriptor (42_rx_ring R172). -/
def clearRxStatus (d : Addr) (s : State) : State := memWrite (d + 13) 1 0 (memWrite (d + 12) 1 0 s)

/-- The body of RX_POLL (42_rx_ring R172, R173, R178): the bytes are copied out before the slot is returned.
The command writes two bytes and not the buffer (20_memory R71), whose contents are any value from then on
(93_implementation_defined U19): `devOverwrite` may change them at any step after (70_reset_and_hazards R275, log 19). -/
def rxPollBody (s : State) : Ending :=
  if s.block.rxReady then
    let c := s.block.rxCursor
    let d := slotAddr s.block.rxBase c
    let st := (memRead (d + 12) 1 s).1
    let s1 := (memRead (d + 12) 1 s).2
    if ddSet (st.setWidth 8) then
      let len := (memRead (d + 8) 2 s1).1
      let s2 := (memRead (d + 8) 2 s1).2
      if len.toNat ≤ s.params.pageSize then
        let er := (memRead (d + 13) 1 s2).1
        let s3 := (memRead (d + 13) 1 s2).2
        let buf := s.params.rxBufAddr c
        let bytes := (memReadBytes buf len.toNat s3).1
        let s4 := (memReadBytes buf len.toNat s3).2
        .done
          { code := .ok, plen := len.setWidth 16, rstat := st.setWidth 8, rerr := er.setWidth 8
            slot := BitVec.ofNat 16 c.val, bytes := bytes }
          (advanceRxCursor (clearRxStatus d s4))
      else .raised .rxLengthOverrun s2
    else .done { code := .noData } s1
  else .raised .notInitialized s

/-- RX_POLL (42_rx_ring R172). -/
def execRxPoll (s : State) : Host.Outcome State Fault Refusal :=
  runCommand (encode .rxPoll) rxPollBody s

end Sys2Proof.Machine
end

