-- ==== Sys2Proof/Machine/TxRing.lean ====
section
/-! DEFINITION. The TX ring commands (41_tx_ring). -/

namespace Sys2Proof.Machine

/-- The initial TX descriptor: DD set, every other field 0 (41_tx_ring R151). -/
def txDescriptorInit : TxDescriptor where
  addr := 0
  length := 0
  cso := 0
  cmd := 0
  status := ddOnly
  css := 0
  special := 0

/-- The descriptor TX_ENQUEUE posts (41_tx_ring R152). -/
def txDescriptorPosted (addr : Addr) (len : Word16) (eop : Bool) : TxDescriptor where
  addr := addr
  length := len
  cso := 0
  cmd := txCmdByte eop
  status := 0
  css := 0
  special := 0

/-- The register writes of TX_INIT, in order (41_tx_ring R150). -/
def txInitRegisters (base : Addr) (s : State) : State :=
  mmioWrite .tipg Config.tipgInit <|
  mmioWrite .tctl Config.tctlInit <|
  mmioWrite .tdt 0 <|
  mmioWrite .tdh 0 <|
  mmioWrite .tdlen (BitVec.ofNat 32 (Config.descBytes * Config.nTx)) <|
  mmioWrite .tdbah (base.extractLsb' 32 32) <|
  mmioWrite .tdbal (base.extractLsb' 0 32) s

/-- The body of TX_INIT (41_tx_ring R150). -/
def txInitBody (base : Addr) (s : State) : Ending :=
  if s.block.txReady then .raised .alreadyInitialized s
  else if ringBaseOk base Config.nTx then
    let t := txInitRegisters base (writeTxRing base txDescriptorInit Config.nTx s)
    .done { code := .ok }
      { t with block := { t.block with
          txBase := base
          txTail := ⟨0, by decide⟩
          txBound := Vector.replicate Config.nTx none
          txReady := true } }
  else .raised .badArgument s

/-- TX_INIT (41_tx_ring R150). -/
def execTxInit (base : Addr) (s : State) : Host.Outcome State Fault Refusal :=
  runCommand (encode (.txInit base)) (txInitBody base) s

/-- Release the page bound to a TX slot, if any (41_tx_ring R154, step 1). -/
def releaseSlot (i : Fin Config.nTx) (s : State) : State :=
  match s.block.txBound[i] with
  | some q => emit (.unpin q) s
  | none => s

/-- Bind a page to a TX slot (41_tx_ring R154): release the previous binding, pin the new page, record it. -/
def bindSlot (i : Fin Config.nTx) (p : PageId) (s : State) : State :=
  let t := emit (.pin p) (releaseSlot i s)
  { t with block := { t.block with txBound := t.block.txBound.set i (some p) } }

/-- Advance `tx_tail` and ring the TX doorbell (41_tx_ring R152, 20_memory R83). -/
def advanceTxTail (s : State) : State :=
  let next := nextSlot s.block.txTail
  mmioWrite .tdt (BitVec.ofNat 32 next.val) { s with block := { s.block with txTail := next } }

/-- The body of TX_ENQUEUE (41_tx_ring R152, R153). -/
def txEnqueueBody (addr : Addr) (len : Word16) (eop : Bool) (s : State) : Ending :=
  if s.block.txReady then
    if withinPage s.params addr len then
      let i := s.block.txTail
      let d := slotAddr s.block.txBase i
      let st := (memRead (d + 12) 1 s).1
      let t := (memRead (d + 12) 1 s).2
      if ddSet (st.setWidth 8) then
        .done { code := .ok }
          (advanceTxTail (writeTxDescriptor d (txDescriptorPosted addr len eop) (bindSlot i (pageOf s.params addr) t)))
      else .done { code := .busy } t
    else .raised .badArgument s
  else .raised .notInitialized s

/-- TX_ENQUEUE (41_tx_ring R152). -/
def execTxEnqueue (addr : Addr) (len : Word16) (eop : Bool) (s : State) : Host.Outcome State Fault Refusal :=
  runCommand (encode (.txEnqueue addr len eop)) (txEnqueueBody addr len eop) s

end Sys2Proof.Machine
end

