-- ==== Sys2Proof/Machine/Dispatch.lean ====
section
/-! DEFINITION. One arm per command of 30_encoding R110. -/

namespace Sys2Proof.Machine

def exec (i : Instr) (s : State) : Host.Outcome State Fault Refusal :=
  match i with
  | .regRead ofs => Sys2Proof.Machine.execRegRead ofs s
  | .regWrite ofs data => Sys2Proof.Machine.execRegWrite ofs data s
  | .regSetBits ofs mask => Sys2Proof.Machine.execRegSetBits ofs mask s
  | .regClearBits ofs mask => Sys2Proof.Machine.execRegClearBits ofs mask s
  | .txInit base => Sys2Proof.Machine.execTxInit base s
  | .txEnqueue addr len eop => Sys2Proof.Machine.execTxEnqueue addr len eop s
  | .rxInit base => Sys2Proof.Machine.execRxInit base s
  | .rxPoll => Sys2Proof.Machine.execRxPoll s
  | .intAck => Sys2Proof.Machine.execIntAck s

end Sys2Proof.Machine
end

