-- ==== Sys2Proof/Machine/Device.lean ====
section
/-! DEFINITION. The NIC as an environment agent (44_device_agent): DEV_TX, DEV_RX, DEV_CAUSE, and the overwriting of a
returned RX buffer (70_reset_and_hazards R275). -/

namespace Sys2Proof.Machine

/-- A ring as the device computes it from its registers (44_device_agent R202). -/
structure DevRing where
  base  : Addr
  slots : Nat
  head  : Word32
  deriving DecidableEq, Repr

/-- The address in a low and a high base register, `(high << 32) | low` (44_device_agent R202). -/
def ringBaseOf (low high : Word32) : Addr := (high.setWidth 64 <<< 32) ||| low.setWidth 64

/-- The ring a device step would work on; none where the step is not enabled (44_device_agent R201, R203, R208, R209):
the control register's EN is 1, the base, length, head and tail registers are all written, and the head differs from
the tail. A length below one descriptor gives no slot, so nothing is enabled (log 9). -/
def enabledRing (control low high length head tail : Option Word32) : Option DevRing :=
  match control, low, high, length, head, tail with
  | some c, some lo, some hi, some len, some h, some t =>
    if enableSet c ∧ h ≠ t ∧ Config.descBytes ≤ len.toNat then
      some { base := ringBaseOf lo hi, slots := len.toNat / Config.descBytes, head := h }
    else none
  | _, _, _, _, _, _ => none

/-- The TX ring, while DEV_TX is enabled (44_device_agent R201, R203, R204). -/
def Nic.txWork (d : Nic) : Option DevRing :=
  enabledRing d.store.tctl d.store.tdbal d.store.tdbah d.store.tdlen d.tdh d.tdt

/-- The RX ring, while DEV_RX is enabled (44_device_agent R208, R209, R210). -/
def Nic.rxWork (d : Nic) : Option DevRing :=
  enabledRing d.store.rctl d.store.rdbal d.store.rdbah d.store.rdlen d.rdh d.rdt

/-- The address of the descriptor at the head. -/
def DevRing.slot (g : DevRing) : Addr := slotAddr g.base g.head.toNat

/-- The head after the step, `(j + 1) mod C` (44_device_agent R204, R210). -/
def DevRing.nextHead (g : DevRing) : Word32 := BitVec.ofNat 32 ((g.head.toNat + 1) % g.slots)

/-- The bytes of the descriptor's buffer that DEV_TX reads (44_device_agent R204). -/
def txFragment (m : Memory) (d : Addr) : List Byte :=
  Memory.readBytes m (Memory.readLE m d 8) (Memory.readLE m (d + 8) 2).toNat

/-- DEV_TX (44_device_agent R204); no step where it is not enabled (log 8). -/
def devTx (sent : Bool) (errors : Byte) (cause : Bool) (s : State) : State :=
  match s.dev.txWork with
  | none => s
  | some g =>
    let d := g.slot
    let cmd := Memory.byte s.mem (d + 11)
    let frame := s.dev.txframe ++ txFragment s.mem d
    { s with
      mem := if txCmdRs cmd then Memory.setByte s.mem (d + 12) (txDoneStatus errors) else s.mem
      dev := { s.dev with
        txframe := if txCmdEop cmd then [] else frame
        wire := if txCmdEop cmd && sent then s.dev.wire ++ [frame] else s.dev.wire
        tdh := some g.nextHead
        icr := if txCmdRs cmd && cause then s.dev.icr ||| icrTxdw else s.dev.icr } }

/-- The memory after DEV_RX has written a frame and completed its descriptor, status last (44_device_agent R210,
20_memory R85). -/
def rxDelivered (m : Memory) (d : Addr) (data : List Byte) (checksum : Word16) (errors : Byte) (special : Word16)
    (status : Byte) : Memory :=
  let m1 := Memory.writeBytes m (Memory.readLE m d 8) data
  let m2 := Memory.writeLE m1 (d + 8) 2 (BitVec.ofNat 64 data.length)
  let m3 := Memory.writeLE m2 (d + 10) 2 (checksum.setWidth 64)
  let m4 := Memory.setByte m3 (d + 13) errors
  let m5 := Memory.writeLE m4 (d + 14) 2 (special.setWidth 64)
  Memory.setByte m5 (d + 12) (rxDoneStatus status)

/-- DEV_RX (44_device_agent R210); no step where it is not enabled, or where the frame's length is not one the rule
admits (log 8). The slot's buffer then holds the frame and is no longer open (log 19). -/
def devRx (data : List Byte) (checksum : Word16) (errors : Byte) (special : Word16) (status : Byte)
    (causes : Word32) (s : State) : State :=
  match s.dev.rxWork with
  | none => s
  | some g =>
    if 1 ≤ data.length ∧ data.length ≤ s.params.pageSize then
      { s with
        mem := rxDelivered s.mem g.slot data checksum errors special status
        rxOpen := s.rxOpen.setIfInBounds g.head.toNat false
        dev := { s.dev with
          rdh := some g.nextHead
          icr := s.dev.icr ||| (causes &&& icrRxCauses) } }
    else s

/-- DEV_CAUSE (44_device_agent R215). -/
def devCause (causes : Word32) (s : State) : State :=
  { s with dev := { s.dev with icr := s.dev.icr ||| causes } }

/-- The device overwrites an open buffer with bytes of its choice (70_reset_and_hazards R275,
93_implementation_defined U19, log 19); no step where the buffer is not open or the bytes do not fit it (log 8). A list
that fills the buffer covers every other way to overwrite it. -/
def devOverwrite (slot : Fin Config.mRx) (data : List Byte) (s : State) : State :=
  if s.rxOpen[slot] = true ∧ data.length ≤ s.params.pageSize then
    { s with mem := Memory.writeBytes s.mem (s.params.rxBufAddr slot) data }
  else s

end Sys2Proof.Machine
end

