-- ==== Sys2Proof/Machine/HostAgent.lean ====
section
/-! DEFINITION. The host and the platform: issuing commands (30_encoding R100), storing to host memory with the duty
of 70_reset_and_hazards R266, the page pin counts (10_state R51), block reset (R260), and the pseudo-commands and the
attach program (30_encoding R118, 70_reset_and_hazards R267). -/

namespace Sys2Proof.Machine

/-- The host writes a command to the port, behind those already there (60_exceptions R250). -/
def issueCommand (c : Command) (s : State) : State := { s with commands := s.commands ++ [c] }

/-- The bytes the host must not write except through the block (70_reset_and_hazards R266): ring memory, RX buffers,
and pages bound to TX slots (log 7). -/
def blockOwns (s : State) (x : Addr) : Bool :=
  (s.block.txReady && inRange x s.block.txBase (Config.descBytes * Config.nTx)) ||
  (s.block.rxReady && inRange x s.block.rxBase (Config.descBytes * Config.mRx)) ||
  (s.block.rxReady && s.params.rxBuf.toList.any fun b => inRange x b s.params.pageSize) ||
  (s.block.txBound.toList.any fun p => match p with
    | some q => inRange x q s.params.pageSize
    | none => false)

/-- A host store keeps the duty of R266. -/
def hostMayStore (s : State) (a : Addr) (bytes : List Byte) : Bool :=
  (List.range bytes.length).all fun k => !blockOwns s (a + BitVec.ofNat 64 k)

/-- A store of the host (00_scope R6, 20_memory R87). A store that breaks R266 happens too, and marks the run as
outside the spec (U26, log 7). -/
def hostStore (a : Addr) (bytes : List Byte) (s : State) : State :=
  { s with
    mem := Memory.writeBytes s.mem a bytes
    outside := s.outside || !hostMayStore s a bytes }

/-- Block reset (70_reset_and_hazards R260, R264): the block's state alone; no Unpin is emitted, and the NIC, host
memory and the ports stay as they are (R261, log 16). The unspecified bases are fresh free values (log 3). -/
def blockReset (s : State) : State :=
  let txBase := (draw64 s).1
  let s1 := (draw64 s).2
  let rxBase := (draw64 s1).1
  let s2 := (draw64 s1).2
  { s2 with block := Block.reset txBase rxBase }

/-- How often a page was pinned (10_state R51). -/
def pinsOf (p : PageId) (es : List Event) : Nat := es.count (.pin p)

/-- How often a page was unpinned. -/
def unpinsOf (p : PageId) (es : List Event) : Nat := es.count (.unpin p)

/-- The pin count the host keeps for a page: up by one on Pin, down by one on Unpin (10_state R51, 41_tx_ring R154). -/
def pinCount (p : PageId) (es : List Event) : Int := (pinsOf p es : Int) - (unpinsOf p es : Int)

/-- How many TX slots are bound to a page. -/
def boundCount (p : PageId) (s : State) : Nat := s.block.txBound.toList.count (some p)

/-- Pseudo-command INT_UNMASK (30_encoding R118). -/
def intUnmask (m : Word32) : Instr := .regWrite (regOffset .ims) m

/-- Pseudo-command INT_MASK (30_encoding R118). -/
def intMask (m : Word32) : Instr := .regWrite (regOffset .imc) m

/-- Pseudo-command TX_SEND (30_encoding R118). -/
def txSend (addr : Addr) (len : Word16) : Instr := .txEnqueue addr len true

/-- Pseudo-command TX_FRAG (30_encoding R118). -/
def txFrag (addr : Addr) (len : Word16) : Instr := .txEnqueue addr len false

/-- The optional write of a register at attach. -/
def optionalWrite (r : Reg) (v : Option Word32) : List Instr :=
  match v with
  | some w => [.regWrite (regOffset r) w]
  | none => []

/-- The commands of the attach program, in order (70_reset_and_hazards R267). `MAC_ADDR`, `MTA_INIT`, `TIDV_INIT` and
`RCTL_INIT` are OPEN (00_scope R7, U23) and come from the host, the first three only if any; bit 31 of RAH0 is
Address-Valid. R267 lists no write of TIDV and R7 lets the program omit it: without one this is R267's list, and its place
after MTA is the model's choice. DESIGN CHOICE, safe: log 20. -/
def attachProgram (mac : Option (BitVec 48)) (mtaInit tidvInit : Option Word32) (txRing rxRing : Addr)
    (rctlInit : Word32) : List Instr :=
  optionalWrite .ral0 (mac.map fun m => m.extractLsb' 0 32) ++
  optionalWrite .rah0 (mac.map fun m => (m.extractLsb' 32 16).setWidth 32 ||| 0x80000000#32) ++
  optionalWrite .mta mtaInit ++
  optionalWrite .tidv tidvInit ++
  [.txInit txRing, .rxInit rxRing, .regWrite (regOffset .rctl) rctlInit, intUnmask Config.imsInit]

end Sys2Proof.Machine
end

