-- ==== Sys2Proof/Machine/Port.lean ====
section
/-! DEFINITION. Whose turn it is (20_memory R81, log 1), taking a command from the port (10_state R22), the steps of
the agents other than the block, and placing a command where the next step takes it. -/

namespace Sys2Proof.Machine

/-- The turn to take, and the state with it taken off the schedule; with none scheduled the block's turn. -/
def nextTurn (s : State) : Turn × State :=
  match s.schedule with
  | [] => (.execute, s)
  | t :: rest => (t, { s with schedule := rest })

/-- The oldest command on the port, and the state with it taken off. -/
def takeCommand (s : State) : Option (Command × State) :=
  match s.commands with
  | [] => none
  | c :: rest => some (c, { s with commands := rest })

/-- The step of an agent other than the block. -/
def agentStep (a : AgentStep) (s : State) : State :=
  match a with
  | .issue c => issueCommand c s
  | .hostStore addr bytes => hostStore addr bytes s
  | .blockReset => blockReset s
  | .devTx sent errors cause => devTx sent errors cause s
  | .devRx data checksum errors special status causes => devRx data checksum errors special status causes s
  | .devCause causes => devCause causes s
  | .devOverwrite slot data => devOverwrite slot data s

/-- A command at the head of the port, and the block's turn at the head of the schedule. -/
def placeCommand (c : Command) (s : State) : State :=
  { s with commands := c :: s.commands, schedule := .execute :: s.schedule }

end Sys2Proof.Machine
end

