-- ==== Sys2Proof/Machine/Step.lean ====
section
/-! DEFINITION. One atomic step of the machine (20_memory R81): a command of the block, or a step of another agent. -/

namespace Sys2Proof.Machine

/-- Execute the oldest command on the port (20_memory R84); with none on it the block waits. -/
def executeStep (s : State) : Host.Outcome State Fault Refusal :=
  match takeCommand s with
  | none => .next s
  | some (c, t) =>
    match decode c with
    | .ok i => exec i t
    | .error _ => rejectCommand c t

/-- One step: the turn the schedule names. -/
def step (s : State) : Host.Outcome State Fault Refusal :=
  match nextTurn s with
  | (.execute, t) => executeStep t
  | (.agent a, t) => .next (agentStep a t)

/-- The state in which the very next step runs the instruction whose bits are `w`: its two words stand at the head of
the command port and the block has the turn (log 12). -/
def State.withFetchWord (s : State) (nbits w : Nat) : State := placeCommand (commandOfTableWord nbits w) s

end Sys2Proof.Machine
end

