-- ==== Sys2Proof/Safety.lean ====
section
/-! DEFINITION. What claims about OSE-RRI are stated in: a live block (60_exceptions R237), frames, a fault taken
(R236), the contents of descriptors (10_state R40, R45), the layout premise of 70_reset_and_hazards R266, and the
invariants the spec names (10_state R23, R24, R25, R48, R37). -/

namespace Sys2Proof.Machine

/-- The block is not faulted, so a command runs (60_exceptions R235, R237). -/
def State.live (s : State) : Prop := s.block.faultCode = 0

/-- The block has the turn and command `c` is the oldest on its port, with `rest` behind it. -/
def State.takes (s : State) (c : Command) (rest : List Command) : Prop :=
  (s.schedule = [] ∨ ∃ ts, s.schedule = .execute :: ts) ∧ s.commands = c :: rest

/-- The state in which a command just taken executes: the command and the turn are gone from port and schedule. -/
def State.taken (s : State) (rest : List Command) : State :=
  { s with commands := rest, schedule := s.schedule.tail }

/-- Another agent has the turn. -/
def State.turnOf (s : State) (a : AgentStep) (ts : List Turn) : Prop := s.schedule = .agent a :: ts

/-! ### Frames -/

/-- What no command touches: the platform's parameters, the commands still waiting, and the schedule; and, with it,
which RX buffers are open, which a delivering RX_POLL alone changes (log 19). -/
def State.sameSurroundings (s t : State) : Prop :=
  t.params = s.params ∧ t.commands = s.commands ∧ t.schedule = s.schedule ∧ t.rxOpen = s.rxOpen

/-- Every byte of memory reads as before. -/
def State.sameMemory (s t : State) : Prop := ∀ a : Addr, Memory.byte t.mem a = Memory.byte s.mem a

/-- Every byte of memory outside the `len` bytes from `base` on reads as before. -/
def State.sameMemoryOutside (s t : State) (base : Addr) (len : Nat) : Prop :=
  ∀ a : Addr, inRange a base len = false → Memory.byte t.mem a = Memory.byte s.mem a

/-- A fault was taken (60_exceptions R236): the code and the command's words are recorded, the response is FAULT, the
only accesses made are `reads`, and nothing else changed. Code 4, UNMODELLED, also marks the run (R239). -/
def State.faultedWith (s t : State) (code : Byte) (c : Command) (reads : List Access) : Prop :=
  t.block = { s.block with faultCode := code, faultW0 := c.w0, faultW1 := c.w1 } ∧
  t.responses = s.responses ++ [{ code := .fault, fcode := code }] ∧
  t.dev = s.dev ∧ t.mem = s.mem ∧ t.events = s.events ∧ t.bus = s.bus ++ reads ∧ t.draws = s.draws ∧
  t.outside = (s.outside || code == 0x04) ∧ s.sameSurroundings t

/-- The command turned away with a response and none of its effect (41_tx_ring R153, 42_rx_ring R173). -/
def State.turnedAway (s t : State) (r : Response) (reads : List Access) : Prop :=
  t.responses = s.responses ++ [r] ∧
  t.block = s.block ∧ t.dev = s.dev ∧ t.mem = s.mem ∧ t.events = s.events ∧ t.bus = s.bus ++ reads ∧
  t.draws = s.draws ∧ t.outside = s.outside ∧ s.sameSurroundings t

/-! ### Descriptors in memory -/

/-- The 16 bytes at `d` are this TX descriptor (10_state R40). -/
def txDescriptorAt (m : Memory) (d : Addr) (x : TxDescriptor) : Prop :=
  Memory.readLE m d 8 = x.addr ∧ Memory.readLE m (d + 8) 2 = x.length.setWidth 64 ∧
  Memory.byte m (d + 10) = x.cso ∧ Memory.byte m (d + 11) = x.cmd ∧ Memory.byte m (d + 12) = x.status ∧
  Memory.byte m (d + 13) = x.css ∧ Memory.readLE m (d + 14) 2 = x.special.setWidth 64

/-- The 16 bytes at `d` are this RX descriptor (10_state R45). -/
def rxDescriptorAt (m : Memory) (d : Addr) (x : RxDescriptor) : Prop :=
  Memory.readLE m d 8 = x.addr ∧ Memory.readLE m (d + 8) 2 = x.length.setWidth 64 ∧
  Memory.readLE m (d + 10) 2 = x.checksum.setWidth 64 ∧ Memory.byte m (d + 12) = x.status ∧
  Memory.byte m (d + 13) = x.errors ∧ Memory.readLE m (d + 14) 2 = x.special.setWidth 64

/-- The TX descriptor at `tx_tail`. -/
def State.txSlot (s : State) : Addr := slotAddr s.block.txBase s.block.txTail

/-- The RX descriptor at `rx_cursor`. -/
def State.rxSlot (s : State) : Addr := slotAddr s.block.rxBase s.block.rxCursor

/-- Descriptor-Done of the descriptor at `d`: bit 0 of byte 12 (10_state R42, R46). -/
def ddAt (m : Memory) (d : Addr) : Bool := (Memory.byte m (d + 12)).getLsbD 0

/-! ### Invariants -/

/-- The last value the block wrote to a register. -/
def lastWrite (r : Reg) (bus : List Access) : Option Word32 :=
  bus.foldl (fun acc x => match x with
    | .mmioWrite q v => if q = r then some v else acc
    | _ => acc) none

/-- Memory is in its canonical form. -/
def State.memCanonical (s : State) : Prop := Memory.wf s.mem

/-- 10_state R23 and R24: the last TDT the block wrote is `tx_tail`, the last RDT it wrote trails `rx_cursor` by one,
and the tail registers hold them. -/
def State.tailsMirrored (s : State) : Prop :=
  (s.block.txReady = true →
    lastWrite .tdt s.bus = some (BitVec.ofNat 32 s.block.txTail.val) ∧
    s.dev.tdt = some (BitVec.ofNat 32 s.block.txTail.val)) ∧
  (s.block.rxReady = true →
    lastWrite .rdt s.bus = some (BitVec.ofNat 32 ((s.block.rxCursor.val + Config.mRx - 1) % Config.mRx)) ∧
    s.dev.rdt = some (BitVec.ofNat 32 ((s.block.rxCursor.val + Config.mRx - 1) % Config.mRx)))

/-- 10_state R37: the NIC's ring registers hold the block's rings while these are ready, the bases are aligned and in
range, and each head is an index of the ring its length register gives. -/
def State.ringRegisters (s : State) : Prop :=
  (s.block.txReady = true →
    s.dev.store.tdbal = some (s.block.txBase.extractLsb' 0 32) ∧
    s.dev.store.tdbah = some (s.block.txBase.extractLsb' 32 32) ∧
    s.dev.store.tdlen = some 256 ∧ s.block.txBase.toNat % 16 = 0 ∧ s.block.txBase.toNat ≤ 2 ^ 64 - 256) ∧
  (s.block.rxReady = true →
    s.dev.store.rdbal = some (s.block.rxBase.extractLsb' 0 32) ∧
    s.dev.store.rdbah = some (s.block.rxBase.extractLsb' 32 32) ∧
    s.dev.store.rdlen = some 2048 ∧ s.block.rxBase.toNat % 16 = 0 ∧ s.block.rxBase.toNat ≤ 2 ^ 64 - 2048) ∧
  (∀ h, s.dev.tdh = some h → ∃ len, s.dev.store.tdlen = some len ∧ h.toNat < len.toNat / 16) ∧
  (∀ h, s.dev.rdh = some h → ∃ len, s.dev.store.rdlen = some len ∧ h.toNat < len.toNat / 16)

/-- 10_state R25, R51: no page is released more often than it was bound, and every binding still held is pinned. -/
def State.pinsCovered (s : State) : Prop :=
  ∀ p, unpinsOf p s.events + boundCount p s ≤ pinsOf p s.events

/-- 10_state R25, until a block reset: the pin count of a page is exactly the number of TX slots bound to it. -/
def State.pinsBalanced (s : State) : Prop :=
  (∀ p, unpinsOf p s.events + boundCount p s = pinsOf p s.events) ∧
  (s.block.txReady = false → s.block.txBound = Vector.replicate Config.nTx none)

/-- 10_state R45, R48: while the RX ring is ready, descriptor i carries `rxBufAddr(i)`. -/
def State.rxBound (s : State) : Prop :=
  s.block.rxReady = true →
    ∀ i : Fin Config.mRx, Memory.readLE s.mem (slotAddr s.block.rxBase i) 8 = s.params.rxBufAddr i

/-- An address lies in the ring that base and length registers describe (44_device_agent R202). -/
def inDeviceRing (x : Addr) (low high length : Option Word32) : Bool :=
  match low, high, length with
  | some lo, some hi, some len => inRange x (ringBaseOf lo hi) len.toNat
  | _, _, _ => false

/-- An address lies in an RX buffer. -/
def inRxBuffer (x : Addr) (p : Params) : Bool :=
  p.rxBuf.toList.any fun b => inRange x b p.pageSize

/-- The premise of 70_reset_and_hazards R266, item 3, on the rings the NIC was given and the RX pages: pairwise
disjoint. -/
def State.layoutOk (s : State) : Prop :=
  ∀ x : Addr,
    let inTx := inDeviceRing x s.dev.store.tdbal s.dev.store.tdbah s.dev.store.tdlen
    let inRx := inDeviceRing x s.dev.store.rdbal s.dev.store.rdbah s.dev.store.rdlen
    let inBuf := inRxBuffer x s.params
    (inTx && inRx) = false ∧ (inTx && inBuf) = false ∧ (inRx && inBuf) = false

end Sys2Proof.Machine
end

