-- ==== Sys2Proof/Certificates/Slice0/Obligations.lean ====
section
/-! DEFINITION. The statements for the provers: what the numbered rules of spec/ say the machine does. -/

open Sys2Proof Sys2Proof.Machine

/-! ### Reset and the step -/

/-- 10_state R20, R50 and 70_reset_and_hazards R260 to R262: what power-on leaves, where the spec gives a value. -/
def Obligations.ResetLeavesSpecifiedValues : Prop :=
  State.reset.block.txReady = false ∧ State.reset.block.rxReady = false ∧
  State.reset.block.txTail.val = 0 ∧ State.reset.block.rxCursor.val = 0 ∧
  (∀ i : Fin Config.nTx, State.reset.block.txBound[i] = none) ∧
  State.reset.block.faultCode = 0 ∧ State.reset.block.faultW0 = 0 ∧ State.reset.block.faultW1 = 0 ∧
  (∀ k : StoreReg, State.reset.dev.store.get k = none) ∧
  State.reset.dev.tdh = none ∧ State.reset.dev.tdt = none ∧
  State.reset.dev.rdh = none ∧ State.reset.dev.rdt = none ∧
  State.reset.dev.txframe = [] ∧ State.reset.dev.wire = [] ∧
  (∀ a : Nat, Memory.lookup State.reset.mem a = none)

/-- 00_scope R7: at reset the open parameters meet the constraints the rule states, and nothing more is known of
them (log 5). -/
def Obligations.ResetParametersAdmissible : Prop := State.reset.params.wf

/-- 70_reset_and_hazards R260, R261: block reset sets the block's elements, emits no Unpin and leaves the NIC as it was.
That the commands waiting on the port, the port histories, host memory, the open RX buffers and the schedule stay as
well is the model's choice, not those rules' words (log 16, log 19). -/
def Obligations.BlockResetStep : Prop :=
  ∀ (s : State) (ts : List Turn), s.turnOf .blockReset ts →
    ∃ t, step s = .next t ∧
      t.block.txReady = false ∧ t.block.rxReady = false ∧ t.block.txTail.val = 0 ∧ t.block.rxCursor.val = 0 ∧
      (∀ i : Fin Config.nTx, t.block.txBound[i] = none) ∧
      t.block.faultCode = 0 ∧ t.block.faultW0 = 0 ∧ t.block.faultW1 = 0 ∧
      t.dev = s.dev ∧ s.sameMemory t ∧ t.events = s.events ∧ t.responses = s.responses ∧ t.bus = s.bus ∧
      t.params = s.params ∧ t.commands = s.commands ∧ t.schedule = ts ∧ t.outside = s.outside ∧ t.rxOpen = s.rxOpen

/-- 10_state R22, 20_memory R84, 30_encoding R111: when the block has the turn, the oldest command on the port is
decoded and executed, and the step is exactly `exec` of it. The turn is the model's own (log 1). -/
def Obligations.StepRunsDecodedCommand : Prop :=
  ∀ (s : State) (c : Command) (rest : List Command) (i : Instr),
    s.takes c rest → decode c = .ok i → i.wf ∧ step s = exec i (s.taken rest)

/-- 10_state R22: with no command on the port and the block's turn, the machine waits; only the turn is used up.
The turn is the model's own (log 1). -/
def Obligations.EmptyPortWaits : Prop :=
  ∀ s : State, (s.schedule = [] ∨ ∃ ts, s.schedule = .execute :: ts) → s.commands = [] →
    step s = .next { s with schedule := s.schedule.tail }

/-- 30_encoding R100, 60_exceptions R250: a command the host issues goes behind those already on the port, and changes
nothing else. The port as a queue in State is the model's choice (log 12). -/
def Obligations.IssuedCommandsQueue : Prop :=
  ∀ (s : State) (c : Command) (ts : List Turn), s.turnOf (.issue c) ts →
    step s = .next { s with commands := s.commands ++ [c], schedule := ts }

/-! ### Encoding -/

/-- Words written out from 30_encoding R101, R103 and R110 decode to the commands they stand for. -/
def Obligations.SampleWordsDecode : Prop :=
  decode ⟨0x01000000000000C0, 0⟩ = .ok (.regRead 0x000C0) ∧
  decode ⟨0x0200000000000100, 0x0000000000000002⟩ = .ok (.regWrite 0x00100 2) ∧
  decode ⟨0x0300000000000400, 0x0000000000000002⟩ = .ok (.regSetBits 0x00400 2) ∧
  decode ⟨0x0400000000000410, 0x00000000FFFFFFFF⟩ = .ok (.regClearBits 0x00410 0xFFFFFFFF) ∧
  decode ⟨0x1000000000000000, 0x0000000000200000⟩ = .ok (.txInit 0x200000) ∧
  decode ⟨0x1101003C00000000, 0x0000000000123000⟩ = .ok (.txEnqueue 0x123000 60 true) ∧
  decode ⟨0x1100006400000000, 0x0000000000124000⟩ = .ok (.txEnqueue 0x124000 100 false) ∧
  decode ⟨0x2000000000000000, 0x0000000000300000⟩ = .ok (.rxInit 0x300000) ∧
  decode ⟨0x2100000000000000, 0⟩ = .ok .rxPoll ∧
  decode ⟨0x3000000000000000, 0⟩ = .ok .intAck ∧
  decode ⟨0x0100000100000400, 0⟩ = .error .reservedBitSet ∧
  decode ⟨0x0500000000000000, 0⟩ = .error .unassignedOpcode

/-- The bits of W0 and W1 that R103 reserves, by opcode; none for an opcode R110 does not assign. -/
def reservedMasks (op : Byte) : Option (Word64 × Word64) :=
  if op = 0x01 then some (0x00FFFFFFFFF00000, 0xFFFFFFFFFFFFFFFF)
  else if op = 0x02 ∨ op = 0x03 ∨ op = 0x04 then some (0x00FFFFFFFFF00000, 0xFFFFFFFF00000000)
  else if op = 0x11 then some (0x00FE0000FFFFFFFF, 0)
  else if op = 0x10 ∨ op = 0x20 then some (0x00FFFFFFFFFFFFFF, 0)
  else if op = 0x21 ∨ op = 0x30 then some (0x00FFFFFFFFFFFFFF, 0xFFFFFFFFFFFFFFFF)
  else none

/-- 30_encoding R112: a command with any reserved bit set raises ILLEGAL_COMMAND and has no other effect; no reserved
bit is ignored. -/
def Obligations.ReservedBitsFault : Prop :=
  ∀ (s : State) (c : Command) (rest : List Command) (m0 m1 : Word64),
    s.takes c rest → s.live → reservedMasks (c.w0.extractLsb' 56 8) = some (m0, m1) →
    c.w0 &&& m0 ≠ 0 ∨ c.w1 &&& m1 ≠ 0 →
    ∃ t, step s = .next t ∧ (s.taken rest).faultedWith t 0x01 c []

/-- 30_encoding R113: every OP value not in R110 is illegal and raises ILLEGAL_COMMAND; none executes as a no-op. -/
def Obligations.UnassignedOpcodesFault : Prop :=
  ∀ (s : State) (c : Command) (rest : List Command),
    s.takes c rest → s.live →
    c.w0.extractLsb' 56 8 ∉ [0x01#8, 0x02, 0x03, 0x04, 0x10, 0x11, 0x20, 0x21, 0x30] →
    ∃ t, step s = .next t ∧ (s.taken rest).faultedWith t 0x01 c []

/-- 30_encoding R101, R103 to R109, R115: decoding the words of a well-formed command gives the command back, every
operand at every value its field holds. -/
def Obligations.DecodeOfEncode : Prop := ∀ i : Instr, i.wf → decode (encode i) = .ok i

/-- 30_encoding R101 to R112: a pair of words that decodes is the encoding of what it decodes to, so each command has
one encoding and no bit is ignored; and the command is well-formed. -/
def Obligations.EncodeOfDecode : Prop := ∀ (c : Command) (i : Instr), decode c = .ok i → encode i = c ∧ i.wf

/-- 30_encoding R116, 60_exceptions R231: the response words carry each field at its bits, and the reserved bits are 0. -/
def Obligations.ResponseWordsCarryFields : Prop :=
  ∀ r : Response,
    r.p0.extractLsb' 0 8 = (match r.code with | .ok => 0x00 | .busy => 0x01 | .noData => 0x02 | .fault => 0xFF) ∧
    r.p0.extractLsb' 8 8 = r.fcode ∧ r.p0.getLsbD 16 = r.txh ∧ r.p0.getLsbD 17 = r.rxh ∧
    r.p0.extractLsb' 18 14 = 0 ∧ r.p0.extractLsb' 32 32 = r.data ∧
    r.p1.extractLsb' 0 16 = r.plen ∧ r.p1.extractLsb' 16 8 = r.rstat ∧ r.p1.extractLsb' 24 8 = r.rerr ∧
    r.p1.extractLsb' 32 16 = r.slot ∧ r.p1.extractLsb' 48 16 = 0

/-! ### Memory -/

/-- 20_memory R72: a write stores byte k of the value at address a+k and nothing elsewhere, and a read of the same width
gives the low 8n bits back. That addresses past the top wrap is the model's reading (log 14). -/
def Obligations.MemoryIsLittleEndian : Prop :=
  ∀ (m : Memory) (a : Addr) (n : Nat) (v : Word64), n ≤ 8 →
    (∀ k, k < n → Memory.byte (Memory.writeLE m a n v) (a + BitVec.ofNat 64 k) = v.extractLsb' (8 * k) 8) ∧
    (∀ x : Addr, inRange x a n = false → Memory.byte (Memory.writeLE m a n v) x = Memory.byte m x) ∧
    (Memory.readLE (Memory.writeLE m a n v) a n).toNat = v.toNat % 2 ^ (8 * n)

/-! ### Register access -/

/-- The read column of 10_state R31, by register name: what a read returns; none where it is `draw()`. -/
def regGives (d : Nic) (r : Reg) : Option Word32 :=
  match r with
  | .ctrl => none
  | .status => none
  | .icr => some d.icr
  | .ims => some d.ims
  | .imc => none
  | .rctl => d.store.rctl
  | .tctl => d.store.tctl
  | .tipg => d.store.tipg
  | .rsrpd => d.store.rsrpd
  | .tidv => d.store.tidv
  | .mta => d.store.mta
  | .ral0 => d.store.ral0
  | .rah0 => d.store.rah0
  | .rdbal => d.store.rdbal
  | .rdbah => d.store.rdbah
  | .rdlen => d.store.rdlen
  | .tdbal => d.store.tdbal
  | .tdbah => d.store.tdbah
  | .tdlen => d.store.tdlen
  | .tdh => d.tdh
  | .rdh => d.rdh
  | .tdt => d.tdt
  | .rdt => d.rdt

/-- The write column of 10_state R31 for the registers REG_WRITE may write; none for the others. -/
def regTakes (d : Nic) (r : Reg) (v : Word32) : Option Nic :=
  match r with
  | .ims => some { d with ims := d.ims ||| v }
  | .imc => some { d with ims := d.ims &&& ~~~v }
  | .rctl => some { d with store := { d.store with rctl := some v } }
  | .tctl => some { d with store := { d.store with tctl := some v } }
  | .tipg => some { d with store := { d.store with tipg := some v } }
  | .rsrpd => some { d with store := { d.store with rsrpd := some v } }
  | .tidv => some { d with store := { d.store with tidv := some v } }
  | .mta => some { d with store := { d.store with mta := some v } }
  | .ral0 => some { d with store := { d.store with ral0 := some v } }
  | .rah0 => some { d with store := { d.store with rah0 := some v } }
  | _ => none

/-- The storage class of 10_state R31. -/
def storageRegs : List Reg := [.rctl, .tctl, .tipg, .rsrpd, .tidv, .mta, .ral0, .rah0]

/-- What a REG_* command leaves as it was: the block, memory, the events, the mark and the surroundings; it delivers one
response and makes the accesses `acc`. -/
def regFrame (s t : State) (r : Response) (acc : List Access) : Prop :=
  t.responses = s.responses ++ [r] ∧ t.bus = s.bus ++ acc ∧
  t.block = s.block ∧ s.sameMemory t ∧ t.events = s.events ∧ t.outside = s.outside ∧ s.sameSurroundings t

/-- 40_register_access R133, 10_state R31: REG_READ completes on every register of the map, with the value held or a
free value; only a read of ICR changes the NIC, and clears it. -/
def Obligations.RegReadAnswers : Prop :=
  ∀ (s : State) (r : Reg), s.live →
    ∃ v t, exec (.regRead (regOffset r)) s = .next t ∧
      (∀ w, regGives s.dev r = some w → v = w) ∧
      t.dev = (if r = .icr then { s.dev with icr := 0 } else s.dev) ∧
      regFrame s t { code := .ok, data := v } [.mmioRead r v]

/-- 40_register_access R134, 10_state R31: REG_WRITE completes on every register it may write, with that register's
effect. -/
def Obligations.RegWriteAnswers : Prop :=
  ∀ (s : State) (r : Reg) (v : Word32) (d : Nic), s.live → regTakes s.dev r v = some d →
    ∃ t, exec (.regWrite (regOffset r) v) s = .next t ∧ t.dev = d ∧ t.draws = s.draws ∧
      regFrame s t { code := .ok } [.mmioWrite r v]

/-- 40_register_access R135: REG_SET_BITS completes on every storage register: it reads v, writes v | m and answers v. -/
def Obligations.RegSetBitsAnswers : Prop :=
  ∀ (s : State) (r : Reg) (m : Word32), s.live → r ∈ storageRegs →
    ∃ v t, exec (.regSetBits (regOffset r) m) s = .next t ∧
      (∀ w, regGives s.dev r = some w → v = w) ∧
      regTakes s.dev r (v ||| m) = some t.dev ∧
      regFrame s t { code := .ok, data := v } [.mmioRead r v, .mmioWrite r (v ||| m)]

/-- 40_register_access R136: REG_CLEAR_BITS completes on every storage register: it reads v, writes v & ~m and answers
v. -/
def Obligations.RegClearBitsAnswers : Prop :=
  ∀ (s : State) (r : Reg) (m : Word32), s.live → r ∈ storageRegs →
    ∃ v t, exec (.regClearBits (regOffset r) m) s = .next t ∧
      (∀ w, regGives s.dev r = some w → v = w) ∧
      regTakes s.dev r (v &&& ~~~m) = some t.dev ∧
      regFrame s t { code := .ok, data := v } [.mmioRead r v, .mmioWrite r (v &&& ~~~m)]

/-- `Map` of 40_register_access R130. -/
def mapOffsets : List Word32 :=
  [0x00000, 0x00008, 0x000C0, 0x000D0, 0x000D8, 0x00100, 0x00400, 0x00410, 0x02800, 0x02804, 0x02808, 0x02810,
   0x02818, 0x02C00, 0x03800, 0x03804, 0x03808, 0x03810, 0x03818, 0x03820, 0x05200, 0x05400, 0x05404]

/-- 40_register_access R131: a REG_* command whose offset is not in `Map` raises BAD_OFFSET and makes no MMIO access. -/
def Obligations.OffsetsOutsideMapFault : Prop :=
  ∀ (s : State) (ofs v : Word32) (i : Instr), s.live → ofs ∉ mapOffsets →
    i ∈ [.regRead ofs, .regWrite ofs v, .regSetBits ofs v, .regClearBits ofs v] →
    ∃ t, exec i s = .next t ∧ s.faultedWith t 0x02 (encode i) []

/-- The ring-owned registers and the two others REG_WRITE is denied on (40_register_access R132). -/
def writeDeniedRegs : List Reg :=
  [.status, .icr, .rdbal, .rdbah, .rdlen, .rdh, .rdt, .tdbal, .tdbah, .tdlen, .tdh, .tdt]

/-- 40_register_access R132, 60_exceptions R236, R239: which register each kind of access is allowed on, denied on, or
unmodelled on. That UNMODELLED, on CTRL, also sets the mark of the run is the model's reading of R239 (log 6). -/
def Obligations.AccessRightsByRegister : Prop :=
  ∀ (s : State) (r : Reg) (v : Word32), s.live →
    (∃ t x, exec (.regRead (regOffset r)) s = .next t ∧ t.responses = s.responses ++ [{ code := .ok, data := x }]) ∧
    (∃ t, exec (.regWrite (regOffset r) v) s = .next t ∧
      if r = .ctrl then s.faultedWith t 0x04 (encode (.regWrite (regOffset r) v)) []
      else if r ∈ writeDeniedRegs then s.faultedWith t 0x03 (encode (.regWrite (regOffset r) v)) []
      else t.responses = s.responses ++ [{ code := .ok }]) ∧
    (∀ i ∈ [Instr.regSetBits (regOffset r) v, .regClearBits (regOffset r) v], ∃ t, exec i s = .next t ∧
      if r = .ctrl then s.faultedWith t 0x04 (encode i) []
      else if r ∈ writeDeniedRegs ∨ r = .ims ∨ r = .imc then s.faultedWith t 0x03 (encode i) []
      else ∃ x, t.responses = s.responses ++ [{ code := .ok, data := x }])

/-- 40_register_access R138: a REG_* command neither reads nor writes the ready flags, the cursors or the descriptor
rings. Two states that differ only in the block's ring state and in memory give the same response and the same NIC,
and each keeps its own ring state and memory. -/
def Obligations.RegCommandsIgnoreRings : Prop :=
  ∀ (s : State) (b : Block) (m : Memory) (ofs v : Word32) (i : Instr) (t : State),
    i ∈ [.regRead ofs, .regWrite ofs v, .regSetBits ofs v, .regClearBits ofs v] →
    b.faultCode = s.block.faultCode → exec i s = .next t →
    ∃ u, exec i { s with block := b, mem := m } = .next u ∧
      u.responses = t.responses ∧ u.dev = t.dev ∧ u.bus = t.bus ∧ u.draws = t.draws ∧ u.events = t.events ∧
      u.mem = m ∧
      u.block = { b with faultCode := u.block.faultCode, faultW0 := u.block.faultW0, faultW1 := u.block.faultW1 } ∧
      u.block.faultCode = t.block.faultCode

/-- The register holds the value; used of the storage registers. -/
def holds (s : State) (r : Reg) (v : Word32) : Prop := regGives s.dev r = some v

/-- 40_register_access R137: the laws of setting and clearing bits of a storage register. -/
def Obligations.MaskLaws : Prop :=
  ∀ (s : State) (r : Reg) (v m n : Word32), s.live → r ∈ storageRegs → holds s r v →
    ∃ a b, exec (.regSetBits (regOffset r) m) s = .next a ∧ exec (.regClearBits (regOffset r) m) s = .next b ∧
      (∃ t, exec (.regClearBits (regOffset r) m) a = .next t ∧ holds t r (v &&& ~~~m)) ∧
      (∃ t, exec (.regSetBits (regOffset r) m) b = .next t ∧ holds t r (v ||| m)) ∧
      (∃ t, exec (.regSetBits (regOffset r) n) a = .next t ∧ holds t r (v ||| (m ||| n))) ∧
      (∃ t, exec (.regClearBits (regOffset r) n) b = .next t ∧ holds t r (v &&& ~~~(m ||| n)))

/-- 20_memory R80: repeating a REG_WRITE of IMS, IMC or a storage register changes nothing more in the NIC. -/
def Obligations.RepeatedWritesAreIdempotent : Prop :=
  ∀ (s : State) (r : Reg) (v : Word32) (d : Nic), s.live → regTakes s.dev r v = some d →
    ∃ t u, exec (.regWrite (regOffset r) v) s = .next t ∧ exec (.regWrite (regOffset r) v) t = .next u ∧
      t.dev = d ∧ u.dev = t.dev

/-! ### TX ring -/

/-- 41_tx_ring R150, R151: TX_INIT completes on a ring not yet initialized and an aligned base in range: every
descriptor has DD = 1 and all else 0, the seven registers and the block's TX state are written, nothing else. -/
def Obligations.TxInitCompletes : Prop :=
  ∀ (s : State) (base : Addr), s.live → s.block.txReady = false →
    base.toNat % 16 = 0 → base.toNat ≤ 2 ^ 64 - 256 →
    ∃ t, exec (.txInit base) s = .next t ∧
      (∀ i, i < 16 → txDescriptorAt t.mem (slotAddr base i)
        { addr := 0, length := 0, cso := 0, cmd := 0, status := 0x01, css := 0, special := 0 }) ∧
      s.sameMemoryOutside t base 256 ∧
      t.dev = { s.dev with
        store := { s.dev.store with
          tdbal := some (base.extractLsb' 0 32), tdbah := some (base.extractLsb' 32 32), tdlen := some 0x100
          tctl := some 0x0004010A, tipg := some 0x0140200A }
        tdh := some 0, tdt := some 0 } ∧
      t.block.txReady = true ∧ t.block.txBase = base ∧ t.block.txTail.val = 0 ∧
      (∀ i : Fin Config.nTx, t.block.txBound[i] = none) ∧
      t.block.rxReady = s.block.rxReady ∧ t.block.rxBase = s.block.rxBase ∧ t.block.rxCursor = s.block.rxCursor ∧
      t.block.faultCode = 0 ∧ t.block.faultW0 = s.block.faultW0 ∧ t.block.faultW1 = s.block.faultW1 ∧
      t.responses = s.responses ++ [{ code := .ok }] ∧ t.events = s.events ∧ t.draws = s.draws ∧
      t.outside = s.outside ∧ s.sameSurroundings t

/-- 41_tx_ring R150, 20_memory R82, R83: TX_INIT makes all 112 descriptor writes before the first register write, and
writes the seven registers in the rule's order. The record of the accesses is the model's own (log 11). -/
def Obligations.TxInitOrder : Prop :=
  ∀ (s : State) (base : Addr), s.live → s.block.txReady = false →
    base.toNat % 16 = 0 → base.toNat ≤ 2 ^ 64 - 256 →
    ∃ t ws, exec (.txInit base) s = .next t ∧ ws.length = 112 ∧
      (∀ x ∈ ws, ∃ a n v, x = Access.memWrite a n v ∧ inRange a base 256 = true) ∧
      t.bus = s.bus ++ ws ++
        [.mmioWrite .tdbal (base.extractLsb' 0 32), .mmioWrite .tdbah (base.extractLsb' 32 32),
         .mmioWrite .tdlen 0x100, .mmioWrite .tdh 0, .mmioWrite .tdt 0, .mmioWrite .tctl 0x0004010A,
         .mmioWrite .tipg 0x0140200A]

/-- 41_tx_ring R150, 60_exceptions R235: where TX_INIT faults, ALREADY_INITIALIZED before BAD_ARGUMENT. -/
def Obligations.TxInitFaults : Prop :=
  ∀ (s : State) (base : Addr), s.live →
    (s.block.txReady = true →
      ∃ t, exec (.txInit base) s = .next t ∧ s.faultedWith t 0x06 (encode (.txInit base)) []) ∧
    (s.block.txReady = false → (base.toNat % 16 ≠ 0 ∨ base.toNat > 2 ^ 64 - 256) →
      ∃ t, exec (.txInit base) s = .next t ∧ s.faultedWith t 0x07 (encode (.txInit base)) [])

/-- 41_tx_ring R152, R154, R155: TX_ENQUEUE completes when the buffer lies in one page and the tail slot is
software-owned: the descriptor, the Unpin and Pin events, the binding, the tail and the doorbell, and nothing else. -/
def Obligations.TxEnqueuePosts : Prop :=
  ∀ (s : State) (addr : Addr) (len : Word16) (eop : Bool), s.live → s.block.txReady = true →
    addr.toNat % s.params.pageSize + len.toNat ≤ s.params.pageSize → ddAt s.mem s.txSlot = true →
    ∃ (t : State) (next : Fin Config.nTx), exec (.txEnqueue addr len eop) s = .next t ∧
      next.val = (s.block.txTail.val + 1) % 16 ∧
      txDescriptorAt t.mem s.txSlot
        { addr := addr, length := len, cso := 0, cmd := if eop then 0x89 else 0x88, status := 0, css := 0
          special := 0 } ∧
      s.sameMemoryOutside t s.txSlot 16 ∧
      t.events = s.events ++
        (match s.block.txBound[s.block.txTail] with | some q => [.unpin q] | none => []) ++
        [.pin (BitVec.ofNat 64 (addr.toNat - addr.toNat % s.params.pageSize))] ∧
      t.block = { s.block with
        txTail := next
        txBound := s.block.txBound.set s.block.txTail
          (some (BitVec.ofNat 64 (addr.toNat - addr.toNat % s.params.pageSize))) } ∧
      t.dev = { s.dev with tdt := some (BitVec.ofNat 32 next.val) } ∧
      t.responses = s.responses ++ [{ code := .ok }] ∧ t.draws = s.draws ∧ t.outside = s.outside ∧
      s.sameSurroundings t

/-- 41_tx_ring R153: when the descriptor at `tx_tail` has DD = 0, TX_ENQUEUE responds BUSY having done only the 1-byte
status read; no memory, register, block state or event is written. -/
def Obligations.TxEnqueueBusyIsSideEffectFree : Prop :=
  ∀ (s : State) (addr : Addr) (len : Word16) (eop : Bool), s.live → s.block.txReady = true →
    addr.toNat % s.params.pageSize + len.toNat ≤ s.params.pageSize → ddAt s.mem s.txSlot = false →
    ∃ t, exec (.txEnqueue addr len eop) s = .next t ∧
      s.turnedAway t { code := .busy } [.memRead (s.txSlot + 12) 1]

/-- 41_tx_ring R152, 60_exceptions R235: where TX_ENQUEUE faults, NOT_INITIALIZED before BAD_ARGUMENT, both before the
status is read. -/
def Obligations.TxEnqueueFaults : Prop :=
  ∀ (s : State) (addr : Addr) (len : Word16) (eop : Bool), s.live →
    (s.block.txReady = false →
      ∃ t, exec (.txEnqueue addr len eop) s = .next t ∧
        s.faultedWith t 0x05 (encode (.txEnqueue addr len eop)) []) ∧
    (s.block.txReady = true → addr.toNat % s.params.pageSize + len.toNat > s.params.pageSize →
      ∃ t, exec (.txEnqueue addr len eop) s = .next t ∧
        s.faultedWith t 0x07 (encode (.txEnqueue addr len eop)) [])

/-- 20_memory R82, R83, 41_tx_ring R152: TX_ENQUEUE reads the status byte first and rings the doorbell last, after
every write of the descriptor. The record of the accesses is the model's own (log 11). -/
def Obligations.TxDoorbellIsLast : Prop :=
  ∀ (s : State) (addr : Addr) (len : Word16) (eop : Bool), s.live → s.block.txReady = true →
    addr.toNat % s.params.pageSize + len.toNat ≤ s.params.pageSize → ddAt s.mem s.txSlot = true →
    ∃ t, exec (.txEnqueue addr len eop) s = .next t ∧
      t.bus = s.bus ++
        [.memRead (s.txSlot + 12) 1, .memWrite s.txSlot 8 addr, .memWrite (s.txSlot + 8) 2 (len.setWidth 64),
         .memWrite (s.txSlot + 10) 1 0, .memWrite (s.txSlot + 11) 1 (if eop then 0x89 else 0x88),
         .memWrite (s.txSlot + 12) 1 0, .memWrite (s.txSlot + 13) 1 0, .memWrite (s.txSlot + 14) 2 0,
         .mmioWrite .tdt (BitVec.ofNat 32 ((s.block.txTail.val + 1) % 16))]

/-- The buffers, with their lengths and EOP flags, are posted one after another, each with response OK and no step of
another agent between them. -/
def posted (xs : List (Addr × Word16 × Bool)) (s t : State) : Prop :=
  match xs with
  | [] => t = s
  | x :: rest => ∃ u, exec (.txEnqueue x.1 x.2.1 x.2.2) s = .next u ∧
      u.responses = s.responses ++ [{ code := .ok }] ∧ posted rest u t

/-- 41_tx_ring R151, R153, R155 (L1.1 and L1.2 of 95_test_vectors): a ring whose 16 slots are all free takes 16 posts,
the cursor returns to where it was, and every further post is turned away BUSY. -/
def Obligations.RingTakesSixteenPosts : Prop :=
  ∀ (s : State) (xs : List (Addr × Word16 × Bool)), s.live → s.block.txReady = true →
    (∀ i, i < 16 → ddAt s.mem (slotAddr s.block.txBase i) = true) → xs.length = 16 →
    (∀ x ∈ xs, x.1.toNat % s.params.pageSize + x.2.1.toNat ≤ s.params.pageSize) →
    ∃ t, posted xs s t ∧ t.block.txTail = s.block.txTail ∧
      ∀ (addr : Addr) (len : Word16) (eop : Bool),
        addr.toNat % s.params.pageSize + len.toNat ≤ s.params.pageSize →
        ∃ u, exec (.txEnqueue addr len eop) t = .next u ∧
          t.turnedAway u { code := .busy } [.memRead (t.txSlot + 12) 1]

/-! ### RX ring -/

/-- 42_rx_ring R170, R171: RX_INIT completes on a ring not yet initialized and an aligned base in range: descriptor i
carries `rxBufAddr(i)` and all else 0, the five registers and the block's RX state are written, nothing else. -/
def Obligations.RxInitCompletes : Prop :=
  ∀ (s : State) (base : Addr), s.live → s.block.rxReady = false →
    base.toNat % 16 = 0 → base.toNat ≤ 2 ^ 64 - 2048 →
    ∃ t, exec (.rxInit base) s = .next t ∧
      (∀ i : Fin Config.mRx, rxDescriptorAt t.mem (slotAddr base i)
        { addr := s.params.rxBufAddr i, length := 0, checksum := 0, status := 0, errors := 0, special := 0 }) ∧
      s.sameMemoryOutside t base 2048 ∧
      t.dev = { s.dev with
        store := { s.dev.store with
          rdbal := some (base.extractLsb' 0 32), rdbah := some (base.extractLsb' 32 32), rdlen := some 0x800 }
        rdh := some 0, rdt := some 0x7F } ∧
      t.block.rxReady = true ∧ t.block.rxBase = base ∧ t.block.rxCursor.val = 0 ∧
      t.block.txReady = s.block.txReady ∧ t.block.txBase = s.block.txBase ∧ t.block.txTail = s.block.txTail ∧
      t.block.txBound = s.block.txBound ∧
      t.block.faultCode = 0 ∧ t.block.faultW0 = s.block.faultW0 ∧ t.block.faultW1 = s.block.faultW1 ∧
      t.responses = s.responses ++ [{ code := .ok }] ∧ t.events = s.events ∧ t.draws = s.draws ∧
      t.outside = s.outside ∧ s.sameSurroundings t

/-- 42_rx_ring R170, 60_exceptions R235: where RX_INIT faults, ALREADY_INITIALIZED before BAD_ARGUMENT. -/
def Obligations.RxInitFaults : Prop :=
  ∀ (s : State) (base : Addr), s.live →
    (s.block.rxReady = true →
      ∃ t, exec (.rxInit base) s = .next t ∧ s.faultedWith t 0x06 (encode (.rxInit base)) []) ∧
    (s.block.rxReady = false → (base.toNat % 16 ≠ 0 ∨ base.toNat > 2 ^ 64 - 2048) →
      ∃ t, exec (.rxInit base) s = .next t ∧ s.faultedWith t 0x07 (encode (.rxInit base)) [])

/-- 42_rx_ring R172, R174, R177, R178: RX_POLL completes when the cursor slot has DD = 1 and its length fits the
buffer: the response carries the length, status, errors, slot and bytes; status and errors are cleared, RDT is the
slot, the cursor advances, and nothing else changes. The slot's buffer is open from here on: any step after may change it
(70_reset_and_hazards R275); the field that says so is the model's own (log 19). -/
def Obligations.RxPollDelivers : Prop :=
  ∀ s : State, s.live → s.block.rxReady = true → ddAt s.mem s.rxSlot = true →
    (Memory.readLE s.mem (s.rxSlot + 8) 2).toNat ≤ s.params.pageSize →
    ∃ (t : State) (next : Fin Config.mRx), exec .rxPoll s = .next t ∧
      next.val = (s.block.rxCursor.val + 1) % 128 ∧
      t.responses = s.responses ++
        [{ code := .ok
           plen := (Memory.readLE s.mem (s.rxSlot + 8) 2).setWidth 16
           rstat := Memory.byte s.mem (s.rxSlot + 12)
           rerr := Memory.byte s.mem (s.rxSlot + 13)
           slot := BitVec.ofNat 16 s.block.rxCursor.val
           bytes := Memory.readBytes s.mem (s.params.rxBufAddr s.block.rxCursor)
             (Memory.readLE s.mem (s.rxSlot + 8) 2).toNat }] ∧
      Memory.byte t.mem (s.rxSlot + 12) = 0 ∧ Memory.byte t.mem (s.rxSlot + 13) = 0 ∧
      s.sameMemoryOutside t (s.rxSlot + 12) 2 ∧
      t.dev = { s.dev with rdt := some (BitVec.ofNat 32 s.block.rxCursor.val) } ∧
      t.block = { s.block with rxCursor := next } ∧ t.rxOpen = s.rxOpen.set s.block.rxCursor true ∧
      t.events = s.events ∧ t.draws = s.draws ∧ t.outside = s.outside ∧
      t.params = s.params ∧ t.commands = s.commands ∧ t.schedule = s.schedule

/-- 42_rx_ring R173: when the descriptor at `rx_cursor` has DD = 0, RX_POLL responds NO_DATA having done only the 1-byte
status read; no cursor advance, no register write. -/
def Obligations.RxPollNoDataIsSideEffectFree : Prop :=
  ∀ s : State, s.live → s.block.rxReady = true → ddAt s.mem s.rxSlot = false →
    ∃ t, exec .rxPoll s = .next t ∧ s.turnedAway t { code := .noData } [.memRead (s.rxSlot + 12) 1]

/-- 42_rx_ring R172, 60_exceptions R235: where RX_POLL faults. RX_LENGTH_OVERRUN comes after the status and length
reads and before any write. -/
def Obligations.RxPollFaults : Prop :=
  ∀ s : State, s.live →
    (s.block.rxReady = false → ∃ t, exec .rxPoll s = .next t ∧ s.faultedWith t 0x05 (encode .rxPoll) []) ∧
    (s.block.rxReady = true → ddAt s.mem s.rxSlot = true →
      (Memory.readLE s.mem (s.rxSlot + 8) 2).toNat > s.params.pageSize →
      ∃ t, exec .rxPoll s = .next t ∧
        s.faultedWith t 0x08 (encode .rxPoll) [.memRead (s.rxSlot + 12) 1, .memRead (s.rxSlot + 8) 2])

/-- 42_rx_ring R172, R178, 20_memory R83: a delivering RX_POLL copies the bytes before it clears the status, and clears
the status and errors before it writes RDT, which is its last access. The record of the accesses is the model's own
(log 11). -/
def Obligations.RxPollCopiesBeforeReturn : Prop :=
  ∀ s : State, s.live → s.block.rxReady = true → ddAt s.mem s.rxSlot = true →
    (Memory.readLE s.mem (s.rxSlot + 8) 2).toNat ≤ s.params.pageSize →
    ∃ t, exec .rxPoll s = .next t ∧
      t.bus = s.bus ++
        [.memRead (s.rxSlot + 12) 1, .memRead (s.rxSlot + 8) 2, .memRead (s.rxSlot + 13) 1,
         .memReadBytes (s.params.rxBufAddr s.block.rxCursor) (Memory.readLE s.mem (s.rxSlot + 8) 2).toNat,
         .memWrite (s.rxSlot + 12) 1 0, .memWrite (s.rxSlot + 13) 1 0,
         .mmioWrite .rdt (BitVec.ofNat 32 s.block.rxCursor.val)]

/-! ### Interrupt causes -/

/-- 43_interrupt R190, R193: INT_ACK completes in every live state: it answers ICR with bits 0 and 4 as hints and clears
every cause. -/
def Obligations.IntAckAnswers : Prop :=
  ∀ s : State, s.live →
    ∃ t, exec .intAck s = .next t ∧
      t.dev = { s.dev with icr := 0 } ∧ t.draws = s.draws ∧
      regFrame s t
        { code := .ok, data := s.dev.icr, txh := s.dev.icr.getLsbD 0, rxh := s.dev.icr.getLsbD 4 }
        [.mmioRead .icr s.dev.icr]

/-- 43_interrupt R190: of two INT_ACKs with no device step between them the second answers 0 and no hint. -/
def Obligations.SecondIntAckReportsNothing : Prop :=
  ∀ s : State, s.live →
    ∃ t u, exec .intAck s = .next t ∧ exec .intAck t = .next u ∧
      u.responses = t.responses ++ [{ code := .ok, data := 0, txh := false, rxh := false }]

/-- 60_exceptions R242: a pending cause is cleared only by a read of ICR, INT_ACK or REG_READ ICR; every such read
clears every bit; writes of ICR are refused. -/
def Obligations.CausesClearedOnlyByReads : Prop :=
  (∀ (s t : State) (k : Nat), step s = .next t → s.dev.icr.getLsbD k = true → t.dev.icr.getLsbD k = false →
    ∃ c rest, s.takes c rest ∧ (decode c = .ok .intAck ∨ decode c = .ok (.regRead 0x000C0)) ∧ t.dev.icr = 0) ∧
  (∀ s : State, s.live → ∀ i ∈ [Instr.intAck, .regRead 0x000C0], ∃ t, exec i s = .next t ∧ t.dev.icr = 0) ∧
  (∀ (s : State) (v : Word32), s.live →
    ∀ i ∈ [Instr.regWrite 0x000C0 v, .regSetBits 0x000C0 v, .regClearBits 0x000C0 v],
      ∃ t, exec i s = .next t ∧ s.faultedWith t 0x03 (encode i) [])

/-- 44_device_agent R212, 10_state R31: INT_ACK lowers the interrupt line; a write of IMS or IMC leaves it asserted
exactly when a pending cause is then unmasked. -/
def Obligations.InterruptLineFollowsCausesAndMask : Prop :=
  ∀ (s : State) (v : Word32), s.live →
    (∃ t, exec .intAck s = .next t ∧ intLine t.dev = false) ∧
    (∃ t, exec (.regWrite 0x000D0 v) s = .next t ∧
      (intLine t.dev = true ↔ s.dev.icr &&& (s.dev.ims ||| v) ≠ 0)) ∧
    (∃ t, exec (.regWrite 0x000D8 v) s = .next t ∧
      (intLine t.dev = true ↔ s.dev.icr &&& (s.dev.ims &&& ~~~v) ≠ 0))

/-! ### Faults and the whole machine -/

/-- 60_exceptions R237: while `fault_code` is not 0 every command, valid or not, responds FAULT with it and has no other
effect; no step but block reset changes the fault; the device keeps taking its steps. -/
def Obligations.FaultedBlockIsStuck : Prop :=
  (∀ (s : State) (c : Command) (rest : List Command), s.block.faultCode ≠ 0 → s.takes c rest →
    step s = .next { s.taken rest with
      responses := s.responses ++ [{ code := .fault, fcode := s.block.faultCode }] }) ∧
  (∀ (s : State) (a : AgentStep) (ts : List Turn), s.block.faultCode ≠ 0 → s.turnOf a ts → a ≠ .blockReset →
    ∃ t, step s = .next t ∧ t.block = s.block ∧
      ∃ u, step { s with block := { s.block with faultCode := 0 } } = .next u ∧ u.dev = t.dev ∧ u.mem = t.mem)

/-- 60_exceptions R235, R236, R239: faults are precise. When a command faults, the state is exactly that before the
command, plus the fault code, the command's words and the response. The mark on code 4 is the model's reading of R239
(log 6); the record of the reads made before the check that failed is the model's own (log 11). -/
def Obligations.FaultsArePrecise : Prop :=
  (∀ (s t : State) (i : Instr), s.live → exec i s = .next t → t.block.faultCode ≠ 0 →
    ∃ code reads, code ≠ 0 ∧ s.faultedWith t code (encode i) reads ∧
      ∀ x ∈ reads, ∃ a n, x = Access.memRead a n) ∧
  (∀ (s t : State) (c : Command) (rest : List Command) (e : DecodeError), s.live → s.takes c rest →
    decode c = .error e → step s = .next t → (s.taken rest).faultedWith t 0x01 c [])

/-- 30_encoding R100, 60_exceptions R230: every command, in every state, answers a next state with exactly one more
response; the machine itself never stops, since the model reads faults as next states (log 15). -/
def Obligations.EveryCommandAnswersOnce : Prop :=
  (∀ (s : State) (i : Instr), ∃ t r, exec i s = .next t ∧ t.responses = s.responses ++ [r]) ∧
  (∀ s : State, ∃ t, step s = .next t)

/-- 20_memory R71, 10_state R43, R49: the bytes a command may change, and when. -/
def Obligations.BlockWriteFootprint : Prop :=
  ∀ (s t : State) (i : Instr) (a : Addr), exec i s = .next t → Memory.byte t.mem a ≠ Memory.byte s.mem a →
    (∃ base, i = .txInit base ∧ s.block.txReady = false ∧ inRange a base 256 = true) ∨
    (∃ addr len eop, i = .txEnqueue addr len eop ∧ ddAt s.mem s.txSlot = true ∧ inRange a s.txSlot 16 = true) ∨
    (∃ base, i = .rxInit base ∧ s.block.rxReady = false ∧ inRange a base 2048 = true) ∨
    (i = .rxPoll ∧ ddAt s.mem s.rxSlot = true ∧ (a = s.rxSlot + 12 ∨ a = s.rxSlot + 13))

/-- 20_memory R86, 10_state R23, R24: the rings are independent. A TX command leaves the RX ring's block state and
registers, an RX command the TX ring's, the bindings and the events. -/
def Obligations.RingsAreIndependent : Prop :=
  (∀ (s t : State) (base addr : Addr) (len : Word16) (eop : Bool) (i : Instr),
    i ∈ [.txInit base, .txEnqueue addr len eop] → exec i s = .next t →
    t.block.rxReady = s.block.rxReady ∧ t.block.rxBase = s.block.rxBase ∧ t.block.rxCursor = s.block.rxCursor ∧
    ∀ r ∈ [Reg.rdbal, .rdbah, .rdlen, .rdh, .rdt, .rctl, .icr, .ims], regGives t.dev r = regGives s.dev r) ∧
  (∀ (s t : State) (base : Addr) (i : Instr), i ∈ [.rxInit base, .rxPoll] → exec i s = .next t →
    t.block.txReady = s.block.txReady ∧ t.block.txBase = s.block.txBase ∧ t.block.txTail = s.block.txTail ∧
    t.block.txBound = s.block.txBound ∧ t.events = s.events ∧
    ∀ r ∈ [Reg.tdbal, .tdbah, .tdlen, .tdh, .tdt, .tctl, .tipg, .rctl, .icr, .ims],
      regGives t.dev r = regGives s.dev r)

/-! ### The device and the host -/

/-- What a device step leaves: the block, the ports, the parameters, and the registers the NIC never writes. -/
def deviceFrame (s t : State) (ts : List Turn) : Prop :=
  t.block = s.block ∧ t.responses = s.responses ∧ t.events = s.events ∧ t.bus = s.bus ∧ t.params = s.params ∧
  t.commands = s.commands ∧ t.draws = s.draws ∧ t.outside = s.outside ∧ t.schedule = ts ∧
  t.dev.tdt = s.dev.tdt ∧ t.dev.rdt = s.dev.rdt ∧ t.dev.ims = s.dev.ims ∧ t.dev.store = s.dev.store

/-- 44_device_agent R201 to R205: DEV_TX, where enabled, appends the descriptor's bytes to the frame, sends or drops the
frame at EOP, writes DD back where RS is set, advances the head, and may raise TXDW. -/
def Obligations.DevTxConsumes : Prop :=
  ∀ (s : State) (ts : List Turn) (sent cause : Bool) (errors : Byte) (ctl lo hi len h tl : Word32),
    s.turnOf (.devTx sent errors cause) ts →
    s.dev.store.tctl = some ctl → ctl.getLsbD 1 = true → s.dev.store.tdbal = some lo → s.dev.store.tdbah = some hi →
    s.dev.store.tdlen = some len → 16 ≤ len.toNat → s.dev.tdh = some h → s.dev.tdt = some tl → h ≠ tl →
    ∃ t d cmd frame, step s = .next t ∧
      d = ((hi.setWidth 64 <<< 32) ||| lo.setWidth 64) + BitVec.ofNat 64 (16 * h.toNat) ∧
      cmd = Memory.byte s.mem (d + 11) ∧
      frame = s.dev.txframe ++
        Memory.readBytes s.mem (Memory.readLE s.mem d 8) (Memory.readLE s.mem (d + 8) 2).toNat ∧
      (cmd.getLsbD 0 = true → t.dev.txframe = [] ∧
        t.dev.wire = if sent then s.dev.wire ++ [frame] else s.dev.wire) ∧
      (cmd.getLsbD 0 = false → t.dev.txframe = frame ∧ t.dev.wire = s.dev.wire) ∧
      (cmd.getLsbD 3 = true → Memory.byte t.mem (d + 12) = 0x01 ||| (errors &&& 0x0E)) ∧
      (∀ a, (a ≠ d + 12 ∨ cmd.getLsbD 3 = false) → Memory.byte t.mem a = Memory.byte s.mem a) ∧
      t.dev.tdh = some (BitVec.ofNat 32 ((h.toNat + 1) % (len.toNat / 16))) ∧
      t.dev.icr = (if cmd.getLsbD 3 && cause then s.dev.icr ||| 1 else s.dev.icr) ∧
      t.dev.rdh = s.dev.rdh ∧ t.rxOpen = s.rxOpen ∧ deviceFrame s t ts

/-- 44_device_agent R208 to R210, 20_memory R85: DEV_RX, where enabled and given 1 to RX_BUF_BYTES bytes, writes them to
the buffer of the descriptor at the head, completes the descriptor with DD = 1, advances the head, and may raise
RXDMT0, RXO and RXT0. The buffer lies outside the descriptor (70_reset_and_hazards R266), and is no longer open (log 19). -/
def Obligations.DevRxDelivers : Prop :=
  ∀ (s : State) (ts : List Turn) (data : List Byte) (checksum special : Word16) (errors status : Byte)
    (causes ctl lo hi len h tl : Word32),
    s.turnOf (.devRx data checksum errors special status causes) ts → s.params.wf →
    1 ≤ data.length → data.length ≤ s.params.pageSize →
    s.dev.store.rctl = some ctl → ctl.getLsbD 1 = true → s.dev.store.rdbal = some lo → s.dev.store.rdbah = some hi →
    s.dev.store.rdlen = some len → 16 ≤ len.toNat → s.dev.rdh = some h → s.dev.rdt = some tl → h ≠ tl →
    ∃ t d buf, step s = .next t ∧
      d = ((hi.setWidth 64 <<< 32) ||| lo.setWidth 64) + BitVec.ofNat 64 (16 * h.toNat) ∧
      buf = Memory.readLE s.mem d 8 ∧
      (∀ k (hk : k < data.length), inRange (buf + BitVec.ofNat 64 k) (d + 8) 8 = false →
        Memory.byte t.mem (buf + BitVec.ofNat 64 k) = data[k]) ∧
      Memory.readLE t.mem (d + 8) 2 = (BitVec.ofNat 16 data.length).setWidth 64 ∧
      Memory.readLE t.mem (d + 10) 2 = checksum.setWidth 64 ∧
      Memory.byte t.mem (d + 12) = 0x01 ||| (status &&& 0xFE) ∧ Memory.byte t.mem (d + 13) = errors ∧
      Memory.readLE t.mem (d + 14) 2 = special.setWidth 64 ∧
      (∀ a, inRange a buf data.length = false → inRange a (d + 8) 8 = false →
        Memory.byte t.mem a = Memory.byte s.mem a) ∧
      t.dev.rdh = some (BitVec.ofNat 32 ((h.toNat + 1) % (len.toNat / 16))) ∧
      t.dev.icr = s.dev.icr ||| (causes &&& 0x000000D0) ∧
      (∀ i : Fin Config.mRx, t.rxOpen[i] = (decide (i.val ≠ h.toNat) && s.rxOpen[i])) ∧
      t.dev.tdh = s.dev.tdh ∧ t.dev.txframe = s.dev.txframe ∧ t.dev.wire = s.dev.wire ∧ deviceFrame s t ts

/-- 44_device_agent R215: DEV_CAUSE adds any causes to ICR and changes nothing else. -/
def Obligations.DevCauseAddsCauses : Prop :=
  ∀ (s : State) (ts : List Turn) (x : Word32), s.turnOf (.devCause x) ts →
    step s = .next { s with dev := { s.dev with icr := s.dev.icr ||| x }, schedule := ts }

/-- 44_device_agent R201, R203, R208, R209, 70_reset_and_hazards R273: with EN clear or unwritten, or the head equal to
the tail, the device's step does nothing. So a TX ring filled to N_TX, whose tail has come round to the head, is never
consumed. That the turn of such a step is used up is the model's choice (log 8). -/
def Obligations.DisabledDeviceDoesNothing : Prop :=
  (∀ (s : State) (ts : List Turn) (sent cause : Bool) (errors : Byte), s.turnOf (.devTx sent errors cause) ts →
    ((∀ v, s.dev.store.tctl = some v → v.getLsbD 1 = false) ∨ s.dev.tdh = s.dev.tdt) →
    step s = .next { s with schedule := ts }) ∧
  (∀ (s : State) (ts : List Turn) (data : List Byte) (checksum special : Word16) (errors status : Byte)
    (causes : Word32), s.turnOf (.devRx data checksum errors special status causes) ts →
    ((∀ v, s.dev.store.rctl = some v → v.getLsbD 1 = false) ∨ s.dev.rdh = s.dev.rdt) →
    step s = .next { s with schedule := ts })

/-- 44_device_agent R216: no device step, with whatever choices, writes TDT, RDT, IMS or a stored register, or anything
of the block or the ports. -/
def Obligations.DeviceNeverWritesTails : Prop :=
  ∀ (s : State) (ts : List Turn) (a : AgentStep), s.turnOf a ts →
    ((∃ sent errors cause, a = .devTx sent errors cause) ∨
     (∃ data checksum errors special status causes, a = .devRx data checksum errors special status causes) ∨
     (∃ x, a = .devCause x) ∨ (∃ i data, a = .devOverwrite i data)) →
    ∃ t, step s = .next t ∧ deviceFrame s t ts

/-- 44_device_agent R218: the bytes a device step may change: the status byte of the TX descriptor at the head, or bytes
8 to 15 of the RX descriptor at the head and the buffer its address field names; only while the ring holds work. The
overwriting R275 adds to these (log 19) changes bytes of an open RX buffer alone. -/
def Obligations.DeviceMemoryFootprint : Prop :=
  (∀ (s t : State) (ts : List Turn) (sent cause : Bool) (errors : Byte) (x : Addr),
    s.turnOf (.devTx sent errors cause) ts → step s = .next t → Memory.byte t.mem x ≠ Memory.byte s.mem x →
    ∃ lo hi h tl, s.dev.store.tdbal = some lo ∧ s.dev.store.tdbah = some hi ∧ s.dev.tdh = some h ∧
      s.dev.tdt = some tl ∧ h ≠ tl ∧ x = slotAddr (ringBaseOf lo hi) h.toNat + 12) ∧
  (∀ (s t : State) (ts : List Turn) (data : List Byte) (checksum special : Word16) (errors status : Byte)
    (causes : Word32) (x : Addr),
    s.turnOf (.devRx data checksum errors special status causes) ts → step s = .next t →
    Memory.byte t.mem x ≠ Memory.byte s.mem x →
    ∃ lo hi h tl, s.dev.store.rdbal = some lo ∧ s.dev.store.rdbah = some hi ∧ s.dev.rdh = some h ∧
      s.dev.rdt = some tl ∧ h ≠ tl ∧
      (inRange x (slotAddr (ringBaseOf lo hi) h.toNat + 8) 8 = true ∨
       (inRange x (Memory.readLE s.mem (slotAddr (ringBaseOf lo hi) h.toNat) 8) data.length = true ∧
        data.length ≤ s.params.pageSize))) ∧
  (∀ (s t : State) (ts : List Turn) (i : Fin Config.mRx) (data : List Byte) (x : Addr),
    s.turnOf (.devOverwrite i data) ts → step s = .next t → Memory.byte t.mem x ≠ Memory.byte s.mem x →
    s.rxOpen[i] = true ∧ inRange x (s.params.rxBufAddr i) data.length = true ∧ data.length ≤ s.params.pageSize)

/-- 70_reset_and_hazards R275, 93_implementation_defined U19: from a delivering RX_POLL on, the returned buffer may hold
any value at any step. Whatever bytes the device chooses for an open buffer, its turn writes them there and changes
nothing else, also right after the command that returned the slot. The step is the model's own form of R275 (log 19). -/
def Obligations.ReturnedBufferMayHoldAnything : Prop :=
  (∀ (s : State) (ts : List Turn) (i : Fin Config.mRx) (data : List Byte),
    s.turnOf (.devOverwrite i data) ts → s.params.wf → s.rxOpen[i] = true → data.length ≤ s.params.pageSize →
    ∃ t, step s = .next t ∧
      (∀ k (hk : k < data.length), Memory.byte t.mem (s.params.rxBufAddr i + BitVec.ofNat 64 k) = data[k]) ∧
      s.sameMemoryOutside t (s.params.rxBufAddr i) data.length ∧
      t.dev = s.dev ∧ t.rxOpen = s.rxOpen ∧ deviceFrame s t ts) ∧
  (∀ (s : State) (ts : List Turn) (data : List Byte),
    s.live → s.params.wf → s.block.rxReady = true → ddAt s.mem s.rxSlot = true →
    (Memory.readLE s.mem (s.rxSlot + 8) 2).toNat ≤ s.params.pageSize → data.length = s.params.pageSize →
    s.schedule = .agent (.devOverwrite s.block.rxCursor data) :: ts →
    ∃ t u, exec .rxPoll s = .next t ∧ step t = .next u ∧
      Memory.readBytes u.mem (s.params.rxBufAddr s.block.rxCursor) s.params.pageSize = data ∧
      u.responses = t.responses)

/-- 20_memory R87, 70_reset_and_hazards R266: a host store writes its bytes and no others, touches neither block nor NIC,
and marks the run when it meets a byte the host must not write. Which bytes those are is the model's reading (log 7), and
so is that the bytes of a store past the top of the address space wrap to its bottom (log 14). -/
def Obligations.HostStoreWritesItsBytes : Prop :=
  ∀ (s : State) (ts : List Turn) (a : Addr) (bytes : List Byte), s.turnOf (.hostStore a bytes) ts →
    bytes.length ≤ 2 ^ 64 →
    ∃ t, step s = .next t ∧
      (∀ k (hk : k < bytes.length), Memory.byte t.mem (a + BitVec.ofNat 64 k) = bytes[k]) ∧
      s.sameMemoryOutside t a bytes.length ∧
      t.block = s.block ∧ t.dev = s.dev ∧ t.responses = s.responses ∧ t.events = s.events ∧ t.bus = s.bus ∧
      t.params = s.params ∧ t.commands = s.commands ∧ t.draws = s.draws ∧ t.schedule = ts ∧ t.rxOpen = s.rxOpen ∧
      (t.outside = true ↔
        s.outside = true ∨ ∃ k, k < bytes.length ∧ blockOwns s (a + BitVec.ofNat 64 k) = true)

/-- 60_exceptions R232, 44_device_agent R206: what was delivered, emitted or sent is never taken back; and no step
changes the platform's parameters (00_scope R7, R8). The histories and the mark are the model's own (log 6, log 11). -/
def Obligations.OutputsOnlyGrow : Prop :=
  ∀ s t : State, step s = .next t →
    s.responses <+: t.responses ∧ s.events <+: t.events ∧ s.bus <+: t.bus ∧ s.dev.wire <+: t.dev.wire ∧
    t.params = s.params ∧ s.draws ≤ t.draws ∧ (s.outside = true → t.outside = true)

/-! ### Invariants -/

/-- 10_state R52: every step keeps memory in its canonical form. The form is the model's choice (log 4). -/
def Obligations.MemoryStaysCanonical : Prop :=
  ∀ s t : State, s.memCanonical → step s = .next t → t.memCanonical

/-- 10_state R23, R24: every step keeps the tail registers mirroring the cursors. -/
def Obligations.TailsStayMirrored : Prop :=
  ∀ s t : State, s.tailsMirrored → step s = .next t → t.tailsMirrored

/-- 10_state R37, 44_device_agent R202: every step keeps the NIC's ring registers describing the block's rings, and the
heads inside them. -/
def Obligations.RingRegistersStay : Prop :=
  ∀ s t : State, s.ringRegisters → step s = .next t → t.ringRegisters

/-- 10_state R25, R51, 41_tx_ring R154: every step keeps every binding pinned; and every step but block reset keeps the
pin count of each page exactly the number of slots bound to it. -/
def Obligations.PinsStayAccounted : Prop :=
  (∀ s t : State, s.pinsCovered → step s = .next t → t.pinsCovered) ∧
  (∀ s t : State, s.pinsBalanced → (∀ ts, ¬ s.turnOf .blockReset ts) → step s = .next t →
    t.pinsBalanced ∧ ∀ p, pinCount p t.events = (boundCount p t : Int))

/-- 10_state R45, R48: "their physical addresses are fixed into the descriptors at initialization and never changed".
In a run inside the spec whose rings and RX pages are disjoint (70_reset_and_hazards R266), every step of every agent
keeps each RX descriptor's address field equal to `rxBufAddr(i)`. What "inside the spec" means is the model's reading
(log 6, log 7). -/
def Obligations.RxBindingIsNeverChanged : Prop :=
  ∀ s t : State, s.params.wf → s.ringRegisters → s.layoutOk → s.rxBound → step s = .next t →
    t.layoutOk → t.outside = false → t.rxBound

/-- Every invariant holds at reset. -/
def Obligations.InvariantsHoldAtReset : Prop :=
  State.reset.memCanonical ∧ State.reset.tailsMirrored ∧ State.reset.ringRegisters ∧ State.reset.pinsCovered ∧
  State.reset.pinsBalanced ∧ State.reset.layoutOk ∧ State.reset.rxBound
end

