-- ==== Sys2Proof/Laws/Memory.lean ====
section
/-! SUPPORT. The laws of host memory: a read after a write, that a write leaves every other byte alone, and that
every operation keeps the canonical form. -/

namespace Sys2Proof.Machine

/-! ### One byte -/

theorem Memory.lookup_insert (m : Memory) (a x : Nat) (b : Byte) :
    Memory.lookup (Memory.insert m a b) x = if x = a then some b else Memory.lookup m x := by
  induction m with
  | nil => simp [Memory.insert, Memory.lookup, eq_comm]
  | cons c rest ih =>
    obtain ⟨k, v⟩ := c
    simp only [Memory.insert]
    split
    · simp [Memory.lookup, eq_comm]
    · split
      · rename_i h
        subst h
        simp only [Memory.lookup]
        by_cases hx : a = x <;> simp [hx, eq_comm]
      · simp only [Memory.lookup, ih]
        by_cases hk : k = x
        · subst hk
          simp; omega
        · simp [hk]

theorem Memory.byte_setByte (m : Memory) (a x : Addr) (b : Byte) :
    Memory.byte (Memory.setByte m a b) x = if x = a then b else Memory.byte m x := by
  simp only [Memory.byte, Memory.setByte, Memory.lookup_insert, BitVec.toNat_inj]
  split <;> simp

@[simp] theorem Memory.byte_setByte_same (m : Memory) (a : Addr) (b : Byte) :
    Memory.byte (Memory.setByte m a b) a = b := by
  simp [Memory.byte_setByte]

/-! ### The canonical form -/

theorem Memory.mem_insert_fst (m : Memory) (a : Nat) (b : Byte) (c : Host.Cell) (h : c ∈ Memory.insert m a b) :
    c.1 = a ∨ c ∈ m := by
  induction m with
  | nil => simp [Memory.insert] at h; simp [h]
  | cons d rest ih =>
    obtain ⟨k, v⟩ := d
    simp only [Memory.insert] at h
    split at h
    · rcases List.mem_cons.1 h with rfl | h
      · simp
      · exact .inr h
    · split at h
      · rcases List.mem_cons.1 h with rfl | h
        · simp
        · exact .inr (List.mem_cons_of_mem _ h)
      · rcases List.mem_cons.1 h with rfl | h
        · simp
        · exact (ih h).imp id (List.mem_cons_of_mem _)

theorem Memory.insert_sorted (m : Memory) (a : Nat) (b : Byte) (h : m.Pairwise (fun x y => x.1 < y.1)) :
    (Memory.insert m a b).Pairwise (fun x y => x.1 < y.1) := by
  induction m with
  | nil => simp [Memory.insert]
  | cons c rest ih =>
    obtain ⟨k, v⟩ := c
    obtain ⟨hk, hrest⟩ := List.pairwise_cons.1 h
    simp only [Memory.insert]
    split
    · rename_i hlt
      refine List.pairwise_cons.2 ⟨fun y hy => ?_, h⟩
      rcases List.mem_cons.1 hy with rfl | hy
      · exact hlt
      · exact Nat.lt_trans hlt (hk y hy)
    · split
      · rename_i heq
        subst heq
        exact List.pairwise_cons.2 ⟨hk, hrest⟩
      · rename_i hge hne
        refine List.pairwise_cons.2 ⟨fun y hy => ?_, ih hrest⟩
        rcases Memory.mem_insert_fst rest a b y hy with h1 | h1
        · simp only at *; omega
        · exact hk y h1

theorem Memory.setByte_wf (m : Memory) (a : Addr) (b : Byte) (h : Memory.wf m) : Memory.wf (Memory.setByte m a b) := by
  refine ⟨Memory.insert_sorted m _ b h.1, fun c hc => ?_⟩
  rcases Memory.mem_insert_fst m _ b c hc with h1 | h1
  · rw [h1]; exact a.isLt
  · exact h.2 c h1

theorem Memory.writeLE_wf (m : Memory) (a : Addr) (n : Nat) (v : Word64) (h : Memory.wf m) :
    Memory.wf (Memory.writeLE m a n v) := by
  induction n with
  | zero => exact h
  | succ k ih => exact Memory.setByte_wf _ _ _ ih

theorem Memory.writeBytes_wf (m : Memory) (a : Addr) (bs : List Byte) (h : Memory.wf m) :
    Memory.wf (Memory.writeBytes m a bs) := by
  induction bs generalizing m a with
  | nil => exact h
  | cons b rest ih => exact ih _ _ (Memory.setByte_wf m a b h)

theorem Memory.empty_wf : Memory.wf [] := by simp [Memory.wf]

/-! ### Several bytes -/

/-- `MemWrite` writes exactly the bytes `a .. a+n-1`, little-endian. -/
theorem Memory.byte_writeLE (m : Memory) (a x : Addr) (n : Nat) (v : Word64) (hn : n ≤ 2 ^ 64) :
    Memory.byte (Memory.writeLE m a n v) x =
      if (x - a).toNat < n then v.extractLsb' (8 * (x - a).toNat) 8 else Memory.byte m x := by
  induction n with
  | zero => simp [Memory.writeLE]
  | succ k ih =>
    rw [Memory.writeLE, Memory.byte_setByte, ih (by omega)]
    have key : x = a + BitVec.ofNat 64 k ↔ (x - a).toNat = k := by
      constructor
      · rintro rfl
        have : a + BitVec.ofNat 64 k - a = BitVec.ofNat 64 k := by
          rw [BitVec.add_comm, BitVec.add_sub_cancel]
        rw [this]; simp; omega
      · intro h
        have : BitVec.ofNat 64 k = x - a := by rw [← h, BitVec.ofNat_toNat, BitVec.setWidth_eq]
        rw [this, BitVec.add_comm, BitVec.sub_add_cancel]
    by_cases hx : x = a + BitVec.ofNat 64 k
    · have := key.1 hx
      rw [if_pos hx, if_pos (by omega), this]
    · have := mt key.2 hx
      rw [if_neg hx]
      by_cases h1 : (x - a).toNat < k
      · rw [if_pos h1, if_pos (by omega)]
      · rw [if_neg h1, if_neg (by omega)]

/-- A list of bytes is written to exactly the bytes `a .. a+length-1`. -/
theorem Memory.byte_writeBytes (m : Memory) (a x : Addr) (bs : List Byte) (hn : bs.length ≤ 2 ^ 64) :
    Memory.byte (Memory.writeBytes m a bs) x = (bs[(x - a).toNat]?).getD (Memory.byte m x) := by
  induction bs generalizing m a with
  | nil => simp [Memory.writeBytes]
  | cons b rest ih =>
    rw [Memory.writeBytes, ih _ _ (by simp at hn; omega), Memory.byte_setByte]
    by_cases hx : x = a
    · subst hx
      have h1 : (x - (x + 1)).toNat = 2 ^ 64 - 1 := by
        bv_omega
      have h2 : rest[2 ^ 64 - 1]? = none := by
        rw [List.getElem?_eq_none_iff]
        simp only [List.length_cons] at hn
        omega
      rw [h1, h2]
      simp
    · have h1 : (x - a).toNat = (x - (a + 1)).toNat + 1 := by bv_omega
      simp [h1, hx]

@[simp] theorem Memory.readLE_one (m : Memory) (a : Addr) :
    Memory.readLE m a 1 = (Memory.byte m a).setWidth 64 := by
  simp [Memory.readLE]

/-- Equal bytes give equal values. -/
theorem Memory.readLE_congr (m m' : Memory) (a : Addr) (n : Nat)
    (h : ∀ k, k < n → Memory.byte m (a + BitVec.ofNat 64 k) = Memory.byte m' (a + BitVec.ofNat 64 k)) :
    Memory.readLE m a n = Memory.readLE m' a n := by
  induction n with
  | zero => rfl
  | succ k ih => simp only [Memory.readLE, ih fun j hj => h j (by omega), h k (by omega)]

/-- `MemRead` gives back what `MemWrite` wrote: the low 8n bits. -/
theorem Memory.readLE_of_bytes (m : Memory) (a : Addr) (n : Nat) (v : Word64)
    (h : ∀ k, k < n → Memory.byte m (a + BitVec.ofNat 64 k) = v.extractLsb' (8 * k) 8) :
    Memory.readLE m a n = v &&& BitVec.ofNat 64 (2 ^ (8 * n) - 1) := by
  induction n with
  | zero => simp [Memory.readLE]
  | succ k ih =>
    rw [Memory.readLE, ih fun j hj => h j (by omega), h k (by omega)]
    apply BitVec.eq_of_getLsbD_eq
    intro i hi
    simp only [BitVec.getLsbD_or, BitVec.getLsbD_and, BitVec.getLsbD_ofNat, Nat.testBit_two_pow_sub_one,
      BitVec.getLsbD_shiftLeft, BitVec.getLsbD_setWidth, BitVec.getLsbD_extractLsb']
    by_cases h1 : i < 8 * k
    · simp [h1, hi]; omega
    · have h4 : 8 * k + (i - 8 * k) = i := by omega
      by_cases h2 : i < 8 * (k + 1)
      · have h3 : i - 8 * k < 8 := by omega
        have h5 : i - 8 * k < 64 := by omega
        simp [h1, h2, hi, h3, h4, h5]
      · have h3 : ¬ i - 8 * k < 8 := by omega
        simp [h1, h2, h3]

end Sys2Proof.Machine
end

