-- ==== Sys2Proof/Laws/State.lean ====
section
/-! SUPPORT. One lemma per field of State per update of Machine/Ops.lean, each true by rfl, so that no later proof
unfolds a record update. -/

namespace Sys2Proof.Machine

@[simp] theorem recordAccess_block (x : Access) (s : State) : (recordAccess x s).block = s.block := rfl
@[simp] theorem recordAccess_dev (x : Access) (s : State) : (recordAccess x s).dev = s.dev := rfl
@[simp] theorem recordAccess_mem (x : Access) (s : State) : (recordAccess x s).mem = s.mem := rfl
@[simp] theorem recordAccess_params (x : Access) (s : State) : (recordAccess x s).params = s.params := rfl
@[simp] theorem recordAccess_commands (x : Access) (s : State) : (recordAccess x s).commands = s.commands := rfl
@[simp] theorem recordAccess_responses (x : Access) (s : State) : (recordAccess x s).responses = s.responses := rfl
@[simp] theorem recordAccess_events (x : Access) (s : State) : (recordAccess x s).events = s.events := rfl
@[simp] theorem recordAccess_bus (x : Access) (s : State) : (recordAccess x s).bus = s.bus ++ [x] := rfl
@[simp] theorem recordAccess_draws (x : Access) (s : State) : (recordAccess x s).draws = s.draws := rfl
@[simp] theorem recordAccess_outside (x : Access) (s : State) : (recordAccess x s).outside = s.outside := rfl
@[simp] theorem recordAccess_rxOpen (x : Access) (s : State) : (recordAccess x s).rxOpen = s.rxOpen := rfl
@[simp] theorem recordAccess_schedule (x : Access) (s : State) : (recordAccess x s).schedule = s.schedule := rfl

@[simp] theorem memWrite_block (a : Addr) (n : Nat) (v : Word64) (s : State) : (memWrite a n v s).block = s.block := rfl
@[simp] theorem memWrite_dev (a : Addr) (n : Nat) (v : Word64) (s : State) : (memWrite a n v s).dev = s.dev := rfl
@[simp] theorem memWrite_mem (a : Addr) (n : Nat) (v : Word64) (s : State) : (memWrite a n v s).mem = Memory.writeLE s.mem a n v := rfl
@[simp] theorem memWrite_params (a : Addr) (n : Nat) (v : Word64) (s : State) : (memWrite a n v s).params = s.params := rfl
@[simp] theorem memWrite_commands (a : Addr) (n : Nat) (v : Word64) (s : State) : (memWrite a n v s).commands = s.commands := rfl
@[simp] theorem memWrite_responses (a : Addr) (n : Nat) (v : Word64) (s : State) : (memWrite a n v s).responses = s.responses := rfl
@[simp] theorem memWrite_events (a : Addr) (n : Nat) (v : Word64) (s : State) : (memWrite a n v s).events = s.events := rfl
@[simp] theorem memWrite_bus (a : Addr) (n : Nat) (v : Word64) (s : State) : (memWrite a n v s).bus = s.bus ++ [.memWrite a n v] := rfl
@[simp] theorem memWrite_draws (a : Addr) (n : Nat) (v : Word64) (s : State) : (memWrite a n v s).draws = s.draws := rfl
@[simp] theorem memWrite_outside (a : Addr) (n : Nat) (v : Word64) (s : State) : (memWrite a n v s).outside = s.outside := rfl
@[simp] theorem memWrite_rxOpen (a : Addr) (n : Nat) (v : Word64) (s : State) : (memWrite a n v s).rxOpen = s.rxOpen := rfl
@[simp] theorem memWrite_schedule (a : Addr) (n : Nat) (v : Word64) (s : State) : (memWrite a n v s).schedule = s.schedule := rfl

@[simp] theorem emit_block (e : Event) (s : State) : (emit e s).block = s.block := rfl
@[simp] theorem emit_dev (e : Event) (s : State) : (emit e s).dev = s.dev := rfl
@[simp] theorem emit_mem (e : Event) (s : State) : (emit e s).mem = s.mem := rfl
@[simp] theorem emit_params (e : Event) (s : State) : (emit e s).params = s.params := rfl
@[simp] theorem emit_commands (e : Event) (s : State) : (emit e s).commands = s.commands := rfl
@[simp] theorem emit_responses (e : Event) (s : State) : (emit e s).responses = s.responses := rfl
@[simp] theorem emit_events (e : Event) (s : State) : (emit e s).events = s.events ++ [e] := rfl
@[simp] theorem emit_bus (e : Event) (s : State) : (emit e s).bus = s.bus := rfl
@[simp] theorem emit_draws (e : Event) (s : State) : (emit e s).draws = s.draws := rfl
@[simp] theorem emit_outside (e : Event) (s : State) : (emit e s).outside = s.outside := rfl
@[simp] theorem emit_rxOpen (e : Event) (s : State) : (emit e s).rxOpen = s.rxOpen := rfl
@[simp] theorem emit_schedule (e : Event) (s : State) : (emit e s).schedule = s.schedule := rfl

@[simp] theorem respond_block (r : Response) (s : State) : (respond r s).block = s.block := rfl
@[simp] theorem respond_dev (r : Response) (s : State) : (respond r s).dev = s.dev := rfl
@[simp] theorem respond_mem (r : Response) (s : State) : (respond r s).mem = s.mem := rfl
@[simp] theorem respond_params (r : Response) (s : State) : (respond r s).params = s.params := rfl
@[simp] theorem respond_commands (r : Response) (s : State) : (respond r s).commands = s.commands := rfl
@[simp] theorem respond_responses (r : Response) (s : State) : (respond r s).responses = s.responses ++ [r] := rfl
@[simp] theorem respond_events (r : Response) (s : State) : (respond r s).events = s.events := rfl
@[simp] theorem respond_bus (r : Response) (s : State) : (respond r s).bus = s.bus := rfl
@[simp] theorem respond_draws (r : Response) (s : State) : (respond r s).draws = s.draws := rfl
@[simp] theorem respond_outside (r : Response) (s : State) : (respond r s).outside = s.outside := rfl
@[simp] theorem respond_rxOpen (r : Response) (s : State) : (respond r s).rxOpen = s.rxOpen := rfl
@[simp] theorem respond_schedule (r : Response) (s : State) : (respond r s).schedule = s.schedule := rfl

@[simp] theorem mmioWrite_block (r : Reg) (v : Word32) (s : State) : (mmioWrite r v s).block = s.block := rfl
@[simp] theorem mmioWrite_dev (r : Reg) (v : Word32) (s : State) : (mmioWrite r v s).dev = s.dev.afterWrite r v := rfl
@[simp] theorem mmioWrite_mem (r : Reg) (v : Word32) (s : State) : (mmioWrite r v s).mem = s.mem := rfl
@[simp] theorem mmioWrite_params (r : Reg) (v : Word32) (s : State) : (mmioWrite r v s).params = s.params := rfl
@[simp] theorem mmioWrite_commands (r : Reg) (v : Word32) (s : State) : (mmioWrite r v s).commands = s.commands := rfl
@[simp] theorem mmioWrite_responses (r : Reg) (v : Word32) (s : State) : (mmioWrite r v s).responses = s.responses := rfl
@[simp] theorem mmioWrite_events (r : Reg) (v : Word32) (s : State) : (mmioWrite r v s).events = s.events := rfl
@[simp] theorem mmioWrite_bus (r : Reg) (v : Word32) (s : State) : (mmioWrite r v s).bus = s.bus ++ [.mmioWrite r v] := rfl
@[simp] theorem mmioWrite_draws (r : Reg) (v : Word32) (s : State) : (mmioWrite r v s).draws = s.draws := rfl
@[simp] theorem mmioWrite_outside (r : Reg) (v : Word32) (s : State) : (mmioWrite r v s).outside = s.outside := rfl
@[simp] theorem mmioWrite_rxOpen (r : Reg) (v : Word32) (s : State) : (mmioWrite r v s).rxOpen = s.rxOpen := rfl
@[simp] theorem mmioWrite_schedule (r : Reg) (v : Word32) (s : State) : (mmioWrite r v s).schedule = s.schedule := rfl

@[simp] theorem draw64_block (s : State) : (draw64 s).2.block = s.block := rfl
@[simp] theorem draw64_dev (s : State) : (draw64 s).2.dev = s.dev := rfl
@[simp] theorem draw64_mem (s : State) : (draw64 s).2.mem = s.mem := rfl
@[simp] theorem draw64_params (s : State) : (draw64 s).2.params = s.params := rfl
@[simp] theorem draw64_commands (s : State) : (draw64 s).2.commands = s.commands := rfl
@[simp] theorem draw64_responses (s : State) : (draw64 s).2.responses = s.responses := rfl
@[simp] theorem draw64_events (s : State) : (draw64 s).2.events = s.events := rfl
@[simp] theorem draw64_bus (s : State) : (draw64 s).2.bus = s.bus := rfl
@[simp] theorem draw64_draws (s : State) : (draw64 s).2.draws = s.draws + 1 := rfl
@[simp] theorem draw64_outside (s : State) : (draw64 s).2.outside = s.outside := rfl
@[simp] theorem draw64_rxOpen (s : State) : (draw64 s).2.rxOpen = s.rxOpen := rfl
@[simp] theorem draw64_schedule (s : State) : (draw64 s).2.schedule = s.schedule := rfl

@[simp] theorem draw32_block (s : State) : (draw32 s).2.block = s.block := rfl
@[simp] theorem draw32_dev (s : State) : (draw32 s).2.dev = s.dev := rfl
@[simp] theorem draw32_mem (s : State) : (draw32 s).2.mem = s.mem := rfl
@[simp] theorem draw32_params (s : State) : (draw32 s).2.params = s.params := rfl
@[simp] theorem draw32_commands (s : State) : (draw32 s).2.commands = s.commands := rfl
@[simp] theorem draw32_responses (s : State) : (draw32 s).2.responses = s.responses := rfl
@[simp] theorem draw32_events (s : State) : (draw32 s).2.events = s.events := rfl
@[simp] theorem draw32_bus (s : State) : (draw32 s).2.bus = s.bus := rfl
@[simp] theorem draw32_draws (s : State) : (draw32 s).2.draws = s.draws + 1 := rfl
@[simp] theorem draw32_outside (s : State) : (draw32 s).2.outside = s.outside := rfl
@[simp] theorem draw32_rxOpen (s : State) : (draw32 s).2.rxOpen = s.rxOpen := rfl
@[simp] theorem draw32_schedule (s : State) : (draw32 s).2.schedule = s.schedule := rfl

@[simp] theorem takeFault_block (f : FaultCode) (c : Command) (s : State) : (takeFault f c s).block = { s.block with faultCode := f.byte, faultW0 := c.w0, faultW1 := c.w1 } := rfl
@[simp] theorem takeFault_dev (f : FaultCode) (c : Command) (s : State) : (takeFault f c s).dev = s.dev := rfl
@[simp] theorem takeFault_mem (f : FaultCode) (c : Command) (s : State) : (takeFault f c s).mem = s.mem := rfl
@[simp] theorem takeFault_params (f : FaultCode) (c : Command) (s : State) : (takeFault f c s).params = s.params := rfl
@[simp] theorem takeFault_commands (f : FaultCode) (c : Command) (s : State) : (takeFault f c s).commands = s.commands := rfl
@[simp] theorem takeFault_responses (f : FaultCode) (c : Command) (s : State) : (takeFault f c s).responses = s.responses ++ [Response.faulted f.byte] := rfl
@[simp] theorem takeFault_events (f : FaultCode) (c : Command) (s : State) : (takeFault f c s).events = s.events := rfl
@[simp] theorem takeFault_bus (f : FaultCode) (c : Command) (s : State) : (takeFault f c s).bus = s.bus := rfl
@[simp] theorem takeFault_draws (f : FaultCode) (c : Command) (s : State) : (takeFault f c s).draws = s.draws := rfl
@[simp] theorem takeFault_outside (f : FaultCode) (c : Command) (s : State) : (takeFault f c s).outside = (s.outside || f == .unmodelled) := rfl
@[simp] theorem takeFault_rxOpen (f : FaultCode) (c : Command) (s : State) : (takeFault f c s).rxOpen = s.rxOpen := rfl
@[simp] theorem takeFault_schedule (f : FaultCode) (c : Command) (s : State) : (takeFault f c s).schedule = s.schedule := rfl

@[simp] theorem respondFaulted_block (s : State) : (respondFaulted s).block = s.block := rfl
@[simp] theorem respondFaulted_dev (s : State) : (respondFaulted s).dev = s.dev := rfl
@[simp] theorem respondFaulted_mem (s : State) : (respondFaulted s).mem = s.mem := rfl
@[simp] theorem respondFaulted_params (s : State) : (respondFaulted s).params = s.params := rfl
@[simp] theorem respondFaulted_commands (s : State) : (respondFaulted s).commands = s.commands := rfl
@[simp] theorem respondFaulted_responses (s : State) : (respondFaulted s).responses = s.responses ++ [Response.faulted s.block.faultCode] := rfl
@[simp] theorem respondFaulted_events (s : State) : (respondFaulted s).events = s.events := rfl
@[simp] theorem respondFaulted_bus (s : State) : (respondFaulted s).bus = s.bus := rfl
@[simp] theorem respondFaulted_draws (s : State) : (respondFaulted s).draws = s.draws := rfl
@[simp] theorem respondFaulted_outside (s : State) : (respondFaulted s).outside = s.outside := rfl
@[simp] theorem respondFaulted_rxOpen (s : State) : (respondFaulted s).rxOpen = s.rxOpen := rfl
@[simp] theorem respondFaulted_schedule (s : State) : (respondFaulted s).schedule = s.schedule := rfl

end Sys2Proof.Machine
end

