-- ==== Sys2Proof/Laws/Ops.lean ====
section
/-! SUPPORT. The laws of the shared operations of Machine/Ops.lean: the register file, the frame of a command, and
what writing a descriptor does to every byte of memory. -/

namespace Sys2Proof.Machine

/-! ### The register file -/

theorem NicStore.get_set (st : NicStore) (k j : StoreReg) (v : Word32) :
    (st.set k v).get j = if j = k then some v else st.get j := by
  cases k <;> cases j <;> rfl

@[simp] theorem regAt_regOffset (r : Reg) : regAt (regOffset r) = some r := by
  cases r <;> decide

theorem regOffset_of_regAt {ofs : Word32} {r : Reg} (h : regAt ofs = some r) : regOffset r = ofs := by
  simpa using List.find?_some h

theorem regOffset_fits (r : Reg) : ofsFits (regOffset r) := by
  cases r <;> decide

theorem regValue_of_held {r : Reg} {s : State} {v : Word32} (h : s.dev.held r = some v) : regValue r s = (v, s) := by
  simp [regValue, h]

@[simp] theorem regValue_block (r : Reg) (s : State) : (regValue r s).2.block = s.block := by
  unfold regValue; split <;> rfl
@[simp] theorem regValue_dev (r : Reg) (s : State) : (regValue r s).2.dev = s.dev := by
  unfold regValue; split <;> rfl
@[simp] theorem regValue_mem (r : Reg) (s : State) : (regValue r s).2.mem = s.mem := by
  unfold regValue; split <;> rfl
@[simp] theorem regValue_params (r : Reg) (s : State) : (regValue r s).2.params = s.params := by
  unfold regValue; split <;> rfl
@[simp] theorem regValue_commands (r : Reg) (s : State) : (regValue r s).2.commands = s.commands := by
  unfold regValue; split <;> rfl
@[simp] theorem regValue_responses (r : Reg) (s : State) : (regValue r s).2.responses = s.responses := by
  unfold regValue; split <;> rfl
@[simp] theorem regValue_events (r : Reg) (s : State) : (regValue r s).2.events = s.events := by
  unfold regValue; split <;> rfl
@[simp] theorem regValue_bus (r : Reg) (s : State) : (regValue r s).2.bus = s.bus := by
  unfold regValue; split <;> rfl
@[simp] theorem regValue_outside (r : Reg) (s : State) : (regValue r s).2.outside = s.outside := by
  unfold regValue; split <;> rfl
@[simp] theorem regValue_rxOpen (r : Reg) (s : State) : (regValue r s).2.rxOpen = s.rxOpen := by
  unfold regValue; split <;> rfl
@[simp] theorem regValue_schedule (r : Reg) (s : State) : (regValue r s).2.schedule = s.schedule := by
  unfold regValue; split <;> rfl

/-- A read gives the value held, where the NIC holds one. -/
theorem mmioRead_value {r : Reg} {s : State} {v : Word32} (h : s.dev.held r = some v) : (mmioRead r s).1 = v := by
  simp [mmioRead, regValue_of_held h]

@[simp] theorem mmioRead_dev (r : Reg) (s : State) : (mmioRead r s).2.dev = s.dev.afterRead r := by
  simp [mmioRead]

@[simp] theorem mmioRead_bus (r : Reg) (s : State) :
    (mmioRead r s).2.bus = s.bus ++ [.mmioRead r (mmioRead r s).1] := by
  simp [mmioRead]

@[simp] theorem mmioRead_block (r : Reg) (s : State) : (mmioRead r s).2.block = s.block := by
  simp [mmioRead]
@[simp] theorem mmioRead_mem (r : Reg) (s : State) : (mmioRead r s).2.mem = s.mem := by
  simp [mmioRead]
@[simp] theorem mmioRead_params (r : Reg) (s : State) : (mmioRead r s).2.params = s.params := by
  simp [mmioRead]
@[simp] theorem mmioRead_commands (r : Reg) (s : State) : (mmioRead r s).2.commands = s.commands := by
  simp [mmioRead]
@[simp] theorem mmioRead_responses (r : Reg) (s : State) : (mmioRead r s).2.responses = s.responses := by
  simp [mmioRead]
@[simp] theorem mmioRead_events (r : Reg) (s : State) : (mmioRead r s).2.events = s.events := by
  simp [mmioRead]
@[simp] theorem mmioRead_outside (r : Reg) (s : State) : (mmioRead r s).2.outside = s.outside := by
  simp [mmioRead]
@[simp] theorem mmioRead_rxOpen (r : Reg) (s : State) : (mmioRead r s).2.rxOpen = s.rxOpen := by
  simp [mmioRead]
@[simp] theorem mmioRead_schedule (r : Reg) (s : State) : (mmioRead r s).2.schedule = s.schedule := by
  simp [mmioRead]

/-! ### Memory accesses of the block -/

@[simp] theorem memRead_fst (a : Addr) (n : Nat) (s : State) : (memRead a n s).1 = Memory.readLE s.mem a n := rfl

@[simp] theorem memRead_snd (a : Addr) (n : Nat) (s : State) : (memRead a n s).2 = recordAccess (.memRead a n) s := rfl

@[simp] theorem memReadBytes_fst (a : Addr) (n : Nat) (s : State) :
    (memReadBytes a n s).1 = Memory.readBytes s.mem a n := rfl

@[simp] theorem memReadBytes_snd (a : Addr) (n : Nat) (s : State) :
    (memReadBytes a n s).2 = recordAccess (.memReadBytes a n) s := rfl

/-! ### The frame of a command -/

@[simp] theorem Ending.settle_done (c : Command) (r : Response) (t : State) :
    (Ending.done r t).settle c = .next (respond r t) := rfl

@[simp] theorem Ending.settle_raised (c : Command) (f : FaultCode) (t : State) :
    (Ending.raised f t).settle c = .next (takeFault f c t) := rfl

theorem runCommand_live {c : Command} {body : State → Ending} {s : State} (h : s.block.faultCode = 0) :
    runCommand c body s = (body s).settle c := if_pos h

theorem runCommand_faulted {c : Command} {body : State → Ending} {s : State} (h : s.block.faultCode ≠ 0) :
    runCommand c body s = .next (respondFaulted s) := if_neg h

/-- Everything a command can do: the sticky response, its own ending, or its fault taken. -/
theorem runCommand_cases {c : Command} {body : State → Ending} {s t : State} (h : runCommand c body s = .next t) :
    (s.block.faultCode ≠ 0 ∧ t = respondFaulted s) ∨
    (s.block.faultCode = 0 ∧ ∃ r u, body s = .done r u ∧ t = respond r u) ∨
    (s.block.faultCode = 0 ∧ ∃ f u, body s = .raised f u ∧ t = takeFault f c u) := by
  by_cases hf : s.block.faultCode = 0
  · rw [runCommand_live hf] at h
    cases hb : body s with
    | done r u => rw [hb] at h; exact .inr (.inl ⟨hf, r, u, rfl, (Host.Outcome.next.inj h).symm⟩)
    | raised f u => rw [hb] at h; exact .inr (.inr ⟨hf, f, u, rfl, (Host.Outcome.next.inj h).symm⟩)
  · rw [runCommand_faulted hf] at h
    exact .inl ⟨hf, (Host.Outcome.next.inj h).symm⟩

/-- A command always answers a next state. -/
theorem runCommand_next (c : Command) (body : State → Ending) (s : State) : ∃ t, runCommand c body s = .next t := by
  by_cases h : s.block.faultCode = 0
  · rw [runCommand_live h]
    cases body s <;> exact ⟨_, rfl⟩
  · exact ⟨_, runCommand_faulted h⟩

/-! ### Descriptors -/

/-- The 16 bytes of a TX descriptor (10_state R40), in address order. -/
def TxDescriptor.byteAt (x : TxDescriptor) (k : Nat) : Byte :=
  if k < 8 then x.addr.extractLsb' (8 * k) 8
  else if k < 10 then x.length.extractLsb' (8 * (k - 8)) 8
  else if k = 10 then x.cso
  else if k = 11 then x.cmd
  else if k = 12 then x.status
  else if k = 13 then x.css
  else x.special.extractLsb' (8 * (k - 14)) 8

/-- The 16 bytes of an RX descriptor (10_state R45), in address order. -/
def RxDescriptor.byteAt (x : RxDescriptor) (k : Nat) : Byte :=
  if k < 8 then x.addr.extractLsb' (8 * k) 8
  else if k < 10 then x.length.extractLsb' (8 * (k - 8)) 8
  else if k < 12 then x.checksum.extractLsb' (8 * (k - 10)) 8
  else if k = 12 then x.status
  else if k = 13 then x.errors
  else x.special.extractLsb' (8 * (k - 14)) 8

@[simp] theorem writeTxDescriptor_block (d : Addr) (x : TxDescriptor) (s : State) :
    (writeTxDescriptor d x s).block = s.block := by
  simp [writeTxDescriptor]
@[simp] theorem writeTxDescriptor_dev (d : Addr) (x : TxDescriptor) (s : State) :
    (writeTxDescriptor d x s).dev = s.dev := by
  simp [writeTxDescriptor]
@[simp] theorem writeTxDescriptor_params (d : Addr) (x : TxDescriptor) (s : State) :
    (writeTxDescriptor d x s).params = s.params := by
  simp [writeTxDescriptor]
@[simp] theorem writeTxDescriptor_commands (d : Addr) (x : TxDescriptor) (s : State) :
    (writeTxDescriptor d x s).commands = s.commands := by
  simp [writeTxDescriptor]
@[simp] theorem writeTxDescriptor_responses (d : Addr) (x : TxDescriptor) (s : State) :
    (writeTxDescriptor d x s).responses = s.responses := by
  simp [writeTxDescriptor]
@[simp] theorem writeTxDescriptor_events (d : Addr) (x : TxDescriptor) (s : State) :
    (writeTxDescriptor d x s).events = s.events := by
  simp [writeTxDescriptor]
@[simp] theorem writeTxDescriptor_draws (d : Addr) (x : TxDescriptor) (s : State) :
    (writeTxDescriptor d x s).draws = s.draws := by
  simp [writeTxDescriptor]
@[simp] theorem writeTxDescriptor_outside (d : Addr) (x : TxDescriptor) (s : State) :
    (writeTxDescriptor d x s).outside = s.outside := by
  simp [writeTxDescriptor]
@[simp] theorem writeTxDescriptor_rxOpen (d : Addr) (x : TxDescriptor) (s : State) :
    (writeTxDescriptor d x s).rxOpen = s.rxOpen := by
  simp [writeTxDescriptor]
@[simp] theorem writeTxDescriptor_schedule (d : Addr) (x : TxDescriptor) (s : State) :
    (writeTxDescriptor d x s).schedule = s.schedule := by
  simp [writeTxDescriptor]
@[simp] theorem writeRxDescriptor_block (d : Addr) (x : RxDescriptor) (s : State) :
    (writeRxDescriptor d x s).block = s.block := by
  simp [writeRxDescriptor]
@[simp] theorem writeRxDescriptor_dev (d : Addr) (x : RxDescriptor) (s : State) :
    (writeRxDescriptor d x s).dev = s.dev := by
  simp [writeRxDescriptor]
@[simp] theorem writeRxDescriptor_params (d : Addr) (x : RxDescriptor) (s : State) :
    (writeRxDescriptor d x s).params = s.params := by
  simp [writeRxDescriptor]
@[simp] theorem writeRxDescriptor_commands (d : Addr) (x : RxDescriptor) (s : State) :
    (writeRxDescriptor d x s).commands = s.commands := by
  simp [writeRxDescriptor]
@[simp] theorem writeRxDescriptor_responses (d : Addr) (x : RxDescriptor) (s : State) :
    (writeRxDescriptor d x s).responses = s.responses := by
  simp [writeRxDescriptor]
@[simp] theorem writeRxDescriptor_events (d : Addr) (x : RxDescriptor) (s : State) :
    (writeRxDescriptor d x s).events = s.events := by
  simp [writeRxDescriptor]
@[simp] theorem writeRxDescriptor_draws (d : Addr) (x : RxDescriptor) (s : State) :
    (writeRxDescriptor d x s).draws = s.draws := by
  simp [writeRxDescriptor]
@[simp] theorem writeRxDescriptor_outside (d : Addr) (x : RxDescriptor) (s : State) :
    (writeRxDescriptor d x s).outside = s.outside := by
  simp [writeRxDescriptor]
@[simp] theorem writeRxDescriptor_rxOpen (d : Addr) (x : RxDescriptor) (s : State) :
    (writeRxDescriptor d x s).rxOpen = s.rxOpen := by
  simp [writeRxDescriptor]
@[simp] theorem writeRxDescriptor_schedule (d : Addr) (x : RxDescriptor) (s : State) :
    (writeRxDescriptor d x s).schedule = s.schedule := by
  simp [writeRxDescriptor]

theorem writeTxDescriptor_bus (d : Addr) (x : TxDescriptor) (s : State) :
    (writeTxDescriptor d x s).bus = s.bus ++
      [.memWrite d 8 x.addr, .memWrite (d + 8) 2 (x.length.setWidth 64), .memWrite (d + 10) 1 (x.cso.setWidth 64),
       .memWrite (d + 11) 1 (x.cmd.setWidth 64), .memWrite (d + 12) 1 (x.status.setWidth 64),
       .memWrite (d + 13) 1 (x.css.setWidth 64), .memWrite (d + 14) 2 (x.special.setWidth 64)] := by
  simp [writeTxDescriptor]

theorem writeRxDescriptor_bus (d : Addr) (x : RxDescriptor) (s : State) :
    (writeRxDescriptor d x s).bus = s.bus ++
      [.memWrite d 8 x.addr, .memWrite (d + 8) 2 (x.length.setWidth 64),
       .memWrite (d + 10) 2 (x.checksum.setWidth 64), .memWrite (d + 12) 1 (x.status.setWidth 64),
       .memWrite (d + 13) 1 (x.errors.setWidth 64), .memWrite (d + 14) 2 (x.special.setWidth 64)] := by
  simp [writeRxDescriptor]

theorem sub_add_toNat (y d : Addr) (c : Nat) (hc : c < 2 ^ 64) :
    (y - (d + BitVec.ofNat 64 c)).toNat =
      if c ≤ (y - d).toNat then (y - d).toNat - c else 2 ^ 64 + (y - d).toNat - c := by
  have h : y - (d + BitVec.ofNat 64 c) = (y - d) - BitVec.ofNat 64 c := by
    rw [BitVec.sub_eq_iff_eq_add]
    rw [show y - d - BitVec.ofNat 64 c + (d + BitVec.ofNat 64 c) = (y - d - BitVec.ofNat 64 c + BitVec.ofNat 64 c) + d by
      rw [BitVec.add_comm d, BitVec.add_assoc]]
    rw [BitVec.sub_add_cancel, BitVec.sub_add_cancel]
  rw [h]
  generalize y - d = z
  split <;> bv_omega

theorem extractLsb'_setWidth_byte {w : Nat} (v : BitVec w) (hw : w ≤ 64) (k : Nat) :
    (v.setWidth 64).extractLsb' (8 * k) 8 = v.extractLsb' (8 * k) 8 := by
  apply BitVec.eq_of_getLsbD_eq
  intro i hi
  simp only [BitVec.getLsbD_extractLsb', BitVec.getLsbD_setWidth]
  by_cases h : 8 * k + i < 64
  · simp [h]
  · have : v.getLsbD (8 * k + i) = false := BitVec.getLsbD_of_ge _ _ (by omega)
    simp [this]

/-- What `writeTxDescriptor` does to every byte of memory: the descriptor's 16 bytes, and no other. -/
theorem byte_writeTxDescriptor (d y : Addr) (x : TxDescriptor) (s : State) :
    Memory.byte (writeTxDescriptor d x s).mem y =
      if (y - d).toNat < 16 then x.byteAt (y - d).toNat else Memory.byte s.mem y := by
  have e8 := sub_add_toNat y d 8 (by omega)
  have e10 := sub_add_toNat y d 10 (by omega)
  have e11 := sub_add_toNat y d 11 (by omega)
  have e12 := sub_add_toNat y d 12 (by omega)
  have e13 := sub_add_toNat y d 13 (by omega)
  have e14 := sub_add_toNat y d 14 (by omega)
  have hz := (y - d).isLt
  simp only [writeTxDescriptor, memWrite_mem]
  rw [Memory.byte_writeLE _ _ _ _ _ (by omega), Memory.byte_writeLE _ _ _ _ _ (by omega),
    Memory.byte_writeLE _ _ _ _ _ (by omega), Memory.byte_writeLE _ _ _ _ _ (by omega),
    Memory.byte_writeLE _ _ _ _ _ (by omega), Memory.byte_writeLE _ _ _ _ _ (by omega),
    Memory.byte_writeLE _ _ _ _ _ (by omega)]
  simp only [extractLsb'_setWidth_byte _ (show (8:Nat) ≤ 64 by omega), extractLsb'_setWidth_byte _ (show (16:Nat) ≤ 64 by omega)]
  change (y - (d + 8)).toNat = _ at e8
  change (y - (d + 10)).toNat = _ at e10
  change (y - (d + 11)).toNat = _ at e11
  change (y - (d + 12)).toNat = _ at e12
  change (y - (d + 13)).toNat = _ at e13
  change (y - (d + 14)).toNat = _ at e14
  rw [e8, e10, e11, e12, e13, e14]
  generalize (y - d).toNat = z at *
  clear e8 e10 e11 e12 e13 e14
  by_cases h16 : z < 16
  · rw [if_pos h16]
    interval_cases z <;> simp [TxDescriptor.byteAt]
  · rw [if_neg h16]
    have h : ∀ c, c ≤ 14 → ¬ (if c ≤ z then z - c else 2 ^ 64 + z - c) < 2 := by intro c hc; split <;> omega
    have h' : ∀ c, c ≤ 14 → ¬ (if c ≤ z then z - c else 2 ^ 64 + z - c) < 1 := by intro c hc; split <;> omega
    rw [if_neg (h 14 (by omega)), if_neg (h' 13 (by omega)), if_neg (h' 12 (by omega)), if_neg (h' 11 (by omega)),
      if_neg (h' 10 (by omega)), if_neg (by split <;> omega), if_neg (by omega)]

/-- What `writeRxDescriptor` does to every byte of memory: the descriptor's 16 bytes, and no other. -/
theorem byte_writeRxDescriptor (d y : Addr) (x : RxDescriptor) (s : State) :
    Memory.byte (writeRxDescriptor d x s).mem y =
      if (y - d).toNat < 16 then x.byteAt (y - d).toNat else Memory.byte s.mem y := by
  have e8 := sub_add_toNat y d 8 (by omega)
  have e10 := sub_add_toNat y d 10 (by omega)
  have e12 := sub_add_toNat y d 12 (by omega)
  have e13 := sub_add_toNat y d 13 (by omega)
  have e14 := sub_add_toNat y d 14 (by omega)
  have hz := (y - d).isLt
  simp only [writeRxDescriptor, memWrite_mem]
  rw [Memory.byte_writeLE _ _ _ _ _ (by omega), Memory.byte_writeLE _ _ _ _ _ (by omega),
    Memory.byte_writeLE _ _ _ _ _ (by omega), Memory.byte_writeLE _ _ _ _ _ (by omega),
    Memory.byte_writeLE _ _ _ _ _ (by omega), Memory.byte_writeLE _ _ _ _ _ (by omega)]
  simp only [extractLsb'_setWidth_byte _ (show (8:Nat) ≤ 64 by omega), extractLsb'_setWidth_byte _ (show (16:Nat) ≤ 64 by omega)]
  change (y - (d + 8)).toNat = _ at e8
  change (y - (d + 10)).toNat = _ at e10
  change (y - (d + 12)).toNat = _ at e12
  change (y - (d + 13)).toNat = _ at e13
  change (y - (d + 14)).toNat = _ at e14
  rw [e8, e10, e12, e13, e14]
  generalize (y - d).toNat = z at *
  clear e8 e10 e12 e13 e14
  by_cases h16 : z < 16
  · rw [if_pos h16]
    interval_cases z <;> simp [RxDescriptor.byteAt]
  · rw [if_neg h16]
    have h : ∀ c, c ≤ 14 → ¬ (if c ≤ z then z - c else 2 ^ 64 + z - c) < 2 := by intro c hc; split <;> omega
    have h' : ∀ c, c ≤ 14 → ¬ (if c ≤ z then z - c else 2 ^ 64 + z - c) < 1 := by intro c hc; split <;> omega
    rw [if_neg (h 14 (by omega)), if_neg (h' 13 (by omega)), if_neg (h' 12 (by omega)),
      if_neg (h 10 (by omega)), if_neg (by split <;> omega), if_neg (by omega)]

theorem writeTxDescriptor_wf (d : Addr) (x : TxDescriptor) (s : State) (h : Memory.wf s.mem) :
    Memory.wf (writeTxDescriptor d x s).mem := by
  simp only [writeTxDescriptor, memWrite_mem]
  repeat apply Memory.writeLE_wf
  exact h

theorem writeRxDescriptor_wf (d : Addr) (x : RxDescriptor) (s : State) (h : Memory.wf s.mem) :
    Memory.wf (writeRxDescriptor d x s).mem := by
  simp only [writeRxDescriptor, memWrite_mem]
  repeat apply Memory.writeLE_wf
  exact h

end Sys2Proof.Machine
end

