-- ==== Sys2Proof/Laws/Rings.lean ====
section
/-! SUPPORT. What writing a whole descriptor ring does to every byte of memory and to the block's ports, and how the
bytes of a descriptor make it one. -/

namespace Sys2Proof.Machine

/-! ### Ring addresses -/

/-- The distance of an address from slot k, in terms of its distance from the base. -/
theorem sub_slotAddr_toNat (y base : Addr) (k : Nat) (hk : 16 * k < 2 ^ 64) :
    (y - slotAddr base k).toNat =
      if 16 * k ≤ (y - base).toNat then (y - base).toNat - 16 * k else 2 ^ 64 + (y - base).toNat - 16 * k :=
  sub_add_toNat y base (16 * k) hk

theorem slotAddr_sub_toNat (base : Addr) (k : Nat) (hk : 16 * k < 2 ^ 64) : (slotAddr base k - base).toNat = 16 * k := by
  have : slotAddr base k - base = BitVec.ofNat 64 (16 * k) := by
    rw [slotAddr, BitVec.add_comm, BitVec.add_sub_cancel]
  rw [this, BitVec.toNat_ofNat, Nat.mod_eq_of_lt hk]

theorem add_ofNat_sub_toNat (d : Addr) (k : Nat) (hk : k < 2 ^ 64) : (d + BitVec.ofNat 64 k - d).toNat = k := by
  rw [BitVec.add_comm, BitVec.add_sub_cancel, BitVec.toNat_ofNat, Nat.mod_eq_of_lt hk]

/-! ### Whole rings -/

@[simp] theorem writeTxRing_block (base : Addr) (x : TxDescriptor) (n : Nat) (s : State) :
    (writeTxRing base x n s).block = s.block := by
  induction n with
  | zero => rfl
  | succ k ih => simp [writeTxRing, ih]

@[simp] theorem writeTxRing_dev (base : Addr) (x : TxDescriptor) (n : Nat) (s : State) :
    (writeTxRing base x n s).dev = s.dev := by
  induction n with
  | zero => rfl
  | succ k ih => simp [writeTxRing, ih]

@[simp] theorem writeTxRing_params (base : Addr) (x : TxDescriptor) (n : Nat) (s : State) :
    (writeTxRing base x n s).params = s.params := by
  induction n with
  | zero => rfl
  | succ k ih => simp [writeTxRing, ih]

@[simp] theorem writeTxRing_commands (base : Addr) (x : TxDescriptor) (n : Nat) (s : State) :
    (writeTxRing base x n s).commands = s.commands := by
  induction n with
  | zero => rfl
  | succ k ih => simp [writeTxRing, ih]

@[simp] theorem writeTxRing_responses (base : Addr) (x : TxDescriptor) (n : Nat) (s : State) :
    (writeTxRing base x n s).responses = s.responses := by
  induction n with
  | zero => rfl
  | succ k ih => simp [writeTxRing, ih]

@[simp] theorem writeTxRing_events (base : Addr) (x : TxDescriptor) (n : Nat) (s : State) :
    (writeTxRing base x n s).events = s.events := by
  induction n with
  | zero => rfl
  | succ k ih => simp [writeTxRing, ih]

@[simp] theorem writeTxRing_draws (base : Addr) (x : TxDescriptor) (n : Nat) (s : State) :
    (writeTxRing base x n s).draws = s.draws := by
  induction n with
  | zero => rfl
  | succ k ih => simp [writeTxRing, ih]

@[simp] theorem writeTxRing_outside (base : Addr) (x : TxDescriptor) (n : Nat) (s : State) :
    (writeTxRing base x n s).outside = s.outside := by
  induction n with
  | zero => rfl
  | succ k ih => simp [writeTxRing, ih]

@[simp] theorem writeTxRing_rxOpen (base : Addr) (x : TxDescriptor) (n : Nat) (s : State) :
    (writeTxRing base x n s).rxOpen = s.rxOpen := by
  induction n with
  | zero => rfl
  | succ k ih => simp [writeTxRing, ih]

@[simp] theorem writeTxRing_schedule (base : Addr) (x : TxDescriptor) (n : Nat) (s : State) :
    (writeTxRing base x n s).schedule = s.schedule := by
  induction n with
  | zero => rfl
  | succ k ih => simp [writeTxRing, ih]

@[simp] theorem writeRxRing_block (base : Addr) (i : Nat) (xs : List RxDescriptor) (s : State) :
    (writeRxRing base i xs s).block = s.block := by
  induction xs generalizing i s with
  | nil => rfl
  | cons x rest ih => simp [writeRxRing, ih]

@[simp] theorem writeRxRing_dev (base : Addr) (i : Nat) (xs : List RxDescriptor) (s : State) :
    (writeRxRing base i xs s).dev = s.dev := by
  induction xs generalizing i s with
  | nil => rfl
  | cons x rest ih => simp [writeRxRing, ih]

@[simp] theorem writeRxRing_params (base : Addr) (i : Nat) (xs : List RxDescriptor) (s : State) :
    (writeRxRing base i xs s).params = s.params := by
  induction xs generalizing i s with
  | nil => rfl
  | cons x rest ih => simp [writeRxRing, ih]

@[simp] theorem writeRxRing_commands (base : Addr) (i : Nat) (xs : List RxDescriptor) (s : State) :
    (writeRxRing base i xs s).commands = s.commands := by
  induction xs generalizing i s with
  | nil => rfl
  | cons x rest ih => simp [writeRxRing, ih]

@[simp] theorem writeRxRing_responses (base : Addr) (i : Nat) (xs : List RxDescriptor) (s : State) :
    (writeRxRing base i xs s).responses = s.responses := by
  induction xs generalizing i s with
  | nil => rfl
  | cons x rest ih => simp [writeRxRing, ih]

@[simp] theorem writeRxRing_events (base : Addr) (i : Nat) (xs : List RxDescriptor) (s : State) :
    (writeRxRing base i xs s).events = s.events := by
  induction xs generalizing i s with
  | nil => rfl
  | cons x rest ih => simp [writeRxRing, ih]

@[simp] theorem writeRxRing_draws (base : Addr) (i : Nat) (xs : List RxDescriptor) (s : State) :
    (writeRxRing base i xs s).draws = s.draws := by
  induction xs generalizing i s with
  | nil => rfl
  | cons x rest ih => simp [writeRxRing, ih]

@[simp] theorem writeRxRing_outside (base : Addr) (i : Nat) (xs : List RxDescriptor) (s : State) :
    (writeRxRing base i xs s).outside = s.outside := by
  induction xs generalizing i s with
  | nil => rfl
  | cons x rest ih => simp [writeRxRing, ih]

@[simp] theorem writeRxRing_rxOpen (base : Addr) (i : Nat) (xs : List RxDescriptor) (s : State) :
    (writeRxRing base i xs s).rxOpen = s.rxOpen := by
  induction xs generalizing i s with
  | nil => rfl
  | cons x rest ih => simp [writeRxRing, ih]

@[simp] theorem writeRxRing_schedule (base : Addr) (i : Nat) (xs : List RxDescriptor) (s : State) :
    (writeRxRing base i xs s).schedule = s.schedule := by
  induction xs generalizing i s with
  | nil => rfl
  | cons x rest ih => simp [writeRxRing, ih]

theorem byte_writeTxRing (base y : Addr) (x : TxDescriptor) (n : Nat) (s : State) (hn : 16 * n ≤ 2 ^ 64) :
    Memory.byte (writeTxRing base x n s).mem y =
      if (y - base).toNat < 16 * n then x.byteAt ((y - base).toNat % 16) else Memory.byte s.mem y := by
  induction n with
  | zero => simp [writeTxRing]
  | succ k ih =>
    rw [writeTxRing, byte_writeTxDescriptor, ih (by omega), sub_slotAddr_toNat _ _ _ (by omega)]
    have hz := (y - base).isLt
    generalize (y - base).toNat = z at *
    by_cases h1 : 16 * k ≤ z
    · rw [if_pos h1]
      by_cases h2 : z - 16 * k < 16
      · rw [if_pos h2, if_pos (by omega)]
        congr 1
        omega
      · rw [if_neg h2, if_neg (by omega), if_neg (by omega)]
    · rw [if_neg h1, if_neg (by omega), if_pos (by omega), if_pos (by omega)]

theorem byte_writeRxRing (base y : Addr) (i : Nat) (xs : List RxDescriptor) (s : State)
    (hn : 16 * (i + xs.length) ≤ 2 ^ 64) :
    Memory.byte (writeRxRing base i xs s).mem y =
      if 16 * i ≤ (y - base).toNat then
        ((xs[(y - base).toNat / 16 - i]?).map fun x => x.byteAt ((y - base).toNat % 16)).getD (Memory.byte s.mem y)
      else Memory.byte s.mem y := by
  induction xs generalizing i s with
  | nil => simp [writeRxRing]
  | cons x rest ih =>
    simp only [List.length_cons] at hn
    rw [writeRxRing, ih _ _ (by omega), byte_writeRxDescriptor, sub_slotAddr_toNat _ _ _ (by omega)]
    have hz := (y - base).isLt
    generalize (y - base).toNat = z at *
    by_cases h1 : 16 * i ≤ z
    · rw [if_pos h1, if_pos h1]
      by_cases h2 : 16 * (i + 1) ≤ z
      · rw [if_pos h2, if_neg (by omega)]
        have : z / 16 - i = (z / 16 - (i + 1)) + 1 := by omega
        rw [this, List.getElem?_cons_succ]
      · rw [if_neg h2, if_pos (by omega)]
        have h3 : z / 16 - i = 0 := by omega
        have h4 : z - 16 * i = z % 16 := by omega
        rw [h3, h4]
        simp
    · rw [if_neg h1, if_neg (by omega), if_neg h1, if_neg (by omega)]

theorem writeTxRing_bus (base : Addr) (x : TxDescriptor) (n : Nat) (s : State) (hn : 16 * n ≤ 2 ^ 64) :
    ∃ ws, (writeTxRing base x n s).bus = s.bus ++ ws ∧ ws.length = 7 * n ∧
      ∀ y ∈ ws, ∃ a k v, y = Access.memWrite a k v ∧ (a - base).toNat < 16 * n := by
  induction n with
  | zero => exact ⟨[], by simp [writeTxRing], rfl, by simp⟩
  | succ k ih =>
    obtain ⟨ws, h1, h2, h3⟩ := ih (by omega)
    refine ⟨ws ++ _, by rw [writeTxRing, writeTxDescriptor_bus, h1, List.append_assoc], by simp [h2]; omega, ?_⟩
    have off : ∀ c, c < 16 → (slotAddr base k + BitVec.ofNat 64 c - base).toNat < 16 * (k + 1) := by
      intro c hc
      have : slotAddr base k + BitVec.ofNat 64 c - base = BitVec.ofNat 64 (16 * k + c) := by
        rw [slotAddr, BitVec.add_assoc, BitVec.add_comm base, BitVec.add_sub_cancel, ← BitVec.ofNat_add]
      rw [this, BitVec.toNat_ofNat, Nat.mod_eq_of_lt (by omega)]
      omega
    have off0 : (slotAddr base k - base).toNat < 16 * (k + 1) := by
      rw [slotAddr_sub_toNat _ _ (by omega)]; omega
    intro y hy
    rcases List.mem_append.1 hy with hy | hy
    · obtain ⟨a, j, v, rfl, ha⟩ := h3 y hy
      exact ⟨a, j, v, rfl, by omega⟩
    · simp only [List.mem_cons, List.not_mem_nil, or_false] at hy
      rcases hy with rfl | rfl | rfl | rfl | rfl | rfl | rfl
      · exact ⟨_, _, _, rfl, off0⟩
      · exact ⟨_, _, _, rfl, off 8 (by omega)⟩
      · exact ⟨_, _, _, rfl, off 10 (by omega)⟩
      · exact ⟨_, _, _, rfl, off 11 (by omega)⟩
      · exact ⟨_, _, _, rfl, off 12 (by omega)⟩
      · exact ⟨_, _, _, rfl, off 13 (by omega)⟩
      · exact ⟨_, _, _, rfl, off 14 (by omega)⟩

theorem writeRxRing_bus (base : Addr) (i : Nat) (xs : List RxDescriptor) (s : State) :
    ∃ ws, (writeRxRing base i xs s).bus = s.bus ++ ws ∧ ∀ y ∈ ws, ∃ a k v, y = Access.memWrite a k v := by
  induction xs generalizing i s with
  | nil => exact ⟨[], by simp [writeRxRing], by simp⟩
  | cons x rest ih =>
    obtain ⟨ws, h1, h2⟩ := ih (i + 1) (writeRxDescriptor (slotAddr base i) x s)
    rw [writeRxDescriptor_bus, List.append_assoc] at h1
    refine ⟨_, h1, ?_⟩
    intro y hy
    rcases List.mem_append.1 hy with hy | hy
    · simp only [List.mem_cons, List.not_mem_nil, or_false] at hy
      rcases hy with rfl | rfl | rfl | rfl | rfl | rfl <;> exact ⟨_, _, _, rfl⟩
    · exact h2 y hy

theorem writeTxRing_wf (base : Addr) (x : TxDescriptor) (n : Nat) (s : State) (h : Memory.wf s.mem) :
    Memory.wf (writeTxRing base x n s).mem := by
  induction n with
  | zero => exact h
  | succ k ih => exact writeTxDescriptor_wf _ _ _ ih

theorem writeRxRing_wf (base : Addr) (i : Nat) (xs : List RxDescriptor) (s : State) (h : Memory.wf s.mem) :
    Memory.wf (writeRxRing base i xs s).mem := by
  induction xs generalizing i s with
  | nil => exact h
  | cons x rest ih => exact ih _ _ (writeRxDescriptor_wf _ _ _ h)

/-! ### Reading a descriptor back -/

theorem setWidth_low_mask {w : Nat} (v : BitVec w) :
    v.setWidth 64 &&& BitVec.ofNat 64 (2 ^ w - 1) = v.setWidth 64 := by
  apply BitVec.eq_of_getLsbD_eq
  intro i hi
  simp only [BitVec.getLsbD_and, BitVec.getLsbD_setWidth, BitVec.getLsbD_ofNat, Nat.testBit_two_pow_sub_one, hi,
    decide_true, Bool.true_and]
  by_cases h : i < w
  · simp [h]
  · simp [BitVec.getLsbD_of_ge v i (by omega)]

theorem add_ofNat_assoc (d : Addr) (a b : Nat) :
    d + BitVec.ofNat 64 a + BitVec.ofNat 64 b = d + BitVec.ofNat 64 (a + b) := by
  rw [BitVec.add_assoc, ← BitVec.ofNat_add]

/-- The bytes of a TX descriptor are the descriptor. -/
theorem txDescriptorAt_of_bytes (m : Memory) (d : Addr) (x : TxDescriptor)
    (h : ∀ k, k < 16 → Memory.byte m (d + BitVec.ofNat 64 k) = x.byteAt k) : txDescriptorAt m d x := by
  refine ⟨?_, ?_, h 10 (by omega), h 11 (by omega), h 12 (by omega), h 13 (by omega), ?_⟩
  · rw [Memory.readLE_of_bytes m d 8 x.addr fun k hk => by rw [h k (by omega)]; simp [TxDescriptor.byteAt, hk]]
    have := setWidth_low_mask x.addr
    simpa using this
  · rw [Memory.readLE_of_bytes m (d + 8) 2 (x.length.setWidth 64)]
    · exact setWidth_low_mask x.length
    · intro k hk
      have e : d + 8 + BitVec.ofNat 64 k = d + BitVec.ofNat 64 (8 + k) := add_ofNat_assoc d 8 k
      rw [e, h (8 + k) (by omega), extractLsb'_setWidth_byte _ (by omega)]
      have h1 : 8 + k < 10 := by omega
      simp [TxDescriptor.byteAt, h1]
  · rw [Memory.readLE_of_bytes m (d + 14) 2 (x.special.setWidth 64)]
    · exact setWidth_low_mask x.special
    · intro k hk
      have e : d + 14 + BitVec.ofNat 64 k = d + BitVec.ofNat 64 (14 + k) := add_ofNat_assoc d 14 k
      rw [e, h (14 + k) (by omega), extractLsb'_setWidth_byte _ (by omega)]
      interval_cases k <;> simp [TxDescriptor.byteAt]

/-- The bytes of an RX descriptor are the descriptor. -/
theorem rxDescriptorAt_of_bytes (m : Memory) (d : Addr) (x : RxDescriptor)
    (h : ∀ k, k < 16 → Memory.byte m (d + BitVec.ofNat 64 k) = x.byteAt k) : rxDescriptorAt m d x := by
  refine ⟨?_, ?_, ?_, h 12 (by omega), h 13 (by omega), ?_⟩
  · rw [Memory.readLE_of_bytes m d 8 x.addr fun k hk => by rw [h k (by omega)]; simp [RxDescriptor.byteAt, hk]]
    have := setWidth_low_mask x.addr
    simpa using this
  · rw [Memory.readLE_of_bytes m (d + 8) 2 (x.length.setWidth 64)]
    · exact setWidth_low_mask x.length
    · intro k hk
      have e : d + 8 + BitVec.ofNat 64 k = d + BitVec.ofNat 64 (8 + k) := add_ofNat_assoc d 8 k
      rw [e, h (8 + k) (by omega), extractLsb'_setWidth_byte _ (by omega)]
      have h1 : 8 + k < 10 := by omega
      simp [RxDescriptor.byteAt, h1]
  · rw [Memory.readLE_of_bytes m (d + 10) 2 (x.checksum.setWidth 64)]
    · exact setWidth_low_mask x.checksum
    · intro k hk
      have e : d + 10 + BitVec.ofNat 64 k = d + BitVec.ofNat 64 (10 + k) := add_ofNat_assoc d 10 k
      rw [e, h (10 + k) (by omega), extractLsb'_setWidth_byte _ (by omega)]
      interval_cases k <;> simp [RxDescriptor.byteAt]
  · rw [Memory.readLE_of_bytes m (d + 14) 2 (x.special.setWidth 64)]
    · exact setWidth_low_mask x.special
    · intro k hk
      have e : d + 14 + BitVec.ofNat 64 k = d + BitVec.ofNat 64 (14 + k) := add_ofNat_assoc d 14 k
      rw [e, h (14 + k) (by omega), extractLsb'_setWidth_byte _ (by omega)]
      interval_cases k <;> simp [RxDescriptor.byteAt]

end Sys2Proof.Machine
end

