-- ==== Sys2Proof/Laws/Commands.lean ====
section
/-! SUPPORT. Once and for all commands: every command is its own pseudocode inside the common frame, a fault is raised
before anything but reads, and what no command's pseudocode touches. -/

namespace Sys2Proof.Machine

/-- A command's own pseudocode, without the frame of `runCommand`. -/
def bodyOf (i : Instr) : State → Ending :=
  match i with
  | .regRead ofs => withRegister ofs .read fun r t => .done { code := .ok, data := (mmioRead r t).1 } (mmioRead r t).2
  | .regWrite ofs data => withRegister ofs .write fun r t => .done { code := .ok } (mmioWrite r data t)
  | .regSetBits ofs mask => withRegister ofs .rmw (readModifyWrite fun v => v ||| mask)
  | .regClearBits ofs mask => withRegister ofs .rmw (readModifyWrite fun v => v &&& ~~~mask)
  | .txInit base => txInitBody base
  | .txEnqueue addr len eop => txEnqueueBody addr len eop
  | .rxInit base => rxInitBody base
  | .rxPoll => rxPollBody
  | .intAck => fun t =>
      .done { code := .ok, data := (mmioRead .icr t).1, txh := txHint (mmioRead .icr t).1, rxh := rxHint (mmioRead .icr t).1 }
        (mmioRead .icr t).2

theorem exec_eq (i : Instr) (s : State) : exec i s = runCommand (encode i) (bodyOf i) s := by
  cases i <;> rfl

theorem withRegister_of_fault {ofs : Word32} {k : AccessKind} {body : Reg → State → Ending} {s : State} {r : Reg}
    {f : FaultCode} (hr : regAt ofs = some r) (hf : accessFault r k = some f) :
    withRegister ofs k body s = .raised f s := by
  simp [withRegister, hr, hf]

theorem withRegister_of_allowed {ofs : Word32} {k : AccessKind} {body : Reg → State → Ending} {s : State} {r : Reg}
    (hr : regAt ofs = some r) (hf : accessFault r k = none) : withRegister ofs k body s = body r s := by
  simp [withRegister, hr, hf]

theorem withRegister_of_gap {ofs : Word32} {k : AccessKind} {body : Reg → State → Ending} {s : State}
    (hr : regAt ofs = none) : withRegister ofs k body s = .raised .badOffset s := by
  simp [withRegister, hr]

/-- A REG_* command's checks raise a fault in the state they found, or its accesses run. -/
theorem withRegister_cases (ofs : Word32) (k : AccessKind) (body : Reg → State → Ending) (s : State) :
    (∃ f, withRegister ofs k body s = .raised f s) ∨
    ∃ r, regAt ofs = some r ∧ accessFault r k = none ∧ withRegister ofs k body s = body r s := by
  cases hr : regAt ofs with
  | none => exact .inl ⟨_, withRegister_of_gap hr⟩
  | some r =>
    cases hf : accessFault r k with
    | none => exact .inr ⟨r, rfl, hf, withRegister_of_allowed hr hf⟩
    | some f => exact .inl ⟨f, withRegister_of_fault hr hf⟩

/-- The state with more accesses recorded and nothing else changed. -/
def State.afterReads (s : State) (reads : List Access) : State := { s with bus := s.bus ++ reads }

@[simp] theorem State.afterReads_block (s : State) (reads : List Access) : (s.afterReads reads).block = s.block := rfl
@[simp] theorem State.afterReads_dev (s : State) (reads : List Access) : (s.afterReads reads).dev = s.dev := rfl
@[simp] theorem State.afterReads_mem (s : State) (reads : List Access) : (s.afterReads reads).mem = s.mem := rfl
@[simp] theorem State.afterReads_params (s : State) (reads : List Access) : (s.afterReads reads).params = s.params := rfl
@[simp] theorem State.afterReads_commands (s : State) (reads : List Access) : (s.afterReads reads).commands = s.commands := rfl
@[simp] theorem State.afterReads_responses (s : State) (reads : List Access) : (s.afterReads reads).responses = s.responses := rfl
@[simp] theorem State.afterReads_events (s : State) (reads : List Access) : (s.afterReads reads).events = s.events := rfl
@[simp] theorem State.afterReads_draws (s : State) (reads : List Access) : (s.afterReads reads).draws = s.draws := rfl
@[simp] theorem State.afterReads_outside (s : State) (reads : List Access) : (s.afterReads reads).outside = s.outside := rfl
@[simp] theorem State.afterReads_rxOpen (s : State) (reads : List Access) : (s.afterReads reads).rxOpen = s.rxOpen := rfl
@[simp] theorem State.afterReads_schedule (s : State) (reads : List Access) : (s.afterReads reads).schedule = s.schedule := rfl
@[simp] theorem State.afterReads_bus (s : State) (reads : List Access) : (s.afterReads reads).bus = s.bus ++ reads := rfl

theorem State.afterReads_nil (s : State) : s.afterReads [] = s := by simp [State.afterReads]

/-- 60_exceptions R235: every fault check comes before the first write, so a command that raises a fault has only made
reads. -/
theorem bodyOf_raised {i : Instr} {s t : State} {f : FaultCode} (h : bodyOf i s = .raised f t) :
    ∃ reads, t = s.afterReads reads ∧ ∀ x ∈ reads, ∃ a n, x = Access.memRead a n := by
  have reg : ∀ {ofs k} {body : Reg → State → Ending}, (∀ r u, ∃ x v, body r u = .done x v) →
      withRegister ofs k body s = .raised f t → t = s.afterReads [] := by
    intro ofs k body hb hw
    rcases withRegister_cases ofs k body s with ⟨g, hg⟩ | ⟨r, -, -, hg⟩
    · rw [hg] at hw
      injection hw with _ h2
      rw [← h2, State.afterReads_nil]
    · obtain ⟨x, v, hx⟩ := hb r s
      rw [hg, hx] at hw
      exact Ending.noConfusion hw
  cases i with
  | regRead ofs =>
    simp only [bodyOf] at h
    exact ⟨[], reg (fun r u => ⟨_, _, rfl⟩) h, by simp⟩
  | regWrite ofs data =>
    simp only [bodyOf] at h
    exact ⟨[], reg (fun r u => ⟨_, _, rfl⟩) h, by simp⟩
  | regSetBits ofs mask =>
    simp only [bodyOf] at h
    exact ⟨[], reg (fun r u => ⟨_, _, rfl⟩) h, by simp⟩
  | regClearBits ofs mask =>
    simp only [bodyOf] at h
    exact ⟨[], reg (fun r u => ⟨_, _, rfl⟩) h, by simp⟩
  | txInit base =>
    simp only [bodyOf, txInitBody] at h
    refine ⟨[], ?_, by simp⟩
    rw [State.afterReads_nil]
    split at h
    · injection h with _ h2; exact h2.symm
    · split at h
      · exact Ending.noConfusion h
      · injection h with _ h2; exact h2.symm
  | txEnqueue addr len eop =>
    simp only [bodyOf, txEnqueueBody] at h
    refine ⟨[], ?_, by simp⟩
    rw [State.afterReads_nil]
    split at h
    · split at h
      · split at h <;> exact Ending.noConfusion h
      · injection h with _ h2; exact h2.symm
    · injection h with _ h2; exact h2.symm
  | rxInit base =>
    simp only [bodyOf, rxInitBody] at h
    refine ⟨[], ?_, by simp⟩
    rw [State.afterReads_nil]
    split at h
    · injection h with _ h2; exact h2.symm
    · split at h
      · exact Ending.noConfusion h
      · injection h with _ h2; exact h2.symm
  | rxPoll =>
    simp only [bodyOf, rxPollBody] at h
    split at h
    · split at h
      · split at h
        · exact Ending.noConfusion h
        · injection h with _ h2
          refine ⟨[.memRead (s.rxSlot + 12) 1, .memRead (s.rxSlot + 8) 2], h2.symm.trans ?_, ?_⟩
          · simp [State.afterReads, recordAccess, State.rxSlot]
          · intro x hx
            rcases List.mem_cons.1 hx with rfl | hx
            · exact ⟨_, _, rfl⟩
            · rw [List.mem_singleton.1 hx]; exact ⟨_, _, rfl⟩
      · exact Ending.noConfusion h
    · injection h with _ h2
      exact ⟨[], by rw [State.afterReads_nil]; exact h2.symm, by simp⟩
  | intAck => exact Ending.noConfusion h

/-- Taking a fault after reads alone is a precise fault (60_exceptions R236). -/
theorem takeFault_faultedWith (f : FaultCode) (c : Command) (s : State) (reads : List Access) :
    s.faultedWith (takeFault f c (s.afterReads reads)) f.byte c reads := by
  refine ⟨rfl, rfl, rfl, rfl, rfl, rfl, rfl, ?_, rfl, rfl, rfl, rfl⟩
  cases f <;> simp [State.afterReads, FaultCode.byte]

/-- A live command that raises a fault in the state it found answers that fault. -/
theorem exec_raised {i : Instr} {s : State} {f : FaultCode} {reads : List Access} (hl : s.live)
    (h : bodyOf i s = .raised f (s.afterReads reads)) :
    ∃ t, exec i s = .next t ∧ s.faultedWith t f.byte (encode i) reads := by
  rw [exec_eq, runCommand_live hl, h]
  exact ⟨_, rfl, takeFault_faultedWith f _ s reads⟩

/-- A live command that ends with a response answers it. -/
theorem exec_done {i : Instr} {s t : State} {r : Response} (hl : s.live) (h : bodyOf i s = .done r t) :
    exec i s = .next (respond r t) := by
  rw [exec_eq, runCommand_live hl, h]; rfl

/-! ### What no command's own pseudocode touches -/

/-- Two states agree on everything a command's pseudocode cannot reach. -/
structure State.sameOuter (s t : State) : Prop where
  params : t.params = s.params
  commands : t.commands = s.commands
  schedule : t.schedule = s.schedule
  outside : t.outside = s.outside
  responses : t.responses = s.responses
  faultCode : t.block.faultCode = s.block.faultCode
  faultW0 : t.block.faultW0 = s.block.faultW0
  faultW1 : t.block.faultW1 = s.block.faultW1
  bus : s.bus <+: t.bus
  events : s.events <+: t.events
  wire : t.dev.wire = s.dev.wire
  txframe : t.dev.txframe = s.dev.txframe
  draws : s.draws ≤ t.draws

theorem State.sameOuter_refl (s : State) : s.sameOuter s :=
  ⟨rfl, rfl, rfl, rfl, rfl, rfl, rfl, rfl, List.prefix_refl _, List.prefix_refl _, rfl, rfl, Nat.le_refl _⟩

theorem State.sameOuter_trans {s t u : State} (a : s.sameOuter t) (b : t.sameOuter u) : s.sameOuter u :=
  ⟨b.params.trans a.params, b.commands.trans a.commands, b.schedule.trans a.schedule, b.outside.trans a.outside,
    b.responses.trans a.responses, b.faultCode.trans a.faultCode, b.faultW0.trans a.faultW0, b.faultW1.trans a.faultW1,
    a.bus.trans b.bus, a.events.trans b.events, b.wire.trans a.wire, b.txframe.trans a.txframe,
    Nat.le_trans a.draws b.draws⟩

@[simp] theorem Nic.afterWrite_wire (d : Nic) (r : Reg) (v : Word32) : (d.afterWrite r v).wire = d.wire := by
  cases r <;> rfl

@[simp] theorem Nic.afterWrite_txframe (d : Nic) (r : Reg) (v : Word32) : (d.afterWrite r v).txframe = d.txframe := by
  cases r <;> rfl

@[simp] theorem Nic.afterRead_wire (d : Nic) (r : Reg) : (d.afterRead r).wire = d.wire := by
  cases r <;> rfl

@[simp] theorem Nic.afterRead_txframe (d : Nic) (r : Reg) : (d.afterRead r).txframe = d.txframe := by
  cases r <;> rfl

theorem regValue_draws_le (r : Reg) (s : State) : s.draws ≤ (regValue r s).2.draws := by
  unfold regValue
  split
  · exact Nat.le_refl _
  · simp

theorem mmioRead_sameOuter (r : Reg) (s : State) : s.sameOuter (mmioRead r s).2 := by
  constructor <;> simp [mmioRead, regValue_draws_le]

theorem mmioWrite_sameOuter (r : Reg) (v : Word32) (s : State) : s.sameOuter (mmioWrite r v s) := by
  constructor <;> simp

theorem recordAccess_sameOuter (x : Access) (s : State) : s.sameOuter (recordAccess x s) := by
  constructor <;> simp

theorem memWrite_sameOuter (a : Addr) (n : Nat) (v : Word64) (s : State) : s.sameOuter (memWrite a n v s) := by
  constructor <;> simp

theorem emit_sameOuter (e : Event) (s : State) : s.sameOuter (emit e s) := by
  constructor <;> simp

theorem writeTxDescriptor_sameOuter (d : Addr) (x : TxDescriptor) (s : State) :
    s.sameOuter (writeTxDescriptor d x s) := by
  constructor <;> simp [writeTxDescriptor_bus]

theorem writeTxRing_sameOuter (base : Addr) (x : TxDescriptor) (n : Nat) (s : State) :
    s.sameOuter (writeTxRing base x n s) := by
  induction n with
  | zero => exact s.sameOuter_refl
  | succ k ih => exact State.sameOuter_trans ih (writeTxDescriptor_sameOuter _ _ _)

theorem writeRxRing_sameOuter (base : Addr) (i : Nat) (xs : List RxDescriptor) (s : State) :
    s.sameOuter (writeRxRing base i xs s) := by
  obtain ⟨ws, h, -⟩ := writeRxRing_bus base i xs s
  constructor <;> simp [h]

theorem releaseSlot_sameOuter (i : Fin Config.nTx) (s : State) : s.sameOuter (releaseSlot i s) := by
  unfold releaseSlot
  split
  · exact emit_sameOuter _ _
  · exact s.sameOuter_refl

theorem bindSlot_sameOuter (i : Fin Config.nTx) (p : PageId) (s : State) : s.sameOuter (bindSlot i p s) := by
  have h := State.sameOuter_trans (releaseSlot_sameOuter i s) (emit_sameOuter (.pin p) (releaseSlot i s))
  exact ⟨h.params, h.commands, h.schedule, h.outside, h.responses, h.faultCode, h.faultW0, h.faultW1, h.bus, h.events,
    h.wire, h.txframe, h.draws⟩

theorem advanceTxTail_sameOuter (s : State) : s.sameOuter (advanceTxTail s) := by
  constructor <;> simp [advanceTxTail]

theorem advanceRxCursor_sameOuter (s : State) : s.sameOuter (advanceRxCursor s) := by
  constructor <;> simp [advanceRxCursor]

theorem clearRxStatus_sameOuter (d : Addr) (s : State) : s.sameOuter (clearRxStatus d s) := by
  constructor <;> simp [clearRxStatus]

theorem readModifyWrite_sameOuter {f : Word32 → Word32} {r : Reg} {s t : State} {x : Response}
    (h : readModifyWrite f r s = .done x t) : s.sameOuter t := by
  injection h with _ h
  rw [← h]
  exact State.sameOuter_trans (mmioRead_sameOuter r s) (mmioWrite_sameOuter _ _ _)

/-- What every command's own pseudocode leaves as it was when it ends with a response. -/
theorem bodyOf_done {i : Instr} {s t : State} {x : Response} (h : bodyOf i s = .done x t) : s.sameOuter t := by
  have reg : ∀ {ofs k} {body : Reg → State → Ending}, (∀ r y u, body r s = .done y u → s.sameOuter u) →
      withRegister ofs k body s = .done x t → s.sameOuter t := by
    intro ofs k body hb hw
    rcases withRegister_cases ofs k body s with ⟨g, hg⟩ | ⟨r, -, -, hg⟩
    · rw [hg] at hw; exact Ending.noConfusion hw
    · rw [hg] at hw; exact hb r x t hw
  cases i with
  | regRead ofs =>
    simp only [bodyOf] at h
    refine reg (fun r y u hu => ?_) h
    injection hu with _ hu; rw [← hu]; exact mmioRead_sameOuter r s
  | regWrite ofs data =>
    simp only [bodyOf] at h
    refine reg (fun r y u hu => ?_) h
    injection hu with _ hu; rw [← hu]; exact mmioWrite_sameOuter r data s
  | regSetBits ofs mask =>
    simp only [bodyOf] at h
    exact reg (fun r y u hu => readModifyWrite_sameOuter hu) h
  | regClearBits ofs mask =>
    simp only [bodyOf] at h
    exact reg (fun r y u hu => readModifyWrite_sameOuter hu) h
  | txInit base =>
    simp only [bodyOf, txInitBody] at h
    split at h
    · exact Ending.noConfusion h
    · split at h
      · injection h with _ h
        have e := writeTxRing_sameOuter base txDescriptorInit Config.nTx s
        rw [← h]
        constructor <;> simp [txInitRegisters]
        exact e.bus.trans (List.prefix_append _ _)
      · exact Ending.noConfusion h
  | txEnqueue addr len eop =>
    simp only [bodyOf, txEnqueueBody] at h
    split at h
    · split at h
      · split at h
        · injection h with _ h
          rw [← h]
          exact State.sameOuter_trans (recordAccess_sameOuter _ _) (State.sameOuter_trans (bindSlot_sameOuter _ _ _)
            (State.sameOuter_trans (writeTxDescriptor_sameOuter _ _ _) (advanceTxTail_sameOuter _)))
        · injection h with _ h
          rw [← h]
          exact recordAccess_sameOuter _ _
      · exact Ending.noConfusion h
    · exact Ending.noConfusion h
  | rxInit base =>
    simp only [bodyOf, rxInitBody] at h
    split at h
    · exact Ending.noConfusion h
    · split at h
      · injection h with _ h
        have e := writeRxRing_sameOuter base 0 (rxRingInit s.params) s
        rw [← h]
        constructor <;> simp [rxInitRegisters]
        exact e.bus.trans (List.prefix_append _ _)
      · exact Ending.noConfusion h
  | rxPoll =>
    simp only [bodyOf, rxPollBody] at h
    split at h
    · split at h
      · split at h
        · injection h with _ h
          rw [← h]
          exact State.sameOuter_trans (recordAccess_sameOuter _ _) (State.sameOuter_trans (recordAccess_sameOuter _ _)
            (State.sameOuter_trans (recordAccess_sameOuter _ _) (State.sameOuter_trans (recordAccess_sameOuter _ _)
              (State.sameOuter_trans (clearRxStatus_sameOuter _ _) (advanceRxCursor_sameOuter _)))))
        · exact Ending.noConfusion h
      · injection h with _ h
        rw [← h]
        exact recordAccess_sameOuter _ _
    · exact Ending.noConfusion h
  | intAck =>
    injection h with _ h
    rw [← h]
    exact mmioRead_sameOuter .icr s

end Sys2Proof.Machine
end

