-- ==== Sys2Proof/Laws/Bodies.lean ====
section
/-! SUPPORT. What each command's own pseudocode can do, said once: its ending where it completes, and the one inversion
lemma of each command that later proofs cite instead of unfolding it. -/

namespace Sys2Proof.Machine

/-! ### Operand checks -/

theorem ringBaseOk_iff (base : Addr) (n : Nat) :
    ringBaseOk base n = true ↔ base.toNat % 16 = 0 ∧ base.toNat ≤ 2 ^ 64 - 16 * n := by
  simp [ringBaseOk, Config.descBytes]

theorem withinPage_iff (p : Params) (addr : Addr) (len : Word16) :
    withinPage p addr len = true ↔ addr.toNat % p.pageSize + len.toNat ≤ p.pageSize := by
  simp [withinPage]

theorem ddSet_readLE (m : Memory) (d : Addr) : ddSet ((Memory.readLE m (d + 12) 1).setWidth 8) = ddAt m d := by
  simp [ddSet, ddAt]

/-- The state with another block. Its lemmas are proved by cases, not by rfl, so that no check unfolds a whole ring. -/
def State.withBlock (b : Block) (s : State) : State := { s with block := b }

@[simp] theorem State.withBlock_block (b : Block) (s : State) : (s.withBlock b).block = b := by cases s; rfl
@[simp] theorem State.withBlock_dev (b : Block) (s : State) : (s.withBlock b).dev = s.dev := by cases s; rfl
@[simp] theorem State.withBlock_mem (b : Block) (s : State) : (s.withBlock b).mem = s.mem := by cases s; rfl
@[simp] theorem State.withBlock_params (b : Block) (s : State) : (s.withBlock b).params = s.params := by cases s; rfl
@[simp] theorem State.withBlock_commands (b : Block) (s : State) : (s.withBlock b).commands = s.commands := by cases s; rfl
@[simp] theorem State.withBlock_responses (b : Block) (s : State) : (s.withBlock b).responses = s.responses := by cases s; rfl
@[simp] theorem State.withBlock_events (b : Block) (s : State) : (s.withBlock b).events = s.events := by cases s; rfl
@[simp] theorem State.withBlock_bus (b : Block) (s : State) : (s.withBlock b).bus = s.bus := by cases s; rfl
@[simp] theorem State.withBlock_draws (b : Block) (s : State) : (s.withBlock b).draws = s.draws := by cases s; rfl
@[simp] theorem State.withBlock_outside (b : Block) (s : State) : (s.withBlock b).outside = s.outside := by cases s; rfl
@[simp] theorem State.withBlock_rxOpen (b : Block) (s : State) : (s.withBlock b).rxOpen = s.rxOpen := by cases s; rfl
@[simp] theorem State.withBlock_schedule (b : Block) (s : State) : (s.withBlock b).schedule = s.schedule := by cases s; rfl

/-! ### TX ring -/

@[simp] theorem releaseSlot_dev (i : Fin Config.nTx) (s : State) : (releaseSlot i s).dev = s.dev := by
  unfold releaseSlot; split <;> rfl

@[simp] theorem releaseSlot_mem (i : Fin Config.nTx) (s : State) : (releaseSlot i s).mem = s.mem := by
  unfold releaseSlot; split <;> rfl

@[simp] theorem releaseSlot_params (i : Fin Config.nTx) (s : State) : (releaseSlot i s).params = s.params := by
  unfold releaseSlot; split <;> rfl

@[simp] theorem releaseSlot_commands (i : Fin Config.nTx) (s : State) : (releaseSlot i s).commands = s.commands := by
  unfold releaseSlot; split <;> rfl

@[simp] theorem releaseSlot_responses (i : Fin Config.nTx) (s : State) : (releaseSlot i s).responses = s.responses := by
  unfold releaseSlot; split <;> rfl

@[simp] theorem releaseSlot_bus (i : Fin Config.nTx) (s : State) : (releaseSlot i s).bus = s.bus := by
  unfold releaseSlot; split <;> rfl

@[simp] theorem releaseSlot_draws (i : Fin Config.nTx) (s : State) : (releaseSlot i s).draws = s.draws := by
  unfold releaseSlot; split <;> rfl

@[simp] theorem releaseSlot_outside (i : Fin Config.nTx) (s : State) : (releaseSlot i s).outside = s.outside := by
  unfold releaseSlot; split <;> rfl

@[simp] theorem releaseSlot_rxOpen (i : Fin Config.nTx) (s : State) : (releaseSlot i s).rxOpen = s.rxOpen := by
  unfold releaseSlot; split <;> rfl

@[simp] theorem releaseSlot_schedule (i : Fin Config.nTx) (s : State) : (releaseSlot i s).schedule = s.schedule := by
  unfold releaseSlot; split <;> rfl

@[simp] theorem releaseSlot_block (i : Fin Config.nTx) (s : State) : (releaseSlot i s).block = s.block := by
  unfold releaseSlot; split <;> rfl

/-- The Unpin event of a release, if the slot was bound. -/
theorem releaseSlot_events (i : Fin Config.nTx) (s : State) :
    (releaseSlot i s).events = s.events ++ (match s.block.txBound[i] with | some q => [.unpin q] | none => []) := by
  unfold releaseSlot; split <;> simp [*]

@[simp] theorem bindSlot_dev (i : Fin Config.nTx) (p : PageId) (s : State) : (bindSlot i p s).dev = s.dev := by
  simp [bindSlot]

@[simp] theorem bindSlot_mem (i : Fin Config.nTx) (p : PageId) (s : State) : (bindSlot i p s).mem = s.mem := by
  simp [bindSlot]

@[simp] theorem bindSlot_params (i : Fin Config.nTx) (p : PageId) (s : State) : (bindSlot i p s).params = s.params := by
  simp [bindSlot]

@[simp] theorem bindSlot_commands (i : Fin Config.nTx) (p : PageId) (s : State) : (bindSlot i p s).commands = s.commands := by
  simp [bindSlot]

@[simp] theorem bindSlot_responses (i : Fin Config.nTx) (p : PageId) (s : State) : (bindSlot i p s).responses = s.responses := by
  simp [bindSlot]

@[simp] theorem bindSlot_bus (i : Fin Config.nTx) (p : PageId) (s : State) : (bindSlot i p s).bus = s.bus := by
  simp [bindSlot]

@[simp] theorem bindSlot_draws (i : Fin Config.nTx) (p : PageId) (s : State) : (bindSlot i p s).draws = s.draws := by
  simp [bindSlot]

@[simp] theorem bindSlot_outside (i : Fin Config.nTx) (p : PageId) (s : State) : (bindSlot i p s).outside = s.outside := by
  simp [bindSlot]

@[simp] theorem bindSlot_rxOpen (i : Fin Config.nTx) (p : PageId) (s : State) : (bindSlot i p s).rxOpen = s.rxOpen := by
  simp [bindSlot]

@[simp] theorem bindSlot_schedule (i : Fin Config.nTx) (p : PageId) (s : State) : (bindSlot i p s).schedule = s.schedule := by
  simp [bindSlot]

@[simp] theorem bindSlot_block (i : Fin Config.nTx) (p : PageId) (s : State) :
    (bindSlot i p s).block = { s.block with txBound := s.block.txBound.set i (some p) } := by
  simp [bindSlot]

theorem bindSlot_events (i : Fin Config.nTx) (p : PageId) (s : State) :
    (bindSlot i p s).events =
      s.events ++ (match s.block.txBound[i] with | some q => [.unpin q] | none => []) ++ [.pin p] := by
  simp [bindSlot, releaseSlot_events]

@[simp] theorem txInitRegisters_block (base : Addr) (s : State) :
    (txInitRegisters base s).block = s.block := by
  simp [txInitRegisters]

@[simp] theorem txInitRegisters_mem (base : Addr) (s : State) :
    (txInitRegisters base s).mem = s.mem := by
  simp [txInitRegisters]

@[simp] theorem txInitRegisters_params (base : Addr) (s : State) :
    (txInitRegisters base s).params = s.params := by
  simp [txInitRegisters]

@[simp] theorem txInitRegisters_commands (base : Addr) (s : State) :
    (txInitRegisters base s).commands = s.commands := by
  simp [txInitRegisters]

@[simp] theorem txInitRegisters_responses (base : Addr) (s : State) :
    (txInitRegisters base s).responses = s.responses := by
  simp [txInitRegisters]

@[simp] theorem txInitRegisters_events (base : Addr) (s : State) :
    (txInitRegisters base s).events = s.events := by
  simp [txInitRegisters]

@[simp] theorem txInitRegisters_draws (base : Addr) (s : State) :
    (txInitRegisters base s).draws = s.draws := by
  simp [txInitRegisters]

@[simp] theorem txInitRegisters_outside (base : Addr) (s : State) :
    (txInitRegisters base s).outside = s.outside := by
  simp [txInitRegisters]

@[simp] theorem txInitRegisters_rxOpen (base : Addr) (s : State) :
    (txInitRegisters base s).rxOpen = s.rxOpen := by
  simp [txInitRegisters]

@[simp] theorem txInitRegisters_schedule (base : Addr) (s : State) :
    (txInitRegisters base s).schedule = s.schedule := by
  simp [txInitRegisters]

@[simp] theorem txInitRegisters_dev (base : Addr) (s : State) :
    (txInitRegisters base s).dev =
      { s.dev with
        store := { s.dev.store with
          tdbal := some (base.extractLsb' 0 32), tdbah := some (base.extractLsb' 32 32), tdlen := some 0x100
          tctl := some 0x0004010A, tipg := some 0x0140200A }
        tdh := some 0, tdt := some 0 } := by
  simp [txInitRegisters]; rfl

theorem txInitRegisters_bus (base : Addr) (s : State) :
    (txInitRegisters base s).bus = s.bus ++
      [.mmioWrite .tdbal (base.extractLsb' 0 32), .mmioWrite .tdbah (base.extractLsb' 32 32),
       .mmioWrite .tdlen 0x100, .mmioWrite .tdh 0, .mmioWrite .tdt 0, .mmioWrite .tctl 0x0004010A,
       .mmioWrite .tipg 0x0140200A] := by
  simp [txInitRegisters]; rfl

/-- The state TX_INIT completes in, but for its response. -/
def txInitDone (base : Addr) (s : State) : State :=
  (txInitRegisters base (writeTxRing base txDescriptorInit Config.nTx s)).withBlock
    { s.block with
      txBase := base, txTail := ⟨0, by decide⟩, txBound := Vector.replicate Config.nTx none, txReady := true }

theorem txInitBody_done {s : State} {base : Addr} (h : s.block.txReady = false)
    (hb : ringBaseOk base Config.nTx = true) : txInitBody base s = .done { code := .ok } (txInitDone base s) := by
  simp [txInitBody, h, hb, txInitDone, State.withBlock]

@[simp] theorem txInitDone_params (base : Addr) (s : State) : (txInitDone base s).params = s.params := by
  rw [txInitDone, State.withBlock_params, txInitRegisters_params, writeTxRing_params]

@[simp] theorem txInitDone_commands (base : Addr) (s : State) : (txInitDone base s).commands = s.commands := by
  rw [txInitDone, State.withBlock_commands, txInitRegisters_commands, writeTxRing_commands]

@[simp] theorem txInitDone_responses (base : Addr) (s : State) : (txInitDone base s).responses = s.responses := by
  rw [txInitDone, State.withBlock_responses, txInitRegisters_responses, writeTxRing_responses]

@[simp] theorem txInitDone_events (base : Addr) (s : State) : (txInitDone base s).events = s.events := by
  rw [txInitDone, State.withBlock_events, txInitRegisters_events, writeTxRing_events]

@[simp] theorem txInitDone_draws (base : Addr) (s : State) : (txInitDone base s).draws = s.draws := by
  rw [txInitDone, State.withBlock_draws, txInitRegisters_draws, writeTxRing_draws]

@[simp] theorem txInitDone_outside (base : Addr) (s : State) : (txInitDone base s).outside = s.outside := by
  rw [txInitDone, State.withBlock_outside, txInitRegisters_outside, writeTxRing_outside]

@[simp] theorem txInitDone_rxOpen (base : Addr) (s : State) : (txInitDone base s).rxOpen = s.rxOpen := by
  rw [txInitDone, State.withBlock_rxOpen, txInitRegisters_rxOpen, writeTxRing_rxOpen]

@[simp] theorem txInitDone_schedule (base : Addr) (s : State) : (txInitDone base s).schedule = s.schedule := by
  rw [txInitDone, State.withBlock_schedule, txInitRegisters_schedule, writeTxRing_schedule]

@[simp] theorem txInitDone_block (base : Addr) (s : State) :
    (txInitDone base s).block =
      { s.block with txBase := base, txTail := ⟨0, by decide⟩, txBound := Vector.replicate Config.nTx none, txReady := true } := by
  rw [txInitDone, State.withBlock_block]

@[simp] theorem txInitDone_mem (base : Addr) (s : State) :
    (txInitDone base s).mem = (writeTxRing base txDescriptorInit Config.nTx s).mem := by
  rw [txInitDone, State.withBlock_mem, txInitRegisters_mem]

@[simp] theorem txInitDone_dev (base : Addr) (s : State) :
    (txInitDone base s).dev =
      { s.dev with
        store := { s.dev.store with
          tdbal := some (base.extractLsb' 0 32), tdbah := some (base.extractLsb' 32 32), tdlen := some 0x100
          tctl := some 0x0004010A, tipg := some 0x0140200A }
        tdh := some 0, tdt := some 0 } := by
  rw [txInitDone, State.withBlock_dev, txInitRegisters_dev, writeTxRing_dev]

theorem txInitDone_bus (base : Addr) (s : State) :
    (txInitDone base s).bus = (writeTxRing base txDescriptorInit Config.nTx s).bus ++
      [.mmioWrite .tdbal (base.extractLsb' 0 32), .mmioWrite .tdbah (base.extractLsb' 32 32),
       .mmioWrite .tdlen 0x100, .mmioWrite .tdh 0, .mmioWrite .tdt 0, .mmioWrite .tctl 0x0004010A,
       .mmioWrite .tipg 0x0140200A] := by
  rw [txInitDone, State.withBlock_bus, txInitRegisters_bus]

/-- The state TX_ENQUEUE completes in where the slot was free, but for its response. -/
def txEnqueueDone (addr : Addr) (len : Word16) (eop : Bool) (s : State) : State :=
  advanceTxTail (writeTxDescriptor s.txSlot (txDescriptorPosted addr len eop)
    (bindSlot s.block.txTail (pageOf s.params addr) (s.afterReads [.memRead (s.txSlot + 12) 1])))

theorem txEnqueueBody_ready {s : State} {addr : Addr} {len : Word16} {eop : Bool} (hr : s.block.txReady = true)
    (hw : withinPage s.params addr len = true) :
    txEnqueueBody addr len eop s =
      if ddAt s.mem s.txSlot then .done { code := .ok } (txEnqueueDone addr len eop s)
      else .done { code := .busy } (s.afterReads [.memRead (s.txSlot + 12) 1]) := by
  simp only [txEnqueueBody, hr, hw, if_true, memRead_fst, memRead_snd, ddSet_readLE]
  rfl

@[simp] theorem txEnqueueDone_params (addr : Addr) (len : Word16) (eop : Bool) (s : State) :
    (txEnqueueDone addr len eop s).params = s.params := by
  simp [txEnqueueDone, advanceTxTail, State.afterReads]

@[simp] theorem txEnqueueDone_commands (addr : Addr) (len : Word16) (eop : Bool) (s : State) :
    (txEnqueueDone addr len eop s).commands = s.commands := by
  simp [txEnqueueDone, advanceTxTail, State.afterReads]

@[simp] theorem txEnqueueDone_responses (addr : Addr) (len : Word16) (eop : Bool) (s : State) :
    (txEnqueueDone addr len eop s).responses = s.responses := by
  simp [txEnqueueDone, advanceTxTail, State.afterReads]

@[simp] theorem txEnqueueDone_draws (addr : Addr) (len : Word16) (eop : Bool) (s : State) :
    (txEnqueueDone addr len eop s).draws = s.draws := by
  simp [txEnqueueDone, advanceTxTail, State.afterReads]

@[simp] theorem txEnqueueDone_outside (addr : Addr) (len : Word16) (eop : Bool) (s : State) :
    (txEnqueueDone addr len eop s).outside = s.outside := by
  simp [txEnqueueDone, advanceTxTail, State.afterReads]

@[simp] theorem txEnqueueDone_rxOpen (addr : Addr) (len : Word16) (eop : Bool) (s : State) :
    (txEnqueueDone addr len eop s).rxOpen = s.rxOpen := by
  simp [txEnqueueDone, advanceTxTail, State.afterReads]

@[simp] theorem txEnqueueDone_schedule (addr : Addr) (len : Word16) (eop : Bool) (s : State) :
    (txEnqueueDone addr len eop s).schedule = s.schedule := by
  simp [txEnqueueDone, advanceTxTail, State.afterReads]

theorem txEnqueueDone_mem (addr : Addr) (len : Word16) (eop : Bool) (s : State) :
    (txEnqueueDone addr len eop s).mem =
      (writeTxDescriptor s.txSlot (txDescriptorPosted addr len eop)
        (bindSlot s.block.txTail (pageOf s.params addr) (s.afterReads [.memRead (s.txSlot + 12) 1]))).mem := by
  simp only [txEnqueueDone, advanceTxTail, mmioWrite_mem]

@[simp] theorem txEnqueueDone_block (addr : Addr) (len : Word16) (eop : Bool) (s : State) :
    (txEnqueueDone addr len eop s).block =
      { s.block with
        txTail := nextSlot s.block.txTail
        txBound := s.block.txBound.set s.block.txTail (some (pageOf s.params addr)) } := by
  simp [txEnqueueDone, advanceTxTail, State.afterReads]

@[simp] theorem txEnqueueDone_dev (addr : Addr) (len : Word16) (eop : Bool) (s : State) :
    (txEnqueueDone addr len eop s).dev =
      { s.dev with tdt := some (BitVec.ofNat 32 (nextSlot s.block.txTail).val) } := by
  simp [txEnqueueDone, advanceTxTail, State.afterReads]; rfl

theorem txEnqueueDone_events (addr : Addr) (len : Word16) (eop : Bool) (s : State) :
    (txEnqueueDone addr len eop s).events =
      s.events ++ (match s.block.txBound[s.block.txTail] with | some q => [.unpin q] | none => []) ++
        [.pin (pageOf s.params addr)] := by
  simp [txEnqueueDone, advanceTxTail, bindSlot_events, State.afterReads]

theorem txEnqueueDone_bus (addr : Addr) (len : Word16) (eop : Bool) (s : State) :
    (txEnqueueDone addr len eop s).bus =
      s.bus ++ [.memRead (s.txSlot + 12) 1, .memWrite s.txSlot 8 addr, .memWrite (s.txSlot + 8) 2 (len.setWidth 64),
        .memWrite (s.txSlot + 10) 1 0, .memWrite (s.txSlot + 11) 1 ((txCmdByte eop).setWidth 64),
        .memWrite (s.txSlot + 12) 1 0, .memWrite (s.txSlot + 13) 1 0, .memWrite (s.txSlot + 14) 2 0,
        .mmioWrite .tdt (BitVec.ofNat 32 (nextSlot s.block.txTail).val)] := by
  simp [txEnqueueDone, advanceTxTail, writeTxDescriptor_bus, txDescriptorPosted, State.afterReads]

/-- TX_ENQUEUE changes the 16 bytes of its slot, and no other byte. -/
theorem byte_txEnqueueDone (addr y : Addr) (len : Word16) (eop : Bool) (s : State) :
    Memory.byte (txEnqueueDone addr len eop s).mem y =
      if (y - s.txSlot).toNat < 16 then (txDescriptorPosted addr len eop).byteAt (y - s.txSlot).toNat
      else Memory.byte s.mem y := by
  rw [txEnqueueDone_mem, byte_writeTxDescriptor, bindSlot_mem]
  rfl

/-! ### RX ring -/

@[simp] theorem rxInitRegisters_block (base : Addr) (s : State) :
    (rxInitRegisters base s).block = s.block := by
  simp [rxInitRegisters]

@[simp] theorem rxInitRegisters_mem (base : Addr) (s : State) :
    (rxInitRegisters base s).mem = s.mem := by
  simp [rxInitRegisters]

@[simp] theorem rxInitRegisters_params (base : Addr) (s : State) :
    (rxInitRegisters base s).params = s.params := by
  simp [rxInitRegisters]

@[simp] theorem rxInitRegisters_commands (base : Addr) (s : State) :
    (rxInitRegisters base s).commands = s.commands := by
  simp [rxInitRegisters]

@[simp] theorem rxInitRegisters_responses (base : Addr) (s : State) :
    (rxInitRegisters base s).responses = s.responses := by
  simp [rxInitRegisters]

@[simp] theorem rxInitRegisters_events (base : Addr) (s : State) :
    (rxInitRegisters base s).events = s.events := by
  simp [rxInitRegisters]

@[simp] theorem rxInitRegisters_draws (base : Addr) (s : State) :
    (rxInitRegisters base s).draws = s.draws := by
  simp [rxInitRegisters]

@[simp] theorem rxInitRegisters_outside (base : Addr) (s : State) :
    (rxInitRegisters base s).outside = s.outside := by
  simp [rxInitRegisters]

@[simp] theorem rxInitRegisters_rxOpen (base : Addr) (s : State) :
    (rxInitRegisters base s).rxOpen = s.rxOpen := by
  simp [rxInitRegisters]

@[simp] theorem rxInitRegisters_schedule (base : Addr) (s : State) :
    (rxInitRegisters base s).schedule = s.schedule := by
  simp [rxInitRegisters]

@[simp] theorem rxInitRegisters_dev (base : Addr) (s : State) :
    (rxInitRegisters base s).dev =
      { s.dev with
        store := { s.dev.store with
          rdbal := some (base.extractLsb' 0 32), rdbah := some (base.extractLsb' 32 32), rdlen := some 0x800 }
        rdh := some 0, rdt := some 0x7F } := by
  simp [rxInitRegisters]; rfl

theorem rxInitRegisters_bus (base : Addr) (s : State) :
    (rxInitRegisters base s).bus = s.bus ++
      [.mmioWrite .rdbal (base.extractLsb' 0 32), .mmioWrite .rdbah (base.extractLsb' 32 32),
       .mmioWrite .rdlen 0x800, .mmioWrite .rdh 0, .mmioWrite .rdt 0x7F] := by
  simp [rxInitRegisters]; rfl

/-- The state RX_INIT completes in, but for its response. -/
def rxInitDone (base : Addr) (s : State) : State :=
  (rxInitRegisters base (writeRxRing base 0 (rxRingInit s.params) s)).withBlock
    { s.block with rxBase := base, rxCursor := ⟨0, by decide⟩, rxReady := true }

theorem rxInitBody_done {s : State} {base : Addr} (h : s.block.rxReady = false)
    (hb : ringBaseOk base Config.mRx = true) : rxInitBody base s = .done { code := .ok } (rxInitDone base s) := by
  simp [rxInitBody, h, hb, rxInitDone, State.withBlock]

@[simp] theorem rxInitDone_params (base : Addr) (s : State) : (rxInitDone base s).params = s.params := by
  rw [rxInitDone, State.withBlock_params, rxInitRegisters_params, writeRxRing_params]

@[simp] theorem rxInitDone_commands (base : Addr) (s : State) : (rxInitDone base s).commands = s.commands := by
  rw [rxInitDone, State.withBlock_commands, rxInitRegisters_commands, writeRxRing_commands]

@[simp] theorem rxInitDone_responses (base : Addr) (s : State) : (rxInitDone base s).responses = s.responses := by
  rw [rxInitDone, State.withBlock_responses, rxInitRegisters_responses, writeRxRing_responses]

@[simp] theorem rxInitDone_events (base : Addr) (s : State) : (rxInitDone base s).events = s.events := by
  rw [rxInitDone, State.withBlock_events, rxInitRegisters_events, writeRxRing_events]

@[simp] theorem rxInitDone_draws (base : Addr) (s : State) : (rxInitDone base s).draws = s.draws := by
  rw [rxInitDone, State.withBlock_draws, rxInitRegisters_draws, writeRxRing_draws]

@[simp] theorem rxInitDone_outside (base : Addr) (s : State) : (rxInitDone base s).outside = s.outside := by
  rw [rxInitDone, State.withBlock_outside, rxInitRegisters_outside, writeRxRing_outside]

@[simp] theorem rxInitDone_rxOpen (base : Addr) (s : State) : (rxInitDone base s).rxOpen = s.rxOpen := by
  rw [rxInitDone, State.withBlock_rxOpen, rxInitRegisters_rxOpen, writeRxRing_rxOpen]

@[simp] theorem rxInitDone_schedule (base : Addr) (s : State) : (rxInitDone base s).schedule = s.schedule := by
  rw [rxInitDone, State.withBlock_schedule, rxInitRegisters_schedule, writeRxRing_schedule]

@[simp] theorem rxInitDone_block (base : Addr) (s : State) :
    (rxInitDone base s).block =
      { s.block with rxBase := base, rxCursor := ⟨0, by decide⟩, rxReady := true } := by
  rw [rxInitDone, State.withBlock_block]

@[simp] theorem rxInitDone_mem (base : Addr) (s : State) :
    (rxInitDone base s).mem = (writeRxRing base 0 (rxRingInit s.params) s).mem := by
  rw [rxInitDone, State.withBlock_mem, rxInitRegisters_mem]

@[simp] theorem rxInitDone_dev (base : Addr) (s : State) :
    (rxInitDone base s).dev =
      { s.dev with
        store := { s.dev.store with
          rdbal := some (base.extractLsb' 0 32), rdbah := some (base.extractLsb' 32 32), rdlen := some 0x800 }
        rdh := some 0, rdt := some 0x7F } := by
  rw [rxInitDone, State.withBlock_dev, rxInitRegisters_dev, writeRxRing_dev]

theorem rxInitDone_bus (base : Addr) (s : State) :
    (rxInitDone base s).bus = (writeRxRing base 0 (rxRingInit s.params) s).bus ++
      [.mmioWrite .rdbal (base.extractLsb' 0 32), .mmioWrite .rdbah (base.extractLsb' 32 32),
       .mmioWrite .rdlen 0x800, .mmioWrite .rdh 0, .mmioWrite .rdt 0x7F] := by
  rw [rxInitDone, State.withBlock_bus, rxInitRegisters_bus]

/-- The length field of the descriptor at `rx_cursor`. -/
def State.rxLength (s : State) : Word64 := Memory.readLE s.mem (s.rxSlot + 8) 2

/-- The accesses of a delivering RX_POLL before its first write. -/
def State.rxPollReads (s : State) : List Access :=
  [.memRead (s.rxSlot + 12) 1, .memRead (s.rxSlot + 8) 2, .memRead (s.rxSlot + 13) 1,
   .memReadBytes (s.params.rxBufAddr s.block.rxCursor) s.rxLength.toNat]

/-- The response of a delivering RX_POLL. -/
def State.rxPollResponse (s : State) : Response where
  code := .ok
  plen := s.rxLength.setWidth 16
  rstat := Memory.byte s.mem (s.rxSlot + 12)
  rerr := Memory.byte s.mem (s.rxSlot + 13)
  slot := BitVec.ofNat 16 s.block.rxCursor.val
  bytes := Memory.readBytes s.mem (s.params.rxBufAddr s.block.rxCursor) s.rxLength.toNat

/-- The state a delivering RX_POLL completes in, but for its response. -/
def rxPollDone (s : State) : State := advanceRxCursor (clearRxStatus s.rxSlot (s.afterReads s.rxPollReads))

@[simp] theorem rxPollDone_params (s : State) : (rxPollDone s).params = s.params := by
  simp [rxPollDone, advanceRxCursor, clearRxStatus, State.afterReads]

@[simp] theorem rxPollDone_commands (s : State) : (rxPollDone s).commands = s.commands := by
  simp [rxPollDone, advanceRxCursor, clearRxStatus, State.afterReads]

@[simp] theorem rxPollDone_responses (s : State) : (rxPollDone s).responses = s.responses := by
  simp [rxPollDone, advanceRxCursor, clearRxStatus, State.afterReads]

@[simp] theorem rxPollDone_events (s : State) : (rxPollDone s).events = s.events := by
  simp [rxPollDone, advanceRxCursor, clearRxStatus, State.afterReads]

@[simp] theorem rxPollDone_draws (s : State) : (rxPollDone s).draws = s.draws := by
  simp [rxPollDone, advanceRxCursor, clearRxStatus, State.afterReads]

@[simp] theorem rxPollDone_outside (s : State) : (rxPollDone s).outside = s.outside := by
  simp [rxPollDone, advanceRxCursor, clearRxStatus, State.afterReads]

@[simp] theorem rxPollDone_rxOpen (s : State) : (rxPollDone s).rxOpen = s.rxOpen.set s.block.rxCursor true := by
  simp [rxPollDone, advanceRxCursor, clearRxStatus, State.afterReads]

@[simp] theorem rxPollDone_schedule (s : State) : (rxPollDone s).schedule = s.schedule := by
  simp [rxPollDone, advanceRxCursor, clearRxStatus, State.afterReads]

@[simp] theorem rxPollDone_block (s : State) :
    (rxPollDone s).block = { s.block with rxCursor := nextSlot s.block.rxCursor } := by
  simp [rxPollDone, advanceRxCursor, clearRxStatus, State.afterReads]

@[simp] theorem rxPollDone_dev (s : State) :
    (rxPollDone s).dev = { s.dev with rdt := some (BitVec.ofNat 32 s.block.rxCursor.val) } := by
  simp [rxPollDone, advanceRxCursor, clearRxStatus, State.afterReads]; rfl

theorem rxPollDone_bus (s : State) :
    (rxPollDone s).bus = s.bus ++ s.rxPollReads ++
      [.memWrite (s.rxSlot + 12) 1 0, .memWrite (s.rxSlot + 13) 1 0,
       .mmioWrite .rdt (BitVec.ofNat 32 s.block.rxCursor.val)] := by
  simp [rxPollDone, advanceRxCursor, clearRxStatus, State.afterReads]

theorem rxPollDone_mem (s : State) :
    (rxPollDone s).mem = Memory.writeLE (Memory.writeLE s.mem (s.rxSlot + 12) 1 0) (s.rxSlot + 13) 1 0 := by
  simp only [rxPollDone, advanceRxCursor, clearRxStatus, mmioWrite_mem, memWrite_mem, State.afterReads]

theorem rxPollBody_delivers {s : State} (hr : s.block.rxReady = true) (hd : ddAt s.mem s.rxSlot = true)
    (hl : s.rxLength.toNat ≤ s.params.pageSize) : rxPollBody s = .done s.rxPollResponse (rxPollDone s) := by
  simp only [rxPollBody, hr, if_true, memRead_fst, memRead_snd, memReadBytes_fst, memReadBytes_snd, recordAccess_mem,
    ddSet_readLE]
  refine (if_pos hd).trans ((if_pos hl).trans ?_)
  simp [State.rxPollResponse, rxPollDone, State.rxPollReads, State.rxLength, State.rxSlot, State.afterReads, recordAccess]

theorem rxPollBody_overrun {s : State} (hr : s.block.rxReady = true) (hd : ddAt s.mem s.rxSlot = true)
    (hl : ¬ s.rxLength.toNat ≤ s.params.pageSize) :
    rxPollBody s = .raised .rxLengthOverrun
      (s.afterReads [.memRead (s.rxSlot + 12) 1, .memRead (s.rxSlot + 8) 2]) := by
  simp only [rxPollBody, hr, if_true, memRead_fst, memRead_snd, recordAccess_mem, ddSet_readLE]
  refine (if_pos hd).trans ((if_neg hl).trans ?_)
  simp [State.rxSlot, State.afterReads, recordAccess]

theorem rxPollBody_noData {s : State} (hr : s.block.rxReady = true) (hd : ddAt s.mem s.rxSlot = false) :
    rxPollBody s = .done { code := .noData } (s.afterReads [.memRead (s.rxSlot + 12) 1]) := by
  simp only [rxPollBody, hr, if_true, memRead_fst, memRead_snd, recordAccess_mem, ddSet_readLE]
  exact if_neg (by rw [State.rxSlot] at hd; simp [hd])

/-! ### Inversion: the state a command that responds leaves -/

theorem regRead_done {ofs : Word32} {s t : State} {x : Response} (h : bodyOf (.regRead ofs) s = .done x t) :
    ∃ r, regAt ofs = some r ∧ t = (mmioRead r s).2 := by
  simp only [bodyOf] at h
  rcases withRegister_cases ofs .read _ s with ⟨f, hf⟩ | ⟨r, hr, -, hf⟩ <;> rw [hf] at h
  · exact Ending.noConfusion h
  · injection h with _ h
    exact ⟨r, hr, h.symm⟩

theorem regWrite_done {ofs data : Word32} {s t : State} {x : Response} (h : bodyOf (.regWrite ofs data) s = .done x t) :
    ∃ r, accessFault r .write = none ∧ t = mmioWrite r data s := by
  simp only [bodyOf] at h
  rcases withRegister_cases ofs .write _ s with ⟨f, hf⟩ | ⟨r, -, ha, hf⟩ <;> rw [hf] at h
  · exact Ending.noConfusion h
  · injection h with _ h
    exact ⟨r, ha, h.symm⟩

theorem rmw_done {ofs : Word32} {f : Word32 → Word32} {s t : State} {x : Response}
    (h : withRegister ofs .rmw (readModifyWrite f) s = .done x t) :
    ∃ r v, accessFault r .rmw = none ∧ t = mmioWrite r v (mmioRead r s).2 := by
  rcases withRegister_cases ofs .rmw (readModifyWrite f) s with ⟨g, hg⟩ | ⟨r, -, ha, hg⟩ <;> rw [hg] at h
  · exact Ending.noConfusion h
  · injection h with _ h
    exact ⟨r, _, ha, h.symm⟩

theorem txInit_done {base : Addr} {s t : State} {x : Response} (h : bodyOf (.txInit base) s = .done x t) :
    s.block.txReady = false ∧ ringBaseOk base Config.nTx = true ∧ t = txInitDone base s := by
  simp only [bodyOf] at h
  cases hr : s.block.txReady with
  | true => simp [txInitBody, hr] at h
  | false =>
    cases hb : ringBaseOk base Config.nTx with
    | false => simp [txInitBody, hr, hb] at h
    | true =>
      rw [txInitBody_done hr hb] at h
      injection h with _ h
      exact ⟨rfl, rfl, h.symm⟩

theorem txEnqueue_done {addr : Addr} {len : Word16} {eop : Bool} {s t : State} {x : Response}
    (h : bodyOf (.txEnqueue addr len eop) s = .done x t) :
    s.block.txReady = true ∧
      (t = s.afterReads [.memRead (s.txSlot + 12) 1] ∨ ddAt s.mem s.txSlot = true ∧ t = txEnqueueDone addr len eop s) := by
  simp only [bodyOf] at h
  cases hr : s.block.txReady with
  | false => simp [txEnqueueBody, hr] at h
  | true =>
    cases hw : withinPage s.params addr len with
    | false => simp [txEnqueueBody, hr, hw] at h
    | true =>
      rw [txEnqueueBody_ready hr hw] at h
      split at h
      · rename_i hd
        injection h with _ h
        exact ⟨rfl, .inr ⟨hd, h.symm⟩⟩
      · injection h with _ h
        exact ⟨rfl, .inl h.symm⟩

theorem rxInit_done {base : Addr} {s t : State} {x : Response} (h : bodyOf (.rxInit base) s = .done x t) :
    s.block.rxReady = false ∧ ringBaseOk base Config.mRx = true ∧ t = rxInitDone base s := by
  simp only [bodyOf] at h
  cases hr : s.block.rxReady with
  | true => simp [rxInitBody, hr] at h
  | false =>
    cases hb : ringBaseOk base Config.mRx with
    | false => simp [rxInitBody, hr, hb] at h
    | true =>
      rw [rxInitBody_done hr hb] at h
      injection h with _ h
      exact ⟨rfl, rfl, h.symm⟩

theorem rxPoll_done {s t : State} {x : Response} (h : bodyOf .rxPoll s = .done x t) :
    s.block.rxReady = true ∧
      (t = s.afterReads [.memRead (s.rxSlot + 12) 1] ∨ ddAt s.mem s.rxSlot = true ∧ t = rxPollDone s) := by
  simp only [bodyOf] at h
  cases hr : s.block.rxReady with
  | false => simp [rxPollBody, hr] at h
  | true =>
    cases hd : ddAt s.mem s.rxSlot with
    | false =>
      rw [rxPollBody_noData hr hd] at h
      injection h with _ h
      exact ⟨rfl, .inl h.symm⟩
    | true =>
      by_cases hl : s.rxLength.toNat ≤ s.params.pageSize
      · rw [rxPollBody_delivers hr hd hl] at h
        injection h with _ h
        exact ⟨rfl, .inr ⟨rfl, h.symm⟩⟩
      · rw [rxPollBody_overrun hr hd hl] at h
        exact Ending.noConfusion h

theorem intAck_done {s t : State} {x : Response} (h : bodyOf .intAck s = .done x t) : t = (mmioRead .icr s).2 := by
  injection h with _ h
  exact h.symm

/-- Everything a command can do: the sticky response of a faulted block, its own completion, or its fault taken after
reads alone. -/
theorem exec_cases {i : Instr} {s t : State} (h : exec i s = .next t) :
    (s.block.faultCode ≠ 0 ∧ t = respondFaulted s) ∨
    (s.live ∧ ∃ r u, bodyOf i s = .done r u ∧ t = respond r u) ∨
    (s.live ∧ ∃ f reads, (∀ x ∈ reads, ∃ a n, x = Access.memRead a n) ∧ t = takeFault f (encode i) (s.afterReads reads)) := by
  rw [exec_eq] at h
  rcases runCommand_cases h with h | ⟨h0, h⟩ | ⟨h0, f, u, hb, rfl⟩
  · exact .inl h
  · exact .inr (.inl ⟨h0, h⟩)
  · obtain ⟨reads, rfl, hr⟩ := bodyOf_raised hb
    exact .inr (.inr ⟨h0, f, reads, hr, rfl⟩)

end Sys2Proof.Machine
end

