-- ==== Sys2Proof/Laws/Encoding.lean ====
section
/-! SUPPORT. The fields of an encoded W0 (30_encoding R101, R115), one lemma per field, and the decoder's one inversion
lemma. -/

namespace Sys2Proof

/-- Bit k of a built W0. -/
theorem buildW0_getLsbD (op : Byte) (e : Bool) (len : Word16) (ofs : Word32) (k : Nat) (hk : k < 64) :
    (buildW0 op e len ofs).getLsbD k =
      ((decide (56 ≤ k) && op.getLsbD (k - 56)) || (decide (k = 48) && e) ||
        (decide (32 ≤ k) && len.getLsbD (k - 32)) || ofs.getLsbD k) := by
  have h48 : (decide (48 ≤ k) && (BitVec.ofBool e).getLsbD (k - 48)) = (decide (k = 48) && e) := by
    by_cases h : k = 48
    · subst h; simp
    · by_cases h' : 48 ≤ k
      · have : (BitVec.ofBool e).getLsbD (k - 48) = false := BitVec.getLsbD_of_ge _ _ (by omega)
        simp [h, this]
      · simp [h, h']
  have h1 : k - 56 < 64 := by omega
  have h2 : k - 32 < 64 := by omega
  have h3 : k - 48 < 64 := by omega
  simp only [buildW0, BitVec.getLsbD_or, BitVec.getLsbD_shiftLeft, BitVec.getLsbD_setWidth, hk, h1, h2, h3,
    decide_true, Bool.true_and]
  rw [← h48]
  simp only [← Nat.not_lt, decide_not]

/-- An offset that fits has no bit from 20 up. -/
theorem ofsFits_getLsbD {ofs : Word32} (h : ofsFits ofs) (k : Nat) (hk : 20 ≤ k) : ofs.getLsbD k = false := by
  rw [BitVec.getLsbD, Nat.testBit_lt_two_pow]
  exact Nat.lt_of_lt_of_le h (Nat.pow_le_pow_right (by omega) hk)

section Fields
variable (op : Byte) (e : Bool) (len : Word16) (ofs : Word32) (w1 : Word64)

theorem buildW0_op (h : ofsFits ofs) : (Command.mk (buildW0 op e len ofs) w1).op = op := by
  apply BitVec.eq_of_getLsbD_eq
  intro k hk
  have hl : len.getLsbD (56 + k - 32) = false := BitVec.getLsbD_of_ge _ _ (by omega)
  have hne : ¬ 56 + k = 48 := by omega
  simp [Command.op, hk, buildW0_getLsbD _ _ _ _ (56 + k) (by omega), hl, hne,
    ofsFits_getLsbD h (56 + k) (by omega)]

theorem buildW0_ofs (h : ofsFits ofs) : (Command.mk (buildW0 op e len ofs) w1).ofs = ofs := by
  apply BitVec.eq_of_getLsbD_eq
  intro k hk
  by_cases h20 : k < 20
  · have h1 : ¬ 56 ≤ k := by omega
    have h2 : ¬ k = 48 := by omega
    have h3 : ¬ 32 ≤ k := by omega
    simp [Command.ofs, h20, hk, buildW0_getLsbD _ _ _ _ k (by omega), h1, h2, h3]
  · simp [Command.ofs, BitVec.getLsbD_extractLsb', h20, ofsFits_getLsbD h k (by omega)]

theorem buildW0_len : (Command.mk (buildW0 op e len ofs) w1).len = len := by
  apply BitVec.eq_of_getLsbD_eq
  intro k hk
  have h1 : ¬ 56 ≤ 32 + k := by omega
  have h2 : ¬ 32 + k = 48 := by omega
  simp [Command.len, hk, buildW0_getLsbD _ _ _ _ (32 + k) (by omega), h1, h2]

theorem buildW0_eop : (Command.mk (buildW0 op e len ofs) w1).eop = e := by
  have hl : len.getLsbD 16 = false := BitVec.getLsbD_of_ge _ _ (by omega)
  have ho : ofs.getLsbD 48 = false := BitVec.getLsbD_of_ge _ _ (by omega)
  rw [Command.eop, buildW0_getLsbD _ _ _ _ 48 (by omega), hl, ho]
  simp

/-- W0[55:20] of a format R or RW command (R103). -/
theorem buildW0_reserved_reg (h : ofsFits ofs) : (buildW0 op false 0 ofs).extractLsb' 20 36 = 0#36 := by
  apply BitVec.eq_of_getLsbD_eq
  intro k hk
  have h1 : ¬ 56 ≤ 20 + k := by omega
  simp [BitVec.getLsbD_extractLsb', buildW0_getLsbD _ _ _ _ (20 + k) (by omega), h1,
    ofsFits_getLsbD h (20 + k) (by omega)]

/-- W0[55:49] of a format T command (R103). -/
theorem buildW0_res0 : (buildW0 op e len 0).extractLsb' 49 7 = 0#7 := by
  apply BitVec.eq_of_getLsbD_eq
  intro k hk
  have h1 : ¬ 56 ≤ 49 + k := by omega
  have h2 : ¬ 49 + k = 48 := by omega
  have hl : len.getLsbD (49 + k - 32) = false := BitVec.getLsbD_of_ge _ _ (by omega)
  simp [BitVec.getLsbD_extractLsb', buildW0_getLsbD _ _ _ _ (49 + k) (by omega), h1, h2, hl]

/-- W0[31:0] of a format T command (R103). -/
theorem buildW0_low : (buildW0 op e len 0).extractLsb' 0 32 = 0#32 := by
  apply BitVec.eq_of_getLsbD_eq
  intro k hk
  have h1 : ¬ 56 ≤ k := by omega
  have h2 : ¬ k = 48 := by omega
  have h3 : ¬ 32 ≤ k := by omega
  simp [BitVec.getLsbD_extractLsb', buildW0_getLsbD _ _ _ _ k (by omega), h1, h2, h3]

/-- W0[55:0] of a format B or N command (R103). -/
theorem buildW0_reserved_bare : (buildW0 op false 0 0).extractLsb' 0 56 = 0#56 := by
  apply BitVec.eq_of_getLsbD_eq
  intro k hk
  have h1 : ¬ 56 ≤ k := by omega
  simp [BitVec.getLsbD_extractLsb', buildW0_getLsbD _ _ _ _ k (by omega), h1]

end Fields

theorem setWidth_high_zero (v : Word32) : (v.setWidth 64).extractLsb' 32 32 = 0#32 := by
  apply BitVec.eq_of_getLsbD_eq
  intro k hk
  simp [BitVec.getLsbD_extractLsb']

theorem setWidth_low (v : Word32) : (v.setWidth 64).extractLsb' 0 32 = v := by
  apply BitVec.eq_of_getLsbD_eq
  intro k hk
  have : k < 64 := by omega
  simp [this, hk]

theorem Command.ifClear_eq_ok {c : Command} {f : Format} {i j : Instr} (h : c.ifClear f i = .ok j) :
    i = j ∧ c.reservedClear f = true := by
  unfold Command.ifClear at h
  split at h
  · rename_i hc; exact ⟨Except.ok.inj h, hc⟩
  · cases h

/-- Everything a successful decode can be: the opcode, the format's reserved bits clear, and the operands. -/
theorem decode_eq_ok {c : Command} {i : Instr} (h : decode c = .ok i) :
    (c.op = 0x01#8 ∧ c.reservedClear .r = true ∧ i = .regRead c.ofs) ∨
    (c.op = 0x02#8 ∧ c.reservedClear .rw = true ∧ i = .regWrite c.ofs c.data) ∨
    (c.op = 0x03#8 ∧ c.reservedClear .rw = true ∧ i = .regSetBits c.ofs c.data) ∨
    (c.op = 0x04#8 ∧ c.reservedClear .rw = true ∧ i = .regClearBits c.ofs c.data) ∨
    (c.op = 0x10#8 ∧ c.reservedClear .b = true ∧ i = .txInit c.w1) ∨
    (c.op = 0x11#8 ∧ c.reservedClear .t = true ∧ i = .txEnqueue c.w1 c.len c.eop) ∨
    (c.op = 0x20#8 ∧ c.reservedClear .b = true ∧ i = .rxInit c.w1) ∨
    (c.op = 0x21#8 ∧ c.reservedClear .n = true ∧ i = .rxPoll) ∨
    (c.op = 0x30#8 ∧ c.reservedClear .n = true ∧ i = .intAck) := by
  unfold decode at h
  split_ifs at h with h1 h2 h3 h4 h5 h6 h7 h8 h9
  all_goals
    obtain ⟨hi, hc⟩ := Command.ifClear_eq_ok h
    simp_all

theorem Command.ofs_fits (c : Command) : ofsFits c.ofs := by
  have := (c.w0.extractLsb' 0 20).isLt
  simp only [ofsFits, Command.ofs, BitVec.toNat_setWidth]
  omega

end Sys2Proof
end

