-- ==== Sys2Proof/Laws/Step.lean ====
section
/-! SUPPORT. Everything one step can do, said once: the block waits, a command is executed or rejected, or another agent
moves. -/

namespace Sys2Proof.Machine

/-- The step of an agent that has the turn. -/
theorem step_of_turn {s : State} {a : AgentStep} {ts : List Turn} (h : s.turnOf a ts) :
    step s = .next (agentStep a { s with schedule := ts }) := by
  unfold State.turnOf at h
  simp [step, nextTurn, h]

/-- The step that takes a command. -/
theorem step_of_takes {s : State} {c : Command} {rest : List Command} (h : s.takes c rest) :
    step s = match decode c with
      | .ok i => exec i (s.taken rest)
      | .error _ => rejectCommand c (s.taken rest) := by
  obtain ⟨h1 | ⟨ts, h1⟩, h2⟩ := h <;> simp [step, nextTurn, h1, executeStep, takeCommand, h2, State.taken] <;> rfl

/-- Rejecting a command on a live block is the fault ILLEGAL_COMMAND, precise. -/
theorem rejectCommand_live {c : Command} {s : State} (h : s.live) :
    rejectCommand c s = .next (takeFault .illegalCommand c s) := runCommand_live h

theorem rejectCommand_faulted {c : Command} {s : State} (h : s.block.faultCode ≠ 0) :
    rejectCommand c s = .next (respondFaulted s) := runCommand_faulted h

/-- Everything one step can do. -/
theorem step_cases {s t : State} (h : step s = .next t) :
    (s.commands = [] ∧ t = { s with schedule := s.schedule.tail }) ∨
    (∃ c rest i, s.takes c rest ∧ decode c = .ok i ∧ exec i (s.taken rest) = .next t) ∨
    (∃ c rest e, s.takes c rest ∧ decode c = .error e ∧ rejectCommand c (s.taken rest) = .next t) ∨
    (∃ a ts, s.turnOf a ts ∧ t = agentStep a { s with schedule := ts }) := by
  have taken : (s.schedule = [] ∨ ∃ ts, s.schedule = .execute :: ts) → ∀ c rest, s.commands = c :: rest →
      (∃ c rest i, s.takes c rest ∧ decode c = .ok i ∧ exec i (s.taken rest) = .next t) ∨
      (∃ c rest e, s.takes c rest ∧ decode c = .error e ∧ rejectCommand c (s.taken rest) = .next t) := by
    intro h1 c rest h2
    have ht : s.takes c rest := ⟨h1, h2⟩
    rw [step_of_takes ht] at h
    cases hd : decode c with
    | ok i => rw [hd] at h; exact .inl ⟨c, rest, i, ht, hd, h⟩
    | error e => rw [hd] at h; exact .inr ⟨c, rest, e, ht, hd, h⟩
  cases hs : s.schedule with
  | nil =>
    cases hc : s.commands with
    | nil =>
      simp [step, nextTurn, hs, executeStep, takeCommand, hc] at h
      refine .inl ⟨rfl, ?_⟩
      rw [← h]
      cases s
      simp_all
    | cons c rest => exact .inr ((taken (.inl hs) c rest hc).imp id .inl)
  | cons x ts =>
    cases x with
    | execute =>
      cases hc : s.commands with
      | nil =>
        simp [step, nextTurn, hs, executeStep, takeCommand, hc] at h
        exact .inl ⟨rfl, h.symm⟩
      | cons c rest => exact .inr ((taken (.inr ⟨ts, hs⟩) c rest hc).imp id .inl)
    | agent a =>
      rw [step_of_turn (show s.turnOf a ts from hs)] at h
      exact .inr (.inr (.inr ⟨a, ts, hs, (Host.Outcome.next.inj h).symm⟩))

/-- An invariant of every step, from what each kind of step does: the block waits, a command responds, a command faults
after reads alone, a faulted block answers, another agent moves. -/
theorem step_preserves {P : State → Prop} {s t : State} (h : step s = .next t)
    (wait : s.commands = [] → P { s with schedule := s.schedule.tail })
    (done : ∀ c rest i r u, s.takes c rest → decode c = .ok i → (s.taken rest).live →
      bodyOf i (s.taken rest) = .done r u → P (respond r u))
    (fault : ∀ c d rest f reads, s.takes c rest → (s.taken rest).live →
      (∀ x ∈ reads, ∃ a n, x = Access.memRead a n) → P (takeFault f d ((s.taken rest).afterReads reads)))
    (stuck : ∀ c rest, s.takes c rest → P (respondFaulted (s.taken rest)))
    (agent : ∀ a ts, s.turnOf a ts → P (agentStep a { s with schedule := ts })) : P t := by
  rcases step_cases h with ⟨hc, rfl⟩ | ⟨c, rest, i, htk, hd, he⟩ | ⟨c, rest, e, htk, -, he⟩ | ⟨a, ts, htn, rfl⟩
  · exact wait hc
  · rcases exec_cases he with ⟨-, rfl⟩ | ⟨hl, r, u, hb, rfl⟩ | ⟨hl, f, reads, hr, rfl⟩
    · exact stuck c rest htk
    · exact done c rest i r u htk hd hl hb
    · exact fault c _ rest f reads htk hl hr
  · by_cases hl : (s.taken rest).live
    · rw [rejectCommand_live hl] at he
      have := fault c c rest .illegalCommand [] htk hl (by simp)
      rw [State.afterReads_nil] at this
      exact Host.Outcome.next.inj he ▸ this
    · rw [rejectCommand_faulted hl] at he
      exact Host.Outcome.next.inj he ▸ stuck c rest htk
  · exact agent a ts htn

/-! ### The platform's parameters -/

/-- The reference instance of 95_test_vectors is admissible (00_scope R7). -/
theorem Params.reference_wf : Params.reference.wf := by
  have h : ∀ i : Fin Config.mRx, Params.reference.rxBufAddr i = BitVec.ofNat 64 (0x400000 + 0x1000 * i.val) := by
    intro i; simp [Params.rxBufAddr, Params.reference]
  refine ⟨by decide, fun i => ?_, fun i j hij => ?_⟩
  · have : i.val < 128 := i.isLt
    have e : (Params.reference.rxBufAddr i).toNat = 0x400000 + 0x1000 * i.val := by
      rw [h, BitVec.toNat_ofNat]; omega
    show (Params.reference.rxBufAddr i).toNat % 4096 = 0
    omega
  · rw [h, h] at hij
    have : i.val < 128 := i.isLt
    have : j.val < 128 := j.isLt
    have := congrArg BitVec.toNat hij
    simp only [BitVec.toNat_ofNat] at this
    ext; omega

end Sys2Proof.Machine
end

