-- ==== Sys2Proof/Laws/Device.lean ====
section
/-! SUPPORT. What the device's steps do: when they are enabled, and what DEV_RX writes to every byte of memory. -/

namespace Sys2Proof.Machine

/-! ### When a ring holds work -/

/-- A ring has work exactly when all its registers are written, EN is set, head and tail differ and it has a slot. -/
theorem enabledRing_eq_some {control low high length head tail : Option Word32} {g : DevRing} :
    enabledRing control low high length head tail = some g ↔
      ∃ c lo hi len h t, control = some c ∧ low = some lo ∧ high = some hi ∧ length = some len ∧ head = some h ∧
        tail = some t ∧ c.getLsbD 1 = true ∧ h ≠ t ∧ 16 ≤ len.toNat ∧
        g = { base := ringBaseOf lo hi, slots := len.toNat / 16, head := h } := by
  constructor
  · intro h
    unfold enabledRing at h
    split at h
    · rename_i c lo hi len hd t
      split at h
      · rename_i hc
        exact ⟨c, lo, hi, len, hd, t, rfl, rfl, rfl, rfl, rfl, rfl, hc.1, hc.2.1, hc.2.2, (Option.some.inj h).symm⟩
      · cases h
    · cases h
  · rintro ⟨c, lo, hi, len, h, t, rfl, rfl, rfl, rfl, rfl, rfl, h1, h2, h3, rfl⟩
    exact if_pos ⟨h1, h2, h3⟩

/-- Whatever the device's choices, DEV_TX changes only memory, the frame, the wire, the TX head and ICR. -/
theorem devTx_frame (sent : Bool) (errors : Byte) (cause : Bool) (s : State) :
    (devTx sent errors cause s).block = s.block ∧ (devTx sent errors cause s).params = s.params ∧
    (devTx sent errors cause s).commands = s.commands ∧ (devTx sent errors cause s).responses = s.responses ∧
    (devTx sent errors cause s).events = s.events ∧ (devTx sent errors cause s).bus = s.bus ∧
    (devTx sent errors cause s).draws = s.draws ∧ (devTx sent errors cause s).outside = s.outside ∧
    (devTx sent errors cause s).schedule = s.schedule ∧ (devTx sent errors cause s).rxOpen = s.rxOpen := by
  unfold devTx
  split <;> exact ⟨rfl, rfl, rfl, rfl, rfl, rfl, rfl, rfl, rfl, rfl⟩

/-- Whatever the device's choices, DEV_RX changes only memory, the RX head, ICR and which buffers are open. -/
theorem devRx_frame (data : List Byte) (checksum : Word16) (errors : Byte) (special : Word16) (status : Byte)
    (causes : Word32) (s : State) :
    let t := devRx data checksum errors special status causes s
    t.block = s.block ∧ t.params = s.params ∧ t.commands = s.commands ∧ t.responses = s.responses ∧
    t.events = s.events ∧ t.bus = s.bus ∧ t.draws = s.draws ∧ t.outside = s.outside ∧ t.schedule = s.schedule := by
  unfold devRx
  split
  · exact ⟨rfl, rfl, rfl, rfl, rfl, rfl, rfl, rfl, rfl⟩
  · dsimp only
    split <;> exact ⟨rfl, rfl, rfl, rfl, rfl, rfl, rfl, rfl, rfl⟩

/-- Filling slot j leaves its buffer no longer open and every other as it was (log 19). -/
theorem rxOpen_filled (v : Vector Bool Config.mRx) (j : Nat) (i : Fin Config.mRx) :
    (v.setIfInBounds j false)[i] = (decide (i.val ≠ j) && v[i]) := by
  simp only [Fin.getElem_fin]
  by_cases h : j = i.val
  · subst h; simp
  · rw [Vector.getElem_setIfInBounds_ne _ h]; simp [Ne.symm h]

/-- Overwriting an open buffer changes memory alone. -/
theorem devOverwrite_eq (i : Fin Config.mRx) (data : List Byte) (s : State) :
    devOverwrite i data s = { s with mem := (devOverwrite i data s).mem } := by
  unfold devOverwrite
  split <;> rfl

/-- Everything overwriting can do: the buffer is open and its bytes are written, or nothing happens. -/
theorem devOverwrite_cases (i : Fin Config.mRx) (data : List Byte) (s : State) :
    (s.rxOpen[i] = true ∧ data.length ≤ s.params.pageSize ∧
      (devOverwrite i data s).mem = Memory.writeBytes s.mem (s.params.rxBufAddr i) data) ∨
    devOverwrite i data s = s := by
  unfold devOverwrite
  split
  · rename_i h; exact .inl ⟨h.1, h.2, rfl⟩
  · exact .inr rfl

/-! ### Memory -/

/-- What DEV_RX does to every byte of memory: bytes 8 to 15 of the descriptor, then the frame's bytes, and no other. -/
theorem byte_rxDelivered (m : Memory) (d y : Addr) (data : List Byte) (checksum : Word16) (errors : Byte)
    (special : Word16) (status : Byte) (hl : data.length ≤ 2 ^ 64) :
    Memory.byte (rxDelivered m d data checksum errors special status) y =
      if (y - (d + 8)).toNat < 8 then
        RxDescriptor.byteAt
          { addr := 0, length := BitVec.ofNat 16 data.length, checksum := checksum, status := rxDoneStatus status
            errors := errors, special := special } (8 + (y - (d + 8)).toNat)
      else (data[(y - Memory.readLE m d 8).toNat]?).getD (Memory.byte m y) := by
  have dist : ∀ c, c < 8 → (y - (d + BitVec.ofNat 64 (8 + c))).toNat =
      if c ≤ (y - (d + 8)).toNat then (y - (d + 8)).toNat - c else 2 ^ 64 + (y - (d + 8)).toNat - c := by
    intro c hc
    rw [← add_ofNat_assoc d 8 c]
    exact sub_add_toNat y (d + 8) c (by omega)
  have e10 : (y - (d + 10)).toNat = _ := dist 2 (by omega)
  have e12 : (y - (d + 12)).toNat = _ := dist 4 (by omega)
  have e13 : (y - (d + 13)).toNat = _ := dist 5 (by omega)
  have e14 : (y - (d + 14)).toNat = _ := dist 6 (by omega)
  have one : ∀ (q : Memory) (a : Addr) (b : Byte), Memory.byte (Memory.setByte q a b) y =
      if (y - a).toNat < 1 then b else Memory.byte q y := by
    intro q a b
    rw [Memory.byte_setByte]
    by_cases h : y = a
    · subst h; simp
    · rw [if_neg h, if_neg]
      intro h'
      apply h
      bv_omega
  have hlen : ∀ k, k < 2 → (BitVec.ofNat 64 data.length).extractLsb' (8 * k) 8 =
      (BitVec.ofNat 16 data.length).extractLsb' (8 * k) 8 := by
    intro k hk
    apply BitVec.eq_of_getLsbD_eq
    intro i hi
    have h1 : 8 * k + i < 64 := by omega
    have h2 : 8 * k + i < 16 := by omega
    rw [BitVec.getLsbD_extractLsb', BitVec.getLsbD_extractLsb', BitVec.getLsbD_ofNat, BitVec.getLsbD_ofNat]
    simp only [h1, h2]
  have hz := (y - (d + 8)).isLt
  simp only [rxDelivered]
  rw [one, Memory.byte_writeLE _ _ _ _ _ (by omega), one, Memory.byte_writeLE _ _ _ _ _ (by omega),
    Memory.byte_writeLE _ _ _ _ _ (by omega), Memory.byte_writeBytes _ _ _ _ hl]
  simp only [extractLsb'_setWidth_byte _ (show (16 : Nat) ≤ 64 by omega)]
  rw [e10, e12, e13, e14]
  generalize (y - (d + 8)).toNat = z at *
  clear e10 e12 e13 e14 one dist
  by_cases h8 : z < 8
  · rw [if_pos h8]
    have h0 := hlen 0 (by omega)
    have h1 := hlen 1 (by omega)
    interval_cases z <;> simp_all [RxDescriptor.byteAt]
  · rw [if_neg h8]
    have h : ∀ c, c ≤ 6 → ¬ (if c ≤ z then z - c else 2 ^ 64 + z - c) < 2 := by intro c hc; split <;> omega
    have h' : ∀ c, c ≤ 6 → ¬ (if c ≤ z then z - c else 2 ^ 64 + z - c) < 1 := by intro c hc; split <;> omega
    rw [if_neg (h' 4 (by omega)), if_neg (h 6 (by omega)), if_neg (h' 5 (by omega)), if_neg (h 2 (by omega)),
      if_neg (by omega)]

theorem rxDelivered_wf (m : Memory) (d : Addr) (data : List Byte) (checksum : Word16) (errors : Byte)
    (special : Word16) (status : Byte) (h : Memory.wf m) :
    Memory.wf (rxDelivered m d data checksum errors special status) :=
  Memory.setByte_wf _ _ _ (Memory.writeLE_wf _ _ _ _ (Memory.setByte_wf _ _ _ (Memory.writeLE_wf _ _ _ _
    (Memory.writeLE_wf _ _ _ _ (Memory.writeBytes_wf _ _ _ h)))))

/-- 128 distinct multiples of `PAGE_SIZE` fit the address space, so a page is shorter than it (00_scope R7). -/
theorem Params.pageSize_lt {p : Params} (h : p.wf) : p.pageSize < 2 ^ 64 := by
  by_contra hc
  have z : ∀ i : Fin Config.mRx, (p.rxBufAddr i).toNat = 0 := by
    intro i
    have h1 := h.2.1 i
    have h2 := (p.rxBufAddr i).isLt
    rwa [Nat.mod_eq_of_lt (by omega)] at h1
  have := h.2.2 ⟨0, by decide⟩ ⟨1, by decide⟩ (BitVec.eq_of_toNat_eq ((z _).trans (z _).symm))
  exact absurd this (by decide)

end Sys2Proof.Machine
end

