-- ==== Sys2Proof/Laws/Invariants.lean ====
section
/-! SUPPORT. Small laws the invariants of Safety.lean rest on: the last write of a register, the halves of a base, bytes
outside a store, counts of bindings, and which registers a write the block may make leaves alone. -/

namespace Sys2Proof.Machine

/-! ### The last write of a register -/

theorem lastWrite_snoc (r : Reg) (xs : List Access) (y : Access) :
    lastWrite r (xs ++ [y]) =
      (match y with
        | .mmioWrite q v => if q = r then some v else lastWrite r xs
        | _ => lastWrite r xs) := by
  simp [lastWrite, List.foldl_append] <;> rfl

/-- Accesses that write no such register leave its last write as it was. -/
theorem lastWrite_quiet (r : Reg) (xs ys : List Access) (h : ∀ y ∈ ys, ∀ v, y ≠ Access.mmioWrite r v) :
    lastWrite r (xs ++ ys) = lastWrite r xs := by
  induction ys using List.reverseRecOn with
  | nil => simp
  | append_singleton ys y ih =>
    have hy := h y (by simp)
    rw [← List.append_assoc, lastWrite_snoc, ih fun z hz => h z (by simp [hz])]
    split
    · rw [if_neg]
      rintro rfl
      exact hy _ rfl
    · rfl

/-! ### Addresses -/

/-- A base is the address in its two halves (44_device_agent R202). -/
theorem ringBaseOf_halves (b : Addr) : ringBaseOf (b.extractLsb' 0 32) (b.extractLsb' 32 32) = b := by
  apply BitVec.eq_of_getLsbD_eq
  intro k hk
  simp only [ringBaseOf, BitVec.getLsbD_or, BitVec.getLsbD_shiftLeft, BitVec.getLsbD_setWidth,
    BitVec.getLsbD_extractLsb']
  by_cases h : k < 32
  · simp [h, hk]
  · have h1 : 32 + (k - 32) = k := by omega
    have h2 : k - 32 < 32 := by omega
    have h3 : k - 32 < 64 := by omega
    simp [h, h1, h2, h3, hk]

theorem inRange_add (base : Addr) (n c : Nat) (h : c < n) (hc : c < 2 ^ 64) :
    inRange (base + BitVec.ofNat 64 c) base n = true := by
  simp only [inRange]
  rw [add_ofNat_sub_toNat _ _ hc]
  exact decide_eq_true h

/-- A store changes only bytes within its length, however long it is. -/
theorem Memory.writeBytes_changes (m : Memory) (a x : Addr) (bs : List Byte)
    (h : Memory.byte (Memory.writeBytes m a bs) x ≠ Memory.byte m x) : (x - a).toNat < bs.length := by
  induction bs generalizing m a with
  | nil => exact absurd rfl h
  | cons b rest ih =>
    simp only [Memory.writeBytes] at h
    by_cases hx : x = a
    · subst hx; simp
    · have hne : Memory.byte (Memory.writeBytes (Memory.setByte m a b) (a + 1) rest) x ≠
          Memory.byte (Memory.setByte m a b) x := by
        rw [Memory.byte_setByte, if_neg hx]; exact h
      have := ih _ _ hne
      simp only [List.length_cons]
      bv_omega

/-- The descriptors RX_INIT writes carry the addresses of their buffers (10_state R48). -/
theorem rxInitDone_rxBound (base : Addr) (s : State) : (rxInitDone base s).rxBound := by
  intro _ i
  have hi : i.val < 128 := i.isLt
  have h : rxDescriptorAt (rxInitDone base s).mem (slotAddr base i) (rxDescriptorInit (s.params.rxBufAddr i)) := by
    refine rxDescriptorAt_of_bytes _ _ _ fun k hk => ?_
    have hsub : (slotAddr base i + BitVec.ofNat 64 k - base).toNat = 16 * i + k := by
      rw [slotAddr, add_ofNat_assoc, add_ofNat_sub_toNat _ _ (by simp only [Config.descBytes]; omega)]
    rw [rxInitDone_mem, byte_writeRxRing _ _ _ _ _ (by simp [rxRingInit, Config.mRx]), hsub, if_pos (by omega),
      show (16 * i.val + k) % 16 = k by omega, show (16 * i.val + k) / 16 - 0 = i.val by omega]
    simp [rxRingInit, hi, Params.rxBufAddr]
  simpa [rxDescriptorInit] using h.1

/-! ### Counts -/

/-- Setting one entry of a list moves one count. -/
theorem count_set {α : Type} [DecidableEq α] (xs : List α) (k : Nat) (hk : k < xs.length) (x y : α) :
    (xs.set k x).count y + (if xs[k] = y then 1 else 0) = xs.count y + (if x = y then 1 else 0) := by
  induction xs generalizing k with
  | nil => simp at hk
  | cons a rest ih =>
    cases k with
    | zero => simp [List.count_cons]; split <;> split <;> omega
    | succ k =>
      simp only [List.length_cons, Nat.add_lt_add_iff_right] at hk
      have := ih k hk
      simp [List.count_cons] at *; omega

/-- A block with no binding is bound to no page. -/
theorem count_unbound (p : PageId) : (Vector.replicate Config.nTx (none : Option PageId)).toList.count (some p) = 0 := by
  simp [List.count_replicate]

/-! ### Registers -/

/-- A register the REG_* commands may write is no ring register (40_register_access R132). -/
theorem afterWrite_keeps_rings (d : Nic) (r : Reg) (v : Word32)
    (h : accessFault r .write = none ∨ accessFault r .rmw = none) :
    (d.afterWrite r v).store.tdbal = d.store.tdbal ∧ (d.afterWrite r v).store.tdbah = d.store.tdbah ∧
    (d.afterWrite r v).store.tdlen = d.store.tdlen ∧ (d.afterWrite r v).store.rdbal = d.store.rdbal ∧
    (d.afterWrite r v).store.rdbah = d.store.rdbah ∧ (d.afterWrite r v).store.rdlen = d.store.rdlen ∧
    (d.afterWrite r v).tdh = d.tdh ∧ (d.afterWrite r v).rdh = d.rdh ∧ (d.afterWrite r v).tdt = d.tdt ∧
    (d.afterWrite r v).rdt = d.rdt := by
  cases r <;> first | exact ⟨rfl, rfl, rfl, rfl, rfl, rfl, rfl, rfl, rfl, rfl⟩ | simp [accessFault, regClass] at h

/-- A read changes ICR at most. -/
theorem afterRead_keeps (d : Nic) (r : Reg) :
    (d.afterRead r).store = d.store ∧ (d.afterRead r).ims = d.ims ∧ (d.afterRead r).tdh = d.tdh ∧
    (d.afterRead r).rdh = d.rdh ∧ (d.afterRead r).tdt = d.tdt ∧ (d.afterRead r).rdt = d.rdt := by
  cases r <;> exact ⟨rfl, rfl, rfl, rfl, rfl, rfl⟩

end Sys2Proof.Machine
end

