-- ==== Sys2Proof/Laws/PerInstr.lean ====
section
/-! SUPPORT. The statement about every instruction: its encoded W0 is its row of opcode_table.json, mask and match. -/

namespace Sys2Proof.Laws

/-- The "mask" and "match" of the instruction's row in opcode_table.json. -/
def tableRow (i : Instr) : Word64 × Word64 :=
  match i with
  | .regRead _ => (0xFFFFFFFFFFF00000, 0x0100000000000000)
  | .regWrite _ _ => (0xFFFFFFFFFFF00000, 0x0200000000000000)
  | .regSetBits _ _ => (0xFFFFFFFFFFF00000, 0x0300000000000000)
  | .regClearBits _ _ => (0xFFFFFFFFFFF00000, 0x0400000000000000)
  | .txInit _ => (0xFFFFFFFFFFFFFFFF, 0x1000000000000000)
  | .txEnqueue _ _ _ => (0xFFFE0000FFFFFFFF, 0x1100000000000000)
  | .rxInit _ => (0xFFFFFFFFFFFFFFFF, 0x2000000000000000)
  | .rxPoll => (0xFFFFFFFFFFFFFFFF, 0x2100000000000000)
  | .intAck => (0xFFFFFFFFFFFFFFFF, 0x3000000000000000)

/-- A well-formed instruction's W0 matches its row of the opcode table. -/
def TableRow.Statement (i : Instr) : Prop := i.wf → (encode i).w0 &&& (tableRow i).1 = (tableRow i).2

/-- A REG_* word under its row's mask is its opcode alone. -/
theorem buildW0_reg_masked (op : Byte) (ofs : Word32) (h : ofsFits ofs) :
    buildW0 op false 0 ofs &&& 0xFFFFFFFFFFF00000#64 = buildW0 op false 0 0 := by
  apply BitVec.eq_of_getLsbD_eq
  intro k hk
  have hm : BitVec.getLsbD 0xFFFFFFFFFFF00000#64 k = decide (20 ≤ k) :=
    (by decide : ∀ k, k < 64 → BitVec.getLsbD 0xFFFFFFFFFFF00000#64 k = decide (20 ≤ k)) k hk
  rw [BitVec.getLsbD_and, hm, buildW0_getLsbD _ _ _ _ k hk, buildW0_getLsbD _ _ _ _ k hk]
  by_cases h20 : 20 ≤ k
  · simp [h20, ofsFits_getLsbD h k h20]
  · have h1 : ¬ 56 ≤ k := by omega
    simp only [h20, h1, decide_false, Bool.and_false, Bool.false_and, Bool.false_or]
    simp

/-- A TX_ENQUEUE word under its row's mask is its opcode alone: LEN and E are the bits the mask leaves out. -/
theorem buildW0_tx_masked (len : Word16) (eop : Bool) :
    buildW0 0x11 eop len 0 &&& 0xFFFE0000FFFFFFFF#64 = 0x1100000000000000#64 := by
  apply BitVec.eq_of_getLsbD_eq
  intro k hk
  have hm : BitVec.getLsbD 0xFFFE0000FFFFFFFF#64 k = decide (k < 32 ∨ 49 ≤ k) :=
    (by decide : ∀ k, k < 64 → BitVec.getLsbD 0xFFFE0000FFFFFFFF#64 k = decide (k < 32 ∨ 49 ≤ k)) k hk
  have hr : BitVec.getLsbD 0x1100000000000000#64 k = (decide (56 ≤ k) && BitVec.getLsbD 0x11#8 (k - 56)) :=
    (by decide : ∀ k, k < 64 → BitVec.getLsbD 0x1100000000000000#64 k =
      (decide (56 ≤ k) && BitVec.getLsbD 0x11#8 (k - 56))) k hk
  rw [BitVec.getLsbD_and, hm, hr, buildW0_getLsbD _ _ _ _ k hk]
  by_cases h1 : k < 32
  · have h2 : ¬ 32 ≤ k := by omega
    have h3 : ¬ 56 ≤ k := by omega
    have h4 : ¬ k = 48 := by omega
    simp [h1, h2, h3, h4]
  · by_cases h2 : 49 ≤ k
    · have h3 : ¬ k = 48 := by omega
      have h4 : len.getLsbD (k - 32) = false := BitVec.getLsbD_of_ge _ _ (by omega)
      simp [h2, h3, h4]
    · have h3 : ¬ 56 ≤ k := by omega
      simp [h1, h2, h3]

theorem TableRow.regRead (ofs : Word32) : TableRow.Statement (.regRead ofs) := fun h =>
  (buildW0_reg_masked _ ofs h).trans rfl

theorem TableRow.regWrite (ofs data : Word32) : TableRow.Statement (.regWrite ofs data) := fun h =>
  (buildW0_reg_masked _ ofs h).trans rfl

theorem TableRow.regSetBits (ofs mask : Word32) : TableRow.Statement (.regSetBits ofs mask) := fun h =>
  (buildW0_reg_masked _ ofs h).trans rfl

theorem TableRow.regClearBits (ofs mask : Word32) : TableRow.Statement (.regClearBits ofs mask) := fun h =>
  (buildW0_reg_masked _ ofs h).trans rfl

theorem TableRow.txInit (base : Addr) : TableRow.Statement (.txInit base) := fun _ =>
  (by decide : buildW0 0x10 false 0 0 &&& 0xFFFFFFFFFFFFFFFF#64 = 0x1000000000000000#64)

theorem TableRow.txEnqueue (addr : Addr) (len : Word16) (eop : Bool) : TableRow.Statement (.txEnqueue addr len eop) := fun _ =>
  buildW0_tx_masked len eop

theorem TableRow.rxInit (base : Addr) : TableRow.Statement (.rxInit base) := fun _ =>
  (by decide : buildW0 0x20 false 0 0 &&& 0xFFFFFFFFFFFFFFFF#64 = 0x2000000000000000#64)

theorem TableRow.rxPoll : TableRow.Statement (.rxPoll) := fun _ => rfl

theorem TableRow.intAck : TableRow.Statement (.intAck) := fun _ => rfl

end Sys2Proof.Laws
end

