-- ==== Sys2Proof/Tests/Slice0.lean ====
section
/-! SUPPORT. The model's own tests. Expected results come from spec/: the vectors V<n> of 95_test_vectors, or the rule a
test names. Then one witness for each statement of the obligations that has hypotheses, at boundary values. -/

namespace Sys2Proof.Tests

open Sys2Proof.Machine

/-! ### Helpers -/

/-- A block and a NIC just reset, with the parameters of 95_test_vectors and no value drawn. -/
def bare : State :=
  { State.reset with params := Params.reference, block := Block.reset 0 0, dev := Nic.reset 0 0 }

/-- Causes pending and the mask set. -/
def pending (icr ims : Word32) : State := { bare with dev := { bare.dev with icr := icr, ims := ims } }

/-- One stored register. -/
def stored (k : StoreReg) (v : Word32) : State := { bare with dev := { bare.dev with store := bare.dev.store.set k v } }

/-- A TX ring at 0x200000 with the cursor on a slot whose status is known; the NIC enabled as TX_INIT leaves it. -/
def txState (tail : Fin Config.nTx) (status : Byte) : State :=
  { bare with
    block := { bare.block with txReady := true, txBase := 0x200000, txTail := tail }
    dev := { bare.dev with
      store := { bare.dev.store with
        tctl := some 0x0004010A, tdbal := some 0x200000, tdbah := some 0, tdlen := some 256 }
      tdh := some 0, tdt := some (BitVec.ofNat 32 tail.val) }
    mem := [(0x20000C + 16 * tail.val, status)] }

/-- An RX ring at 0x300000 with the cursor on a slot whose length, status and errors are known; the NIC enabled. -/
def rxState (cursor : Fin Config.mRx) (len : Word16) (status errors : Byte) : State :=
  { bare with
    block := { bare.block with rxReady := true, rxBase := 0x300000, rxCursor := cursor }
    dev := { bare.dev with
      store := { bare.dev.store with
        rctl := some 2, rdbal := some 0x300000, rdbah := some 0, rdlen := some 2048 }
      rdh := some 0, rdt := some (BitVec.ofNat 32 ((cursor.val + 127) % 128)) }
    mem := [(0x300008 + 16 * cursor.val, len.extractLsb' 0 8), (0x300009 + 16 * cursor.val, len.extractLsb' 8 8),
      (0x30000C + 16 * cursor.val, status), (0x30000D + 16 * cursor.val, errors)] }

/-- A state with a command on its port and the block's turn. -/
def holding (c : Command) (s : State) : State := { s with commands := [c] }

/-- A state in which another agent has the turn. -/
def withTurn (a : AgentStep) (s : State) : State := { s with schedule := [.agent a] }

/-- The outcome is a next state with the property. -/
def runs (o : Host.Outcome State Fault Refusal) (p : State → Bool) : Bool :=
  match o with
  | .next t => p t
  | _ => false

theorem next_of_runs {o : Host.Outcome State Fault Refusal} {p : State → Bool} (h : runs o p = true) :
    ∃ t, o = .next t ∧ p t = true := by
  cases o with
  | next t => exact ⟨t, rfl, h⟩
  | fault f => exact Bool.noConfusion h
  | refused r => exact Bool.noConfusion h

/-- The one response of a state's run, as its words and payload (30_encoding R116). -/
def answered (t : State) (p0 p1 : Word64) (bytes : List Byte) : Bool :=
  match t.responses with
  | [r] => r.p0 == p0 && r.p1 == p1 && r.bytes == bytes
  | _ => false

/-- The 16 bytes of a descriptor. -/
def slotBytes (t : State) (d : Addr) : List Byte := Memory.readBytes t.mem d 16

/-! ### Well-formedness: the smoke test -/

theorem test_wf_accepts_the_largest_offset : (Instr.regRead 0xFFFFF).wf := by decide
theorem test_wf_refuses_regRead : ¬ (Instr.regRead 0x100000).wf := by decide
theorem test_wf_refuses_regWrite : ¬ (Instr.regWrite 0x100000 0).wf := by decide
theorem test_wf_refuses_regSetBits : ¬ (Instr.regSetBits 0xFFFFFFFF 0).wf := by decide
theorem test_wf_refuses_regClearBits : ¬ (Instr.regClearBits 0x80000000 0).wf := by decide

/-! ### Decoding: words written out from 30_encoding R101 to R110 -/

/-- R115: `REG_READ ICR`. -/
theorem test_decode_regRead : decode ⟨0x01000000000000C0, 0⟩ = .ok (.regRead 0xC0) := by decide
/-- P1 step 1: REG_WRITE RAH0. -/
theorem test_decode_regWrite : decode ⟨0x0200000000005404, 0x80005634⟩ = .ok (.regWrite 0x5404 0x80005634) := by decide
/-- V40.18. -/
theorem test_decode_regSetBits : decode ⟨0x0300000000000400, 2⟩ = .ok (.regSetBits 0x400 2) := by decide
/-- V40.20. -/
theorem test_decode_regClearBits :
    decode ⟨0x0400000000000410, 0xFFFFFFFF⟩ = .ok (.regClearBits 0x410 0xFFFFFFFF) := by decide
/-- V41.3. -/
theorem test_decode_txInit :
    decode ⟨0x1000000000000000, 0xFFFFFFFFFFFFFF00⟩ = .ok (.txInit 0xFFFFFFFFFFFFFF00) := by decide
/-- R115. -/
theorem test_decode_txEnqueue : decode ⟨0x1101003C00000000, 0x123000⟩ = .ok (.txEnqueue 0x123000 60 true) := by decide
/-- V42.1. -/
theorem test_decode_rxInit : decode ⟨0x2000000000000000, 0x300000⟩ = .ok (.rxInit 0x300000) := by decide
/-- V42.2. -/
theorem test_decode_rxPoll : decode ⟨0x2100000000000000, 0⟩ = .ok .rxPoll := by decide
/-- V43.1. -/
theorem test_decode_intAck : decode ⟨0x3000000000000000, 0⟩ = .ok .intAck := by decide

/-- V40.24, V40.25, V40.26, V41.14, V41.15, V42.15, V43.7: reserved bits. -/
theorem test_decode_refuses_reserved_bits :
    [(⟨0x0200000000000100, 0x100000002⟩ : Command), ⟨0x01000000000000C0, 1⟩, ⟨0x0100000100000400, 0⟩,
      ⟨0x1101003C00000001, 0x123000⟩, ⟨0x1103003C00000000, 0x123000⟩, ⟨0x2100000000000000, 1⟩,
      ⟨0x30000000000000C0, 0⟩].map decode = List.replicate 7 (.error .reservedBitSet) := by decide

/-- V40.27, V40.28 and the last opcode of R113. -/
theorem test_decode_refuses_unassigned_opcodes :
    [(⟨0x0500000000000000, 0⟩ : Command), ⟨0, 0⟩, ⟨0xFF00000000000000, 0⟩].map decode =
      List.replicate 3 (.error .unassignedOpcode) := by decide

/-- P1 of 95_test_vectors: the words of the attach program, from its mnemonics (70_reset_and_hazards R267). -/
theorem test_attach_program_words :
    (attachProgram (some 0x563412005452) none none 0x200000 0x300000 2).map encode =
      [⟨0x0200000000005400, 0x12005452⟩, ⟨0x0200000000005404, 0x80005634⟩, ⟨0x1000000000000000, 0x200000⟩,
       ⟨0x2000000000000000, 0x300000⟩, ⟨0x0200000000000100, 2⟩, ⟨0x02000000000000D0, 0x11⟩] := by decide

/-- R7, R30: a TIDV_INIT the host does give becomes one REG_WRITE of 0x03820. -/
theorem test_attach_program_writes_tidv :
    (attachProgram none none (some 8) 0x200000 0x300000 2).map encode =
      [⟨0x0200000000003820, 8⟩, ⟨0x1000000000000000, 0x200000⟩, ⟨0x2000000000000000, 0x300000⟩,
       ⟨0x0200000000000100, 2⟩, ⟨0x02000000000000D0, 0x11⟩] := by decide

/-- L1.8 and L1.9: TCTL_INIT and TIPG_INIT from their fields. -/
theorem test_init_literals : tctlFields = Config.tctlInit ∧ tipgFields = Config.tipgInit := by decide

/-! ### Commands -/

/-- V40.23: a read of ICR answers the causes and clears them, with no hints. -/
theorem test_regRead_icr : runs (exec (.regRead 0xC0) (pending 0x91 0)) (fun t =>
    answered t 0x0000009100000000 0 [] && t.dev.icr == 0) = true := by decide +kernel

/-- V40.3: an offset in a gap. -/
theorem test_regRead_gap : runs (exec (.regRead 0x4) bare) (fun t =>
    answered t 0x02FF 0 [] && t.block.faultCode == 0x02 && t.block.faultW0 == 0x0100000000000004 &&
      t.bus == []) = true := by decide +kernel

/-- V40.14: IMS sets bits of the mask. -/
theorem test_regWrite_ims : runs (exec (.regWrite 0xD0 0x11) (pending 0 0x04)) (fun t =>
    answered t 0 0 [] && t.dev.ims == 0x15) = true := by decide +kernel

/-- V40.15: IMC clears bits of the mask. -/
theorem test_regWrite_imc : runs (exec (.regWrite 0xD8 0x01) (pending 0 0x15)) (fun t =>
    answered t 0 0 [] && t.dev.ims == 0x14) = true := by decide +kernel

/-- V40.18. -/
theorem test_regSetBits_tctl : runs (exec (.regSetBits 0x400 2) (stored .tctl 0x00040108)) (fun t =>
    answered t 0x0004010800000000 0 [] && t.dev.store.tctl == some 0x0004010A) = true := by decide +kernel

/-- V40.13: a read-modify-write of IMS is denied. -/
theorem test_regSetBits_ims : runs (exec (.regSetBits 0xD0 1) bare) (fun t => answered t 0x03FF 0 []) = true := by
  decide +kernel

/-- V40.19. -/
theorem test_regClearBits_tctl : runs (exec (.regClearBits 0x400 2) (stored .tctl 0x0004010A)) (fun t =>
    answered t 0x0004010A00000000 0 [] && t.dev.store.tctl == some 0x00040108) = true := by decide +kernel

/-- V40.10: CTRL is unmodelled, which marks the run. -/
theorem test_regClearBits_ctrl : runs (exec (.regClearBits 0x0 1) bare) (fun t =>
    answered t 0x04FF 0 [] && t.outside) = true := by decide +kernel

/-- V41.1: slot 15 of the new ring, and the registers. -/
theorem test_txInit : runs (exec (.txInit 0x200000) bare) (fun t =>
    answered t 0 0 [] && slotBytes t 0x2000F0 == [0, 0, 0, 0, 0, 0, 0, 0, 0, 0, 0, 0, 1, 0, 0, 0] &&
      t.dev.store.tdlen == some 0x100 && t.dev.tdt == some 0) = true := by decide +kernel

/-- V41.4: a base past 2^64 - 256. -/
theorem test_txInit_out_of_range : runs (exec (.txInit 0xFFFFFFFFFFFFFF10) bare) (fun t =>
    answered t 0x07FF 0 [] && t.mem == []) = true := by decide +kernel

/-- V41.7. -/
theorem test_txEnqueue : runs (exec (.txEnqueue 0x123000 60 true) (txState 0 1)) (fun t =>
    answered t 0 0 [] && t.events == [.pin 0x123000] && t.block.txTail.val == 1 && t.dev.tdt == some 1 &&
      slotBytes t 0x200000 == [0, 0x30, 0x12, 0, 0, 0, 0, 0, 0x3C, 0, 0, 0x89, 0, 0, 0, 0]) = true := by decide +kernel

/-- V41.21: EC, LC and TU set but DD clear is BUSY. -/
theorem test_txEnqueue_busy : runs (exec (.txEnqueue 0x140000 60 true) (txState 0 0x0E)) (fun t =>
    answered t 0x01 0 [] && t.mem == (txState 0 0x0E).mem) = true := by decide +kernel

/-- V42.1: the last slot carries buffer 127, and RDT is the gap. By the laws of RX_INIT: the ring is too long to evaluate. -/
theorem test_rxInit : ∃ t, exec (.rxInit 0x300000) bare = .next t ∧
    Memory.readLE t.mem 0x3007F0 8 = 0x47F000 ∧ t.dev.rdt = some 0x7F := by
  refine ⟨_, exec_done rfl (rxInitBody_done rfl (by decide)), ?_, by simp⟩
  have h := rxInitDone_rxBound 0x300000 bare (by simp) (127 : Fin 128)
  simpa [bare, Params.reference, Params.rxBufAddr, slotAddr, Config.descBytes] using h

/-- V42.13: a base past 2^64 - 2048. -/
theorem test_rxInit_out_of_range : runs (exec (.rxInit 0xFFFFFFFFFFFFF810) bare) (fun t =>
    answered t 0x07FF 0 []) = true := by decide +kernel

/-- V42.5: the last slot, one byte at 0x47F000; the cursor wraps. -/
theorem test_rxPoll_wraps :
    let s := rxState 127 1 0x03 0
    runs (exec .rxPoll { s with mem := s.mem ++ [(0x47F000, 0xA5)] }) (fun t =>
      answered t 0 0x0000007F00030001 [0xA5] && t.dev.rdt == some 0x7F && t.block.rxCursor.val == 0) = true := by
  decide +kernel

/-- V42.6: a length one past the buffer. -/
theorem test_rxPoll_overrun : runs (exec .rxPoll (rxState 0 4097 0x03 0)) (fun t =>
    answered t 0x08FF 0 [] && t.block.rxCursor.val == 0 && t.dev.rdt == some 0x7F) = true := by decide +kernel

/-- V43.1. -/
theorem test_intAck : runs (exec .intAck (pending 0x11 0)) (fun t =>
    answered t 0x0000001100030000 0 [] && t.dev.icr == 0) = true := by decide +kernel

/-- V43.3: RXT0 gives no hint. -/
theorem test_intAck_no_hint : runs (exec .intAck (pending 0x80 0)) (fun t =>
    answered t 0x0000008000000000 0 [] && t.dev.icr == 0) = true := by decide +kernel

/-! ### The port, the device and reset -/

/-- V60.4: on a faulted block the sticky code answers, and the fault words stay. -/
theorem test_faulted_block_is_stuck :
    let s := { bare with block := { bare.block with faultCode := 0x02, faultW0 := 0x0200000000000004 } }
    runs (step (holding ⟨0x0200000000000008, 0⟩ s)) (fun t =>
      answered t 0x02FF 0 [] && t.block.faultW0 == 0x0200000000000004) = true := by decide +kernel

/-- V44.1: the posted slot is consumed, its status is DD, the head advances, TXDW is raised. -/
theorem test_devTx :
    let s := txState 1 1
    let m := [(0x200000, 0x00), (0x200001, 0x30), (0x200002, 0x12), (0x200003, 0), (0x200004, 0), (0x200005, 0),
      (0x200006, 0), (0x200007, 0), (0x200008, 0x02), (0x200009, 0), (0x20000B, 0x89), (0x20000C, 0),
      (0x123000, 0xB0), (0x123001, 0xB1)]
    runs (step (withTurn (.devTx true 0 true) { s with mem := m })) (fun t =>
      t.dev.wire == [[0xB0, 0xB1]] && Memory.byte t.mem 0x20000C == 0x01 && t.dev.tdh == some 1 &&
        t.dev.icr == 0x01) = true := by decide +kernel

/-- V44.4, with a shorter frame: the bytes land at 0x400000, DD is set, RDH advances, RXDMT0 is raised. -/
theorem test_devRx :
    let s := rxState 0 0 0 0
    let m := [(0x300000, 0x00), (0x300001, 0x00), (0x300002, 0x40), (0x300003, 0), (0x300004, 0), (0x300005, 0),
      (0x300006, 0), (0x300007, 0)]
    runs (step (withTurn (.devRx [0xB0, 0xB1] 0 0 0 0x02 0x10) { s with mem := m })) (fun t =>
      Memory.readBytes t.mem 0x400000 2 == [0xB0, 0xB1] && Memory.byte t.mem 0x300008 == 2 &&
        Memory.byte t.mem 0x30000C == 0x03 && t.dev.rdh == some 1 && t.dev.icr == 0x10) = true := by decide +kernel

/-- R275, U19: an open buffer is overwritten, and one that is not open is left alone. -/
theorem test_devOverwrite :
    let s := { bare with rxOpen := bare.rxOpen.set 1 true, mem := [(0x400000, 1), (0x401000, 2)] }
    runs (step (withTurn (.devOverwrite 1 [0xEE]) s)) (fun t => t.mem == [(0x400000, 1), (0x401000, 0xEE)]) = true ∧
    runs (step (withTurn (.devOverwrite 0 [0xEE]) s)) (fun t => t.mem == s.mem) = true := by decide +kernel

/-- R275, U19: the RX_POLL that returns slot 127 opens its buffer, the DEV_RX that fills slot 0 closes that one's. -/
theorem test_buffer_opens_and_closes :
    runs (exec .rxPoll (rxState 127 0 1 0)) (fun t => t.rxOpen[127] && !t.rxOpen[126]) = true ∧
    runs (step (withTurn (.devRx [1] 0 0 0 0 0)
      { rxState 0 0 0 0 with rxOpen := (bare.rxOpen.set 0 true).set 1 true })) (fun t =>
        !t.rxOpen[0] && t.rxOpen[1]) = true := by decide +kernel

/-- V44.7: after 16 posts the tail has come round to the head, and DEV_TX is not enabled. -/
theorem test_devTx_full_ring : (txState 0 0).dev.txWork = none := by decide

/-- V70.3: block reset clears the fault and leaves the NIC. -/
theorem test_blockReset :
    let s := { stored .rctl 2 with block := { bare.block with faultCode := 0x02, rxReady := true } }
    runs (step (withTurn .blockReset s)) (fun t =>
      t.block.faultCode == 0 && t.block.rxReady == false && t.dev.store.rctl == some 2) = true := by decide +kernel

/-! ### Witnesses: states and operands that meet the hypotheses of each statement -/

theorem witness_BlockResetStep : (withTurn .blockReset bare).turnOf .blockReset [] := rfl

/-- Both ways the block has the turn. -/
theorem witness_StepRunsDecodedCommand :
    (holding ⟨0x3000000000000000, 0⟩ bare).takes ⟨0x3000000000000000, 0⟩ [] ∧
    ({ holding ⟨0x3000000000000000, 0⟩ bare with schedule := [.execute] } : State).takes ⟨0x3000000000000000, 0⟩ [] ∧
    decode ⟨0x3000000000000000, 0⟩ = .ok .intAck := ⟨⟨.inl rfl, rfl⟩, ⟨.inr ⟨[], rfl⟩, rfl⟩, by decide⟩

theorem witness_EmptyPortWaits :
    bare.schedule = [] ∧ bare.commands = [] ∧ ({ bare with schedule := [.execute] } : State).schedule = .execute :: [] :=
  ⟨rfl, rfl, rfl⟩

theorem witness_IssuedCommandsQueue : (withTurn (.issue ⟨0, 0⟩) bare).turnOf (.issue ⟨0, 0⟩) [] := rfl

/-- The lowest and the highest reserved bit of each format, in W0 and in W1. -/
theorem witness_ReservedBitsFault :
    (∀ c : Command, (holding c bare).takes c [] ∧ (holding c bare).live) ∧
    ∀ c ∈ [(⟨0x0100000000100000, 0⟩ : Command), ⟨0x0180000000000000, 0⟩, ⟨0x0100000000000000, 1⟩,
        ⟨0x0200000000100000, 0⟩, ⟨0x0280000000000000, 0⟩, ⟨0x0200000000000000, 0x100000000⟩,
        ⟨0x0300000000100000, 0⟩, ⟨0x0300000000000000, 0x8000000000000000⟩, ⟨0x0400000000100000, 0⟩,
        ⟨0x1000000000000001, 0⟩, ⟨0x1080000000000000, 0⟩, ⟨0x1100000000000001, 0⟩, ⟨0x1100000080000000, 0⟩,
        ⟨0x1102000000000000, 0⟩, ⟨0x1180000000000000, 0⟩, ⟨0x2000000000000001, 0⟩, ⟨0x2100000000000001, 0⟩,
        ⟨0x2100000000000000, 1⟩, ⟨0x3000000000000001, 0⟩, ⟨0x3000000000000000, 0x8000000000000000⟩],
      (reservedMasks (c.w0.extractLsb' 56 8)).any (fun m => c.w0 &&& m.1 != 0 || c.w1 &&& m.2 != 0) = true := ⟨fun _ => ⟨⟨.inl rfl, rfl⟩, rfl⟩, by decide⟩

/-- The ends of the ranges of R113. -/
theorem witness_UnassignedOpcodesFault :
    ∀ op ∈ [0x00#8, 0x05, 0x0F, 0x12, 0x1F, 0x22, 0x2F, 0x31, 0xFF],
      (op.setWidth 64 <<< 56 : Word64).extractLsb' 56 8 ∉ [0x01#8, 0x02, 0x03, 0x04, 0x10, 0x11, 0x20, 0x21, 0x30] := by
  decide

theorem witness_DecodeOfEncode :
    (Instr.regRead 0xFFFFF).wf ∧ (Instr.regWrite 0xFFFFF 0xFFFFFFFF).wf ∧ (Instr.txEnqueue 0 0xFFFF true).wf := by decide

theorem witness_EncodeOfDecode : decode ⟨0x11FFFFFF00000000 &&& 0xFF01FFFF00000000, 0⟩ = .ok (.txEnqueue 0 0xFFFF true) := by
  decide

theorem witness_MemoryIsLittleEndian : (8 : Nat) ≤ 8 ∧ (0 : Nat) < 8 ∧ (7 : Nat) < 8 ∧ inRange 8 0 8 = false := by decide

theorem witness_live : bare.live ∧ (txState 0 1).live ∧ (rxState 0 0 1 0).live := ⟨rfl, rfl, rfl⟩

/-- RegReadAnswers, and IntAckAnswers: a register that holds a value and one that does not. -/
theorem witness_RegReadAnswers : bare.live ∧ regGives bare.dev .icr = some 0 ∧ regGives bare.dev .tctl = none :=
  ⟨rfl, rfl, rfl⟩

/-- RegWriteAnswers, RepeatedWritesAreIdempotent: every register REG_WRITE may write. -/
theorem witness_RegWriteAnswers :
    bare.live ∧ ∀ r ∈ [Reg.ims, .imc, .rctl, .tctl, .tipg, .rsrpd, .tidv, .mta, .ral0, .rah0],
      ∃ d, regTakes bare.dev r 0xFFFFFFFF = some d := by
  refine ⟨rfl, fun r hr => ?_⟩
  simp only [List.mem_cons, List.not_mem_nil, or_false] at hr
  rcases hr with rfl | rfl | rfl | rfl | rfl | rfl | rfl | rfl | rfl | rfl <;> exact ⟨_, rfl⟩

/-- RegSetBitsAnswers, RegClearBitsAnswers, MaskLaws: the first and the last storage register, one holding a value. -/
theorem witness_MaskLaws :
    (stored .rctl 0xFFFFFFFF).live ∧ Reg.rctl ∈ storageRegs ∧ Reg.rah0 ∈ storageRegs ∧
    holds (stored .rctl 0xFFFFFFFF) .rctl 0xFFFFFFFF ∧ holds (stored .rah0 0) .rah0 0 :=
  ⟨rfl, by decide, by decide, rfl, rfl⟩

/-- V40.3 to V40.5, and the offset just past the 20 bits of OFS. -/
theorem witness_OffsetsOutsideMapFault :
    bare.live ∧ (0x00004 : Word32) ∉ mapOffsets ∧ (0x00402 : Word32) ∉ mapOffsets ∧ (0x05408 : Word32) ∉ mapOffsets ∧
    (0xFFFFF : Word32) ∉ mapOffsets ∧ (0x100000 : Word32) ∉ mapOffsets :=
  ⟨rfl, by decide, by decide, by decide, by decide, by decide⟩

/-- AccessRightsByRegister: each of its clauses has a register. -/
theorem witness_AccessRightsByRegister :
    bare.live ∧ Reg.status ∈ writeDeniedRegs ∧ Reg.tdt ∈ writeDeniedRegs ∧ Reg.ctrl ∉ writeDeniedRegs ∧
    Reg.ims ∉ writeDeniedRegs ∧ Reg.imc ∉ writeDeniedRegs ∧ Reg.rctl ∉ writeDeniedRegs := ⟨rfl, by decide⟩

theorem witness_RegCommandsIgnoreRings :
    Instr.regRead 0xC0 ∈ [Instr.regRead 0xC0, .regWrite 0xC0 0, .regSetBits 0xC0 0, .regClearBits 0xC0 0] ∧
    (txState 15 1).block.faultCode = bare.block.faultCode ∧ ∃ t, exec (.regRead 0xC0) bare = .next t :=
  ⟨by decide, rfl, _, rfl⟩

/-- TxInitCompletes, TxInitOrder: the lowest and the highest base (V41.3). -/
theorem witness_TxInitCompletes :
    bare.live ∧ bare.block.txReady = false ∧ ∀ base ∈ [(0 : Addr), 0xFFFFFFFFFFFFFF00],
      base.toNat % 16 = 0 ∧ base.toNat ≤ 2 ^ 64 - 256 := ⟨rfl, rfl, by simp⟩

/-- V41.5; V41.2 and V41.4. -/
theorem witness_TxInitFaults :
    ((txState 0 1).live ∧ (txState 0 1).block.txReady = true) ∧ bare.live ∧ bare.block.txReady = false ∧
    (0x200008 : Addr).toNat % 16 ≠ 0 ∧ (0xFFFFFFFFFFFFFF10 : Addr).toNat > 2 ^ 64 - 256 :=
  ⟨⟨rfl, rfl⟩, rfl, rfl, by simp, by simp⟩

/-- TxEnqueuePosts, TxDoorbellIsLast: the last byte of a page (V41.9), length 0 (V41.11), a whole page (V41.13); the
first and the last slot. -/
theorem witness_TxEnqueuePosts :
    ((txState 0 1).live ∧ (txState 0 1).block.txReady = true ∧ ddAt (txState 0 1).mem (txState 0 1).txSlot = true) ∧
    ((txState 15 1).live ∧ (txState 15 1).block.txReady = true ∧ ddAt (txState 15 1).mem (txState 15 1).txSlot = true) ∧
    (txState 0 1).params = Params.reference ∧ (txState 15 1).params = Params.reference ∧
    (0x123F00 : Addr).toNat % Params.reference.pageSize + (256 : Word16).toNat ≤ Params.reference.pageSize ∧
    (0x123FFF : Addr).toNat % Params.reference.pageSize + (0 : Word16).toNat ≤ Params.reference.pageSize ∧
    (0x123000 : Addr).toNat % Params.reference.pageSize + (4096 : Word16).toNat ≤ Params.reference.pageSize :=
  ⟨⟨rfl, rfl, by decide⟩, ⟨rfl, rfl, by decide⟩, rfl, rfl, by simp [Params.pageSize, Params.reference],
    by simp [Params.pageSize, Params.reference], by simp [Params.pageSize, Params.reference]⟩

/-- V41.21. -/
theorem witness_TxEnqueueBusyIsSideEffectFree :
    (txState 15 0x0E).live ∧ (txState 15 0x0E).block.txReady = true ∧
    (0x123F00 : Addr).toNat % (txState 15 0x0E).params.pageSize + (256 : Word16).toNat ≤
      (txState 15 0x0E).params.pageSize ∧
    ddAt (txState 15 0x0E).mem (txState 15 0x0E).txSlot = false := ⟨rfl, rfl, by decide +kernel, by decide +kernel⟩

/-- V41.6; V41.10. -/
theorem witness_TxEnqueueFaults :
    (bare.live ∧ bare.block.txReady = false) ∧ (txState 0 1).live ∧ (txState 0 1).block.txReady = true ∧
    (0x123F01 : Addr).toNat % (txState 0 1).params.pageSize + (256 : Word16).toNat > (txState 0 1).params.pageSize :=
  ⟨⟨rfl, rfl⟩, rfl, rfl, by decide +kernel⟩

/-- A ring whose 16 slots are all free, the cursor on the last. -/
def freeRing : State :=
  { txState 15 1 with mem := (List.range 16).map fun i => (0x20000C + 16 * i, (1 : Byte)) }

theorem witness_RingTakesSixteenPosts :
    freeRing.live ∧ freeRing.block.txReady = true ∧
    (∀ i, i < 16 → ddAt freeRing.mem (slotAddr freeRing.block.txBase i) = true) ∧
    (List.replicate 16 ((0x123F00 : Addr), (256 : Word16), true)).length = 16 ∧
    ∀ x ∈ List.replicate 16 ((0x123F00 : Addr), (256 : Word16), true),
      x.1.toNat % freeRing.params.pageSize + x.2.1.toNat ≤ freeRing.params.pageSize := by
  refine ⟨rfl, rfl, fun i hi => ?_, rfl, fun x hx => ?_⟩
  · interval_cases i <;> decide
  · rw [(List.mem_replicate.1 hx).2]
    simp [freeRing, txState, bare, Params.pageSize, Params.reference]

/-- The lowest and the highest base (V42.12). -/
theorem witness_RxInitCompletes :
    bare.live ∧ bare.block.rxReady = false ∧ ∀ base ∈ [(0 : Addr), 0xFFFFFFFFFFFFF800],
      base.toNat % 16 = 0 ∧ base.toNat ≤ 2 ^ 64 - 2048 := ⟨rfl, rfl, by simp⟩

/-- V42.14; V42.11 and V42.13. -/
theorem witness_RxInitFaults :
    ((rxState 0 0 0 0).live ∧ (rxState 0 0 0 0).block.rxReady = true) ∧ bare.live ∧ bare.block.rxReady = false ∧
    (0x300004 : Addr).toNat % 16 ≠ 0 ∧ (0xFFFFFFFFFFFFF810 : Addr).toNat > 2 ^ 64 - 2048 :=
  ⟨⟨rfl, rfl⟩, rfl, rfl, by simp, by simp⟩

/-- RxPollDelivers, RxPollCopiesBeforeReturn: a full buffer (V42.7), an empty packet (V42.8), the last slot (V42.5). -/
theorem witness_RxPollDelivers :
    ((rxState 0 4096 1 0).live ∧ (rxState 0 4096 1 0).block.rxReady = true ∧
      ddAt (rxState 0 4096 1 0).mem (rxState 0 4096 1 0).rxSlot = true ∧
      (Memory.readLE (rxState 0 4096 1 0).mem ((rxState 0 4096 1 0).rxSlot + 8) 2).toNat ≤
        (rxState 0 4096 1 0).params.pageSize) ∧
    ((rxState 0 0 1 0).live ∧ (rxState 0 0 1 0).block.rxReady = true ∧
      ddAt (rxState 0 0 1 0).mem (rxState 0 0 1 0).rxSlot = true ∧
      (Memory.readLE (rxState 0 0 1 0).mem ((rxState 0 0 1 0).rxSlot + 8) 2).toNat ≤
        (rxState 0 0 1 0).params.pageSize) ∧
    (rxState 127 1 1 0).live ∧ (rxState 127 1 1 0).block.rxReady = true ∧
      ddAt (rxState 127 1 1 0).mem (rxState 127 1 1 0).rxSlot = true ∧
      (Memory.readLE (rxState 127 1 1 0).mem ((rxState 127 1 1 0).rxSlot + 8) 2).toNat ≤
        (rxState 127 1 1 0).params.pageSize :=
  ⟨⟨rfl, rfl, by decide +kernel, by decide +kernel⟩, ⟨rfl, rfl, by decide +kernel, by decide +kernel⟩, rfl, rfl,
    by decide +kernel, by decide +kernel⟩

/-- V42.2. -/
theorem witness_RxPollNoDataIsSideEffectFree :
    (rxState 127 0 0xFE 0).live ∧ (rxState 127 0 0xFE 0).block.rxReady = true ∧
    ddAt (rxState 127 0 0xFE 0).mem (rxState 127 0 0xFE 0).rxSlot = false := ⟨rfl, rfl, by decide +kernel⟩

/-- V42.10; V42.6. -/
theorem witness_RxPollFaults :
    (bare.live ∧ bare.block.rxReady = false) ∧ (rxState 0 4097 0x03 0).live ∧
    (rxState 0 4097 0x03 0).block.rxReady = true ∧
    ddAt (rxState 0 4097 0x03 0).mem (rxState 0 4097 0x03 0).rxSlot = true ∧
    (Memory.readLE (rxState 0 4097 0x03 0).mem ((rxState 0 4097 0x03 0).rxSlot + 8) 2).toNat >
      (rxState 0 4097 0x03 0).params.pageSize := ⟨⟨rfl, rfl⟩, rfl, rfl, by decide +kernel, by decide +kernel⟩

/-- IntAckAnswers, SecondIntAckReportsNothing, InterruptLineFollowsCausesAndMask. -/
theorem witness_IntAckAnswers : (pending 0xFFFFFFFF 0).live ∧ (pending 0 0).live := ⟨rfl, rfl⟩

/-- A step that clears the highest cause, and the commands of the other two clauses. -/
theorem witness_CausesClearedOnlyByReads :
    (∃ t, step (holding ⟨0x3000000000000000, 0⟩ (pending 0x80000000 0)) = .next t ∧ t.dev.icr.getLsbD 31 = false) ∧
    (pending 0x80000000 0).dev.icr.getLsbD 31 = true ∧ (pending 0x80000000 0).live ∧
    Instr.regRead 0xC0 ∈ [Instr.intAck, .regRead 0xC0] ∧
    Instr.regSetBits 0xC0 0 ∈ [Instr.regWrite 0xC0 0, .regSetBits 0xC0 0, .regClearBits 0xC0 0] := by
  refine ⟨?_, by decide, rfl, by decide, by decide⟩
  obtain ⟨t, h, hp⟩ := next_of_runs (p := fun t => !t.dev.icr.getLsbD 31)
    (show runs (step (holding ⟨0x3000000000000000, 0⟩ (pending 0x80000000 0))) _ = true by decide +kernel)
  exact ⟨t, h, by simpa using hp⟩

/-- A faulted block: with a command, and with another agent's turn. -/
theorem witness_FaultedBlockIsStuck :
    let s := { bare with block := { bare.block with faultCode := 0x08 } }
    s.block.faultCode ≠ 0 ∧ (holding ⟨0, 0⟩ s).takes ⟨0, 0⟩ [] ∧
    (withTurn (.devCause 1) s).turnOf (.devCause 1) [] ∧ AgentStep.devCause 1 ≠ .blockReset :=
  ⟨by decide, ⟨.inl rfl, rfl⟩, rfl, by decide⟩

/-- V40.3, and V40.28 on the port. -/
theorem witness_FaultsArePrecise :
    bare.live ∧ (∃ t, exec (.regRead 0x4) bare = .next t ∧ (t.block.faultCode != 0) = true) ∧
    (holding ⟨0, 0⟩ bare).live ∧ (holding ⟨0, 0⟩ bare).takes ⟨0, 0⟩ [] ∧ decode ⟨0, 0⟩ = .error .unassignedOpcode ∧
    ∃ t, step (holding ⟨0, 0⟩ bare) = .next t :=
  ⟨rfl, next_of_runs (by decide +kernel), rfl, ⟨.inl rfl, rfl⟩, by decide,
    (next_of_runs (p := fun _ => true) (by decide +kernel)).imp fun _ h => h.1⟩

/-- Each kind of write changes a byte. -/
theorem witness_BlockWriteFootprint :
    (∃ t, exec (.txInit 0x200000) { bare with mem := [(0x2000FF, 0xFF)] } = .next t ∧
      (Memory.byte t.mem 0x2000FF != Memory.byte [(0x2000FF, 0xFF)] 0x2000FF) = true) ∧
    (∃ t, exec (.txEnqueue 0x123000 60 true) (txState 15 1) = .next t ∧
      (Memory.byte t.mem 0x2000FC != Memory.byte (txState 15 1).mem 0x2000FC) = true) ∧
    (∃ t, exec .rxPoll (rxState 127 0 1 1) = .next t ∧
      (Memory.byte t.mem 0x3007FD != Memory.byte (rxState 127 0 1 1).mem 0x3007FD) = true) :=
  ⟨next_of_runs (by decide +kernel), next_of_runs (by decide +kernel), next_of_runs (by decide +kernel)⟩

theorem witness_BlockWriteFootprint_rxInit :
    ∃ t, exec (.rxInit 0x300000) { bare with mem := [(0x3007FF, 0xFF)] } = .next t ∧
      Memory.byte t.mem 0x3007FF ≠ Memory.byte [(0x3007FF, 0xFF)] 0x3007FF := by
  refine ⟨_, exec_done rfl (rxInitBody_done rfl (by decide)), ?_⟩
  rw [respond_mem, rxInitDone_mem, byte_writeRxRing _ _ _ _ _ (by simp [rxRingInit, Config.mRx])]
  have h : (0x3007FF - 0x300000 : Addr).toNat = 2047 := by decide
  rw [h, if_pos (by decide)]
  simp [rxRingInit, rxDescriptorInit, RxDescriptor.byteAt, bare, Memory.byte, Memory.lookup]

theorem witness_RingsAreIndependent :
    (∃ t, exec (.txEnqueue 0x123000 60 true) (txState 0 1) = .next t ∧ (t.block.txTail.val == 1) = true) ∧
    (∃ t, exec .rxPoll (rxState 0 0 1 0) = .next t ∧ (t.block.rxCursor.val == 1) = true) ∧
    Instr.txEnqueue 0x123000 60 true ∈ [Instr.txInit 0, .txEnqueue 0x123000 60 true] ∧
    Instr.rxPoll ∈ [Instr.rxInit 0, .rxPoll] :=
  ⟨next_of_runs (by decide +kernel), next_of_runs (by decide +kernel), by decide, by decide⟩

/-- DevTxConsumes and DisabledDeviceDoesNothing's opposite: head on the last slot, the smallest length register. -/
theorem witness_DevTxConsumes :
    let s := txState 0 1
    let d := { s.dev with tdh := some 15 }
    (withTurn (.devTx true 0x0F true) { s with dev := d }).turnOf (.devTx true 0x0F true) [] ∧
    d.store.tctl = some 0x0004010A ∧ (0x0004010A : Word32).getLsbD 1 = true ∧ d.store.tdbal = some 0x200000 ∧
    d.store.tdbah = some 0 ∧ d.store.tdlen = some 256 ∧ 16 ≤ (256 : Word32).toNat ∧ 16 ≤ (16 : Word32).toNat ∧
    d.tdh = some 15 ∧ d.tdt = some 0 ∧ (15 : Word32) ≠ 0 := by
  exact ⟨rfl, rfl, by decide, rfl, rfl, rfl, by decide, by decide, rfl, rfl, by decide⟩

/-- DevRxDelivers: the shortest and the longest frame. -/
theorem witness_DevRxDelivers :
    let s := rxState 0 0 0 0
    (withTurn (.devRx [0xA5] 0 0 0 0xFF 0xFFFFFFFF) s).turnOf (.devRx [0xA5] 0 0 0 0xFF 0xFFFFFFFF) [] ∧ s.params.wf ∧
    1 ≤ [0xA5#8].length ∧ 1 ≤ (List.replicate 4096 0#8).length ∧
    (List.replicate 4096 0#8).length ≤ s.params.pageSize ∧ s.dev.store.rctl = some 2 ∧
    (2 : Word32).getLsbD 1 = true ∧ s.dev.store.rdbal = some 0x300000 ∧ s.dev.store.rdbah = some 0 ∧
    s.dev.store.rdlen = some 2048 ∧ 16 ≤ (2048 : Word32).toNat ∧ s.dev.rdh = some 0 ∧ s.dev.rdt = some 0x7F ∧
    (0 : Word32) ≠ 0x7F := by
  refine ⟨rfl, Params.reference_wf, by decide, by rw [List.length_replicate]; decide,
    by rw [List.length_replicate]; decide +kernel, rfl,
    by decide, rfl, rfl, rfl, by decide, rfl, by decide, by decide⟩

theorem witness_DevCauseAddsCauses : (withTurn (.devCause 4) bare).turnOf (.devCause 4) [] := rfl

/-- EN never written, EN clear, and head equal to tail, for each ring. -/
theorem witness_DisabledDeviceDoesNothing :
    (withTurn (.devTx true 0 true) bare).turnOf (.devTx true 0 true) [] ∧
    (withTurn (.devRx [] 0 0 0 0 0) bare).turnOf (.devRx [] 0 0 0 0 0) [] ∧
    bare.dev.store.tctl = none ∧ bare.dev.store.rctl = none ∧
    (stored .tctl 0xFFFFFFFD).dev.store.tctl = some 0xFFFFFFFD ∧ (0xFFFFFFFD : Word32).getLsbD 1 = false ∧
    (txState 0 1).dev.tdh = (txState 0 1).dev.tdt ∧ (rxState 1 0 0 0).dev.rdh = (rxState 1 0 0 0).dev.rdt :=
  ⟨rfl, rfl, rfl, rfl, rfl, by decide, rfl, by decide⟩

theorem witness_DeviceNeverWritesTails :
    (withTurn (.devTx true 0 true) (txState 1 1)).turnOf (.devTx true 0 true) [] ∧
    (withTurn (.devRx [0] 0 0 0 0 0) (rxState 0 0 0 0)).turnOf (.devRx [0] 0 0 0 0 0) [] ∧
    (withTurn (.devCause 1) bare).turnOf (.devCause 1) [] ∧
    (withTurn (.devOverwrite 127 [1]) bare).turnOf (.devOverwrite 127 [1]) [] := ⟨rfl, rfl, rfl, rfl⟩

/-- A TX status byte written back, an RX status byte completed, and an open buffer overwritten. -/
theorem witness_DeviceMemoryFootprint :
    (∃ t, step (withTurn (.devTx false 0 false) { txState 1 1 with mem := [(0x200008, 0), (0x200009, 0), (0x20000B, 8),
        (0x20000C, 0)] }) = .next t ∧ (Memory.byte t.mem 0x20000C != 0) = true) ∧
    (∃ t, step (withTurn (.devRx [0xA5] 0 0 0 0 0) { rxState 0 0 0 0 with mem := [(0x300000, 0), (0x300001, 0),
        (0x300002, 0x40), (0x300003, 0), (0x300004, 0), (0x300005, 0), (0x300006, 0), (0x300007, 0),
        (0x30000C, 0)] }) = .next t ∧ (Memory.byte t.mem 0x30000C != 0) = true) ∧
    (∃ t, step (withTurn (.devOverwrite 127 [1]) { bare with rxOpen := bare.rxOpen.set 127 true, mem := [(0x47F000, 0)] })
      = .next t ∧ (Memory.byte t.mem 0x47F000 != 0) = true) :=
  ⟨next_of_runs (by decide +kernel), next_of_runs (by decide +kernel), next_of_runs (by decide +kernel)⟩

/-- An open buffer overwritten whole; and slot 127 holding a frame as long as its buffer, polled with the overwriting
next. -/
theorem witness_ReturnedBufferMayHoldAnything :
    let data := List.replicate 4096 0xEE#8
    let s := withTurn (.devOverwrite 127 data) { rxState 127 4096 1 0 with rxOpen := bare.rxOpen.set 127 true }
    s.turnOf (.devOverwrite 127 data) [] ∧ s.params.wf ∧ s.rxOpen[127] = true ∧ data.length ≤ s.params.pageSize ∧
    s.live ∧ s.block.rxReady = true ∧ ddAt s.mem s.rxSlot = true ∧
    (Memory.readLE s.mem (s.rxSlot + 8) 2).toNat ≤ s.params.pageSize ∧ data.length = s.params.pageSize ∧
    s.schedule = .agent (.devOverwrite s.block.rxCursor data) :: [] := by
  refine ⟨rfl, Params.reference_wf, by decide +kernel, ?_, rfl, rfl, by decide +kernel, by decide +kernel, ?_, rfl⟩
  · rw [List.length_replicate]; decide +kernel
  · rw [List.length_replicate]; decide +kernel

/-- A store to a free byte, and one to an RX buffer, which R266 forbids. -/
theorem witness_HostStoreWritesItsBytes :
    (withTurn (.hostStore 0x100000 [1, 2]) bare).turnOf (.hostStore 0x100000 [1, 2]) [] ∧ [1#8, 2#8].length ≤ 2 ^ 64 ∧
    blockOwns (rxState 0 0 0 0) 0x100000 = false ∧ blockOwns (rxState 0 0 0 0) 0x47FFFF = true :=
  ⟨rfl, by simp, by decide +kernel, by decide +kernel⟩

/-- OutputsOnlyGrow, and every invariant: a step exists from a state that meets it. -/
theorem witness_OutputsOnlyGrow : ∃ t, step bare = .next t := ⟨_, rfl⟩

theorem witness_MemoryStaysCanonical :
    (txState 15 1).memCanonical ∧ ∃ t, step (holding ⟨0x1101003C00000000, 0x123000⟩ (txState 15 1)) = .next t :=
  ⟨by simp [State.memCanonical, txState, Memory.wf],
    (next_of_runs (p := fun _ => true) (by decide +kernel)).imp fun _ h => h.1⟩

/-- The state RX_INIT leaves, another agent having the turn. -/
def ringed : State := rxInitDone 0x300000 (withTurn (.devCause 1) bare)

theorem ringed_steps : ringed.turnOf (.devCause 1) [] ∧ ∃ t, step ringed = .next t := by
  have h : ringed.turnOf (.devCause 1) [] := by rw [State.turnOf, ringed, rxInitDone_schedule]; rfl
  exact ⟨h, _, step_of_turn h⟩

theorem witness_TailsStayMirrored : ringed.tailsMirrored := by
  unfold ringed
  refine ⟨fun h => by simp [withTurn, bare, Block.reset] at h, fun _ => ?_⟩
  rw [rxInitDone_bus]
  refine ⟨?_, by simp [Config.mRx]⟩
  rw [show ∀ (a b c d e : Access), [a, b, c, d, e] = [a, b, c, d] ++ [e] from fun _ _ _ _ _ => rfl, ← List.append_assoc,
    lastWrite_snoc]
  simp [Config.mRx]

theorem witness_RingRegistersStay : ringed.ringRegisters := by
  unfold ringed
  refine ⟨fun h => by simp [withTurn, bare, Block.reset] at h, fun _ => ?_, fun h hh => ?_, fun h hh => ?_⟩
  · refine ⟨by simp, by simp, by simp, by simp, by simp⟩
  · simp [withTurn, bare, Nic.reset] at hh
  · exact ⟨0x800, by simp, by simp at hh; subst hh; decide⟩

/-- A slot bound to a page pinned once. -/
theorem witness_PinsStayAccounted :
    let s := { txState 1 1 with
      block := { (txState 1 1).block with txBound := (Vector.replicate 16 none).set 0 (some 0x123000) }
      events := [.pin 0x123000] }
    s.pinsCovered ∧ s.pinsBalanced ∧ ¬ s.turnOf .blockReset [] := by
  have key : ∀ p : PageId, unpinsOf p [.pin 0x123000] +
      ((Vector.replicate 16 (none : Option PageId)).set 0 (some 0x123000)).toList.count (some p) =
      pinsOf p [.pin 0x123000] := by
    intro p
    by_cases h : (0x123000 : PageId) = p
    · subst h; decide
    · have h' : (some 0x123000 : Option PageId) ≠ some p := fun e => h (Option.some.inj e)
      have h'' : Event.pin 0x123000 ≠ Event.pin p := fun e => h (Event.pin.inj e)
      have c := count_set (Vector.replicate 16 (none : Option PageId)).toList 0 (by simp) (some 0x123000) (some p)
      rw [Vector.toList_set]
      simp only [unpinsOf, pinsOf, List.count_cons, List.count_nil]
      simp at c
      simp_all
  refine ⟨fun p => Nat.le_of_eq (key p), ⟨key, fun h => ?_⟩, fun h => ?_⟩
  · exact Bool.noConfusion h
  · simp [State.turnOf, txState, bare, State.reset] at h

/-- The rings and the pages of 95_test_vectors: the premise of the RX binding invariant after RX_INIT. -/
theorem witness_RxBindingIsNeverChanged :
    ringed.params.wf ∧ ringed.ringRegisters ∧ ringed.rxBound ∧ ringed.layoutOk ∧ ringed.outside = false := by
  refine ⟨?_, witness_RingRegistersStay, rxInitDone_rxBound _ _, fun x => ?_, (rxInitDone_outside _ _).trans rfl⟩
  · rw [ringed, rxInitDone_params]; exact Params.reference_wf
  · simp only [ringed, rxInitDone_dev, rxInitDone_params]
    refine ⟨by simp [inDeviceRing, withTurn, bare, Nic.reset, NicStore.reset],
      by simp [inDeviceRing, withTurn, bare, Nic.reset, NicStore.reset], ?_⟩
    rw [Bool.and_eq_false_iff]
    by_cases h : (x - 0x300000).toNat < 2048
    · right
      simp only [inRxBuffer, List.any_eq_false, withTurn, bare, Params.reference, Vector.toList_ofFn, List.mem_ofFn]
      rintro b ⟨i, rfl⟩ hc
      have hi : i.val < 128 := i.isLt
      replace hc : (x - BitVec.ofNat 64 (0x400000 + 0x1000 * i.val)).toNat < 4096 := of_decide_eq_true hc
      generalize i.val = n at hi hc
      have e : (BitVec.ofNat 64 (0x400000 + 0x1000 * n)).toNat = 0x400000 + 0x1000 * n := by
        rw [BitVec.toNat_ofNat]; omega
      have f : (0x300000 : Addr).toNat = 0x300000 := by decide
      have hx := x.isLt
      rw [BitVec.toNat_sub, e] at hc
      rw [BitVec.toNat_sub, f] at h
      omega
    · left
      simp only [inDeviceRing]
      rw [ringBaseOf_halves]
      simp only [inRange]
      exact decide_eq_false h

end Sys2Proof.Tests
end

section
/-! PROOFS. The encoding: words the decoder rejects raise ILLEGAL_COMMAND (30_encoding R112, R113). -/

namespace Sys2Proof

open Sys2Proof.Machine

/-! ### The reserved bits of each format as masks -/

/-- The bits of W0 and W1 that a format reserves (R103), as masks. -/
def Format.reservedMasks (f : Format) : Word64 × Word64 :=
  match f with
  | .r => (0x00FFFFFFFFF00000, 0xFFFFFFFFFFFFFFFF)
  | .rw => (0x00FFFFFFFFF00000, 0xFFFFFFFF00000000)
  | .t => (0x00FE0000FFFFFFFF, 0)
  | .b => (0x00FFFFFFFFFFFFFF, 0)
  | .n => (0x00FFFFFFFFFFFFFF, 0xFFFFFFFFFFFFFFFF)

/-- A word has no bit in common with the mask of a field that is 0 in it. -/
theorem and_fieldMask_eq_zero {x : Word64} {start len : Nat} (h : x.extractLsb' start len = 0#len) :
    x &&& ((BitVec.allOnes len).setWidth 64 <<< start) = 0#64 := by
  apply BitVec.eq_of_getLsbD_eq
  intro k hk
  by_cases hf : start ≤ k ∧ k - start < len
  · have hbit : x.getLsbD k = false := by
      have := congrArg (BitVec.getLsbD · (k - start)) h
      simpa [BitVec.getLsbD_extractLsb', hf.2, Nat.add_sub_cancel' hf.1] using this
    simp [hbit]
  · have hout : k < start ∨ ¬ k - start < len := by omega
    rcases hout with h' | h' <;> simp [h']

/-- The fields that `decode` compares with 0 (R111) cover every bit of the format's masks. -/
theorem Command.and_reservedMasks_eq_zero {c : Command} {f : Format} (h : c.reservedClear f = true) :
    c.w0 &&& f.reservedMasks.1 = 0 ∧ c.w1 &&& f.reservedMasks.2 = 0 := by
  cases f <;> simp only [Command.reservedClear, Bool.and_eq_true, beq_iff_eq] at h
  case r => exact ⟨and_fieldMask_eq_zero h.1, by simp [h.2]⟩
  case rw => exact ⟨and_fieldMask_eq_zero h.1, and_fieldMask_eq_zero h.2⟩
  case t =>
    have hhigh : c.w0 &&& 0x00FE000000000000 = 0 := and_fieldMask_eq_zero h.1
    have hlow : c.w0 &&& 0x00000000FFFFFFFF = 0 := and_fieldMask_eq_zero h.2
    refine ⟨?_, BitVec.and_zero⟩
    calc c.w0 &&& 0x00FE0000FFFFFFFF
        = (c.w0 &&& 0x00FE000000000000) ||| (c.w0 &&& 0x00000000FFFFFFFF) := by
          rw [← BitVec.and_or_distrib_left]; rfl
      _ = 0 := by rw [hhigh, hlow]; rfl
  case b => exact ⟨and_fieldMask_eq_zero h, BitVec.and_zero⟩
  case n => exact ⟨and_fieldMask_eq_zero h.1, by simp [h.2]⟩

/-! ### What a command that decodes has -/

/-- A command that decodes has an opcode of R110, and the bits which that opcode's format reserves are clear. -/
theorem decode_ok_format {c : Command} {i : Instr} (h : decode c = .ok i) :
    ∃ f : Format, reservedMasks c.op = some f.reservedMasks ∧ c.reservedClear f = true := by
  rcases decode_eq_ok h with ⟨ho, hc, -⟩ | ⟨ho, hc, -⟩ | ⟨ho, hc, -⟩ | ⟨ho, hc, -⟩ | ⟨ho, hc, -⟩ | ⟨ho, hc, -⟩ |
    ⟨ho, hc, -⟩ | ⟨ho, hc, -⟩ | ⟨ho, hc, -⟩ <;> exact ⟨_, by rw [ho]; rfl, hc⟩

theorem decode_ok_reservedMasks {c : Command} {i : Instr} {m0 m1 : Word64} (h : decode c = .ok i)
    (hm : reservedMasks c.op = some (m0, m1)) : c.w0 &&& m0 = 0 ∧ c.w1 &&& m1 = 0 := by
  obtain ⟨f, hf, hc⟩ := decode_ok_format h
  have := Command.and_reservedMasks_eq_zero hc
  rwa [Option.some.inj (hf.symm.trans hm)] at this

theorem decode_ok_op_assigned {c : Command} {i : Instr} (h : decode c = .ok i) :
    c.op ∈ [0x01#8, 0x02, 0x03, 0x04, 0x10, 0x11, 0x20, 0x21, 0x30] := by
  rcases decode_eq_ok h with ⟨ho, -⟩ | ⟨ho, -⟩ | ⟨ho, -⟩ | ⟨ho, -⟩ | ⟨ho, -⟩ | ⟨ho, -⟩ | ⟨ho, -⟩ | ⟨ho, -⟩ | ⟨ho, -⟩ <;>
    rw [ho] <;> decide

/-! ### The step that takes a command which does not decode -/

/-- Words that decode to no instruction raise ILLEGAL_COMMAND on a live block, precisely and before any access. -/
theorem step_of_undecodable {s : State} {c : Command} {rest : List Command} (ht : s.takes c rest) (hl : s.live)
    (hd : ∀ i, decode c ≠ .ok i) : ∃ t, step s = .next t ∧ (s.taken rest).faultedWith t 0x01 c [] := by
  have hfault := takeFault_faultedWith .illegalCommand c (s.taken rest) []
  rw [State.afterReads_nil] at hfault
  refine ⟨_, ?_, hfault⟩
  cases hdec : decode c with
  | ok i => exact absurd hdec (hd i)
  | error e => rw [step_of_takes ht, hdec]; exact rejectCommand_live hl

/-- Settles O8: a command that decodes has no bit under its opcode's reserved masks, so one with such a bit is
rejected. -/
theorem reservedBitsFault : Obligations.ReservedBitsFault := by
  intro s c rest m0 m1 ht hl hm hset
  refine step_of_undecodable ht hl fun i hd => ?_
  obtain ⟨h0, h1⟩ := decode_ok_reservedMasks hd hm
  exact hset.elim (· h0) (· h1)

/-- Settles O9: a command that decodes has one of the nine opcodes, so one with any other is rejected. -/
theorem unassignedOpcodesFault : Obligations.UnassignedOpcodesFault := by
  intro s c rest ht hl hop
  exact step_of_undecodable ht hl fun _ hd => hop (decode_ok_op_assigned hd)

end Sys2Proof
end

section
/-! PROOFS. Register access: offsets outside the map (40_register_access R131), and that a REG_* command neither reads
nor writes the rings (R138). -/

namespace Sys2Proof.Machine

/-! ### The same state with other rings -/

/-- The state with another block and another memory: everything R138 keeps out of a REG_* command's reach. -/
def State.withRings (b : Block) (m : Memory) (s : State) : State := { s with block := b, mem := m }

/-- The ending with its state replaced. -/
def Ending.mapState (g : State → State) (e : Ending) : Ending :=
  match e with
  | .done r t => .done r (g t)
  | .raised f t => .raised f (g t)

theorem regValue_withRings (r : Reg) (b : Block) (m : Memory) (s : State) :
    regValue r (s.withRings b m) = ((regValue r s).1, (regValue r s).2.withRings b m) := by
  have hdev : (s.withRings b m).dev = s.dev := rfl
  simp only [regValue, hdev]
  cases s.dev.held r <;> rfl

theorem mmioRead_withRings (r : Reg) (b : Block) (m : Memory) (s : State) :
    mmioRead r (s.withRings b m) = ((mmioRead r s).1, (mmioRead r s).2.withRings b m) := by
  simp only [mmioRead, regValue_withRings]; rfl

theorem mmioWrite_withRings (r : Reg) (v : Word32) (b : Block) (m : Memory) (s : State) :
    mmioWrite r v (s.withRings b m) = (mmioWrite r v s).withRings b m := rfl

theorem readModifyWrite_withRings (f : Word32 → Word32) (r : Reg) (b : Block) (m : Memory) (s : State) :
    readModifyWrite f r (s.withRings b m) = (readModifyWrite f r s).mapState (State.withRings b m) := by
  simp only [readModifyWrite, mmioRead_withRings, mmioWrite_withRings, Ending.mapState]

theorem withRegister_withRings {body : Reg → State → Ending} {b : Block} {m : Memory} (ofs : Word32) (k : AccessKind)
    (hbody : ∀ r s, body r (s.withRings b m) = (body r s).mapState (State.withRings b m)) (s : State) :
    withRegister ofs k body (s.withRings b m) = (withRegister ofs k body s).mapState (State.withRings b m) := by
  cases hr : regAt ofs with
  | none => rw [withRegister_of_gap hr, withRegister_of_gap hr]; rfl
  | some r =>
    cases hf : accessFault r k with
    | none => rw [withRegister_of_allowed hr hf, withRegister_of_allowed hr hf, hbody]
    | some f => rw [withRegister_of_fault hr hf, withRegister_of_fault hr hf]; rfl

/-! ### The four REG_* commands -/

/-- The REG_* commands at an offset, each with the data or mask `v` where it has one. -/
def regCommands (ofs v : Word32) : List Instr := [.regRead ofs, .regWrite ofs v, .regSetBits ofs v, .regClearBits ofs v]

/-- Every REG_* command checks its offset and its access kind first (R131, R132), and the accesses it then makes do not
depend on the rings. -/
theorem bodyOf_regCommand {ofs v : Word32} {i : Instr} (hi : i ∈ regCommands ofs v) :
    ∃ k body, bodyOf i = withRegister ofs k body ∧
      ∀ b m r s, body r (s.withRings b m) = (body r s).mapState (State.withRings b m) := by
  simp only [regCommands, List.mem_cons, List.not_mem_nil, or_false] at hi
  rcases hi with rfl | rfl | rfl | rfl
  · exact ⟨.read, _, rfl, fun b m r s => by simp only [mmioRead_withRings, Ending.mapState]⟩
  · exact ⟨.write, _, rfl, fun _ _ _ _ => rfl⟩
  · exact ⟨.rmw, _, rfl, fun b m r s => readModifyWrite_withRings _ r b m s⟩
  · exact ⟨.rmw, _, rfl, fun b m r s => readModifyWrite_withRings _ r b m s⟩

theorem bodyOf_regCommand_withRings {ofs v : Word32} {i : Instr} (hi : i ∈ regCommands ofs v) (b : Block) (m : Memory)
    (s : State) : bodyOf i (s.withRings b m) = (bodyOf i s).mapState (State.withRings b m) := by
  obtain ⟨k, body, hb, hbody⟩ := bodyOf_regCommand hi
  rw [hb]
  exact withRegister_withRings ofs k (hbody b m) s

/-! ### Offsets outside the map -/

theorem regOffset_mem_mapOffsets (r : Reg) : regOffset r ∈ mapOffsets := by
  cases r <;> decide

theorem regAt_eq_none {ofs : Word32} (h : ofs ∉ mapOffsets) : regAt ofs = none := by
  cases hr : regAt ofs with
  | none => rfl
  | some r => exact absurd (regOffset_of_regAt hr ▸ regOffset_mem_mapOffsets r) h

/-- Settles O18: no register stands at the offset, so the first check of every REG_* command raises BAD_OFFSET in the
state it found. -/
theorem offsetsOutsideMapFault : Obligations.OffsetsOutsideMapFault := by
  intro s ofs v i hl hofs hi
  obtain ⟨k, body, hb, -⟩ := bodyOf_regCommand hi
  have hraised : bodyOf i s = .raised .badOffset (s.afterReads []) := by
    rw [hb, State.afterReads_nil, withRegister_of_gap (regAt_eq_none hofs)]
  exact exec_raised hl hraised

/-! ### Rings are neither read nor written -/

/-- The two blocks have the same ring state; their fault registers may differ. -/
def Block.sameRings (b c : Block) : Prop :=
  c = { b with faultCode := c.faultCode, faultW0 := c.faultW0, faultW1 := c.faultW1 }

/-- A REG_* command run on other rings ends as it did on these, with the other rings in place. -/
theorem exec_regCommand_withRings {ofs v : Word32} {i : Instr} {s t : State} {b : Block} (m : Memory)
    (hi : i ∈ regCommands ofs v) (hf : b.faultCode = s.block.faultCode) (h : exec i s = .next t) :
    ∃ c, exec i (s.withRings b m) = .next (t.withRings c m) ∧ b.sameRings c ∧ c.faultCode = t.block.faultCode := by
  have hbody := bodyOf_regCommand_withRings hi b m s
  rw [exec_eq] at h ⊢
  rcases runCommand_cases h with ⟨hne, rfl⟩ | ⟨h0, r, u, hu, rfl⟩ | ⟨h0, f, u, hu, rfl⟩
  · have hsticky : respondFaulted (s.withRings b m) = (respondFaulted s).withRings b m := by
      simp only [respondFaulted, State.withRings, hf]; rfl
    exact ⟨b, by rw [runCommand_faulted (hf.trans_ne hne), hsticky], rfl, hf⟩
  · refine ⟨b, ?_, rfl, hf.trans (bodyOf_done hu).faultCode.symm⟩
    rw [runCommand_live (hf.trans h0), hbody, hu]; rfl
  · refine ⟨{ b with faultCode := f.byte, faultW0 := (encode i).w0, faultW1 := (encode i).w1 }, ?_, rfl, rfl⟩
    rw [runCommand_live (hf.trans h0), hbody, hu]; rfl

/-- Settles O20: the run on the other rings is the first run with the other rings in place, so every part of the state
that R138 speaks of can be read off it. -/
theorem regCommandsIgnoreRings : Obligations.RegCommandsIgnoreRings := by
  intro s b m ofs v i t hi hf h
  obtain ⟨c, hc, hrings, hcode⟩ := exec_regCommand_withRings m hi hf h
  exact ⟨t.withRings c m, hc, rfl, rfl, rfl, rfl, rfl, rfl, hrings, hcode⟩

end Sys2Proof.Machine
end

section
/-! PROOFS. The TX ring: a post on a slot whose DD is clear is turned away (41_tx_ring R153). -/

namespace Sys2Proof.Machine

/-- Responding after reads alone leaves everything but the response port and the record of accesses as it was. -/
theorem respond_afterReads_turnedAway (r : Response) (s : State) (reads : List Access) :
    s.turnedAway (respond r (s.afterReads reads)) r reads :=
  ⟨rfl, rfl, rfl, rfl, rfl, rfl, rfl, rfl, rfl, rfl, rfl, rfl⟩

/-- A live command that responds in the state its reads leave is turned away with that response. -/
theorem exec_turnedAway {i : Instr} {s : State} {r : Response} {reads : List Access} (hl : s.live)
    (h : bodyOf i s = .done r (s.afterReads reads)) :
    ∃ t, exec i s = .next t ∧ s.turnedAway t r reads :=
  ⟨_, exec_done hl h, respond_afterReads_turnedAway r s reads⟩

theorem txEnqueueBody_busy {s : State} {addr : Addr} {len : Word16} {eop : Bool} (hr : s.block.txReady = true)
    (hw : withinPage s.params addr len = true) (hd : ddAt s.mem s.txSlot = false) :
    txEnqueueBody addr len eop s = .done { code := .busy } (s.afterReads [.memRead (s.txSlot + 12) 1]) := by
  rw [txEnqueueBody_ready hr hw, hd]
  exact if_neg Bool.false_ne_true

/-- Settles O27: both checks before the status read pass, and a slot with DD clear ends the body right after it. -/
theorem txEnqueueBusyIsSideEffectFree : Obligations.TxEnqueueBusyIsSideEffectFree := by
  intro s addr len eop hl hr hpage hd
  have hw : withinPage s.params addr len = true := (withinPage_iff _ _ _).2 hpage
  exact exec_turnedAway hl (txEnqueueBody_busy hr hw hd)

end Sys2Proof.Machine
end

section
/-! PROOFS. The RX ring: a poll on a slot whose DD is clear is turned away (42_rx_ring R173). -/

namespace Sys2Proof.Machine

/-- Settles O34: on a slot with DD clear the body ends right after its status read, whatever the rest of the descriptor
holds. -/
theorem rxPollNoDataIsSideEffectFree : Obligations.RxPollNoDataIsSideEffectFree := by
  intro s hl hr hd
  have hbody : bodyOf .rxPoll s = .done { code := .noData } (s.afterReads [.memRead (s.rxSlot + 12) 1]) :=
    rxPollBody_noData hr hd
  exact exec_turnedAway hl hbody

end Sys2Proof.Machine
end

section
/-! PROOFS. The pending causes: only a read of ICR clears one, and then all; writes of ICR are refused
(60_exceptions R242). -/

namespace Sys2Proof.Machine

/-! ### ICR under one access of a register -/

/-- A read of ICR clears it; a read of any other register leaves it (10_state R31). -/
theorem Nic.afterRead_icr (d : Nic) (r : Reg) : (d.afterRead r).icr = if r = .icr then 0 else d.icr := by
  cases r <;> rfl

/-- No register write reaches ICR (10_state R31, log 13). -/
@[simp] theorem Nic.afterWrite_icr (d : Nic) (r : Reg) (v : Word32) : (d.afterWrite r v).icr = d.icr := by
  cases r <;> rfl

/-- Every access with a write is refused at ICR (40_register_access R132). -/
theorem accessFault_icr {k : AccessKind} (h : k ≠ .read) : accessFault .icr k = some .accessDenied := by
  cases k
  case read => exact absurd rfl h
  all_goals rfl

/-! ### Which commands read, write and clear ICR -/

/-- The two commands that read ICR. -/
def icrReads : List Instr := [.intAck, .regRead (regOffset .icr)]

theorem mem_icrReads {i : Instr} : i ∈ icrReads ↔ i = .intAck ∨ i = .regRead (regOffset .icr) := by
  simp [icrReads]

/-- The three commands that would write ICR. -/
def icrWrites (v : Word32) : List Instr :=
  [.regWrite (regOffset .icr) v, .regSetBits (regOffset .icr) v, .regClearBits (regOffset .icr) v]

/-- A command that completes leaves ICR as it was, unless it is a read of ICR, which leaves it 0. -/
theorem bodyOf_done_icr {i : Instr} {s t : State} {x : Response} (h : bodyOf i s = .done x t) :
    t.dev.icr = s.dev.icr ∨ i ∈ icrReads ∧ t.dev.icr = 0 := by
  have rmw : ∀ {ofs f}, withRegister ofs .rmw (readModifyWrite f) s = .done x t → t.dev.icr = s.dev.icr := by
    intro ofs f hw
    obtain ⟨r, v, hallowed, rfl⟩ := rmw_done hw
    have hr : r ≠ .icr := by
      rintro rfl
      rw [accessFault_icr (by decide)] at hallowed
      cases hallowed
    simp [Nic.afterRead_icr, hr]
  cases i with
  | regRead ofs =>
    obtain ⟨r, hofs, rfl⟩ := regRead_done h
    by_cases hr : r = .icr
    · subst hr
      exact .inr ⟨mem_icrReads.2 (.inr (by rw [regOffset_of_regAt hofs])), by simp [Nic.afterRead_icr]⟩
    · exact .inl (by simp [Nic.afterRead_icr, hr])
  | regWrite ofs data => obtain ⟨r, -, rfl⟩ := regWrite_done h; simp
  | regSetBits ofs mask => exact .inl (rmw h)
  | regClearBits ofs mask => exact .inl (rmw h)
  | txInit base => obtain ⟨-, -, rfl⟩ := txInit_done h; simp
  | txEnqueue addr len eop => obtain ⟨-, rfl | ⟨-, rfl⟩⟩ := txEnqueue_done h <;> simp
  | rxInit base => obtain ⟨-, -, rfl⟩ := rxInit_done h; simp
  | rxPoll => obtain ⟨-, rfl | ⟨-, rfl⟩⟩ := rxPoll_done h <;> simp
  | intAck => rw [intAck_done h]; exact .inr ⟨mem_icrReads.2 (.inl rfl), by simp [Nic.afterRead_icr]⟩

/-- A command that reads ICR ends with a response, in the state that one read leaves. -/
theorem bodyOf_icrRead {i : Instr} (hi : i ∈ icrReads) (s : State) : ∃ x, bodyOf i s = .done x (mmioRead .icr s).2 := by
  rcases mem_icrReads.1 hi with rfl | rfl
  · exact ⟨_, rfl⟩
  · rw [bodyOf, withRegister_of_allowed (regAt_regOffset .icr) rfl]
    exact ⟨_, rfl⟩

/-- A command that would write ICR is refused in the state it found (40_register_access R132). -/
theorem bodyOf_icrWrite {i : Instr} {v : Word32} (hi : i ∈ icrWrites v) (s : State) :
    bodyOf i s = .raised .accessDenied s := by
  simp only [icrWrites, List.mem_cons, List.not_mem_nil, or_false] at hi
  rcases hi with rfl | rfl | rfl <;>
    rw [bodyOf, withRegister_of_fault (regAt_regOffset .icr) (accessFault_icr (by decide))]

/-! ### Which steps clear ICR -/

/-- Every cause pending before is pending after. -/
def State.addsCauses (s t : State) : Prop := ∃ causes, t.dev.icr = s.dev.icr ||| causes

theorem State.addsCauses_of_icr_eq {s t : State} (h : t.dev.icr = s.dev.icr) : s.addsCauses t :=
  ⟨0#32, by rw [h, BitVec.or_zero]⟩

theorem State.addsCauses.getLsbD {s t : State} (h : s.addsCauses t) {k : Nat} (hk : s.dev.icr.getLsbD k = true) :
    t.dev.icr.getLsbD k = true := by
  obtain ⟨causes, h⟩ := h
  simp [h, hk]

/-- Every agent but the block only adds causes. -/
theorem agentStep_addsCauses (a : AgentStep) (s : State) : s.addsCauses (agentStep a s) := by
  cases a with
  | issue c => exact State.addsCauses_of_icr_eq rfl
  | hostStore addr bytes => exact State.addsCauses_of_icr_eq rfl
  | blockReset => exact State.addsCauses_of_icr_eq rfl
  | devTx sent errors cause =>
    simp only [agentStep, devTx]
    split
    · exact State.addsCauses_of_icr_eq rfl
    · rename_i g _
      by_cases hc : (txCmdRs (Memory.byte s.mem (g.slot + 11)) && cause) = true
      · exact ⟨icrTxdw, if_pos hc⟩
      · exact State.addsCauses_of_icr_eq (if_neg hc)
  | devRx data checksum errors special status causes =>
    simp only [agentStep, devRx]
    split
    · exact State.addsCauses_of_icr_eq rfl
    · split
      · exact ⟨causes &&& icrRxCauses, rfl⟩
      · exact State.addsCauses_of_icr_eq rfl
  | devCause causes => exact ⟨causes, rfl⟩
  | devOverwrite slot data => exact State.addsCauses_of_icr_eq (congrArg (·.dev.icr) (devOverwrite_eq slot data s))

/-- Every step adds causes at most, or takes a command that reads ICR and leaves it 0. -/
theorem step_icr {s t : State} (h : step s = .next t) :
    s.addsCauses t ∨ ∃ c rest i, s.takes c rest ∧ decode c = .ok i ∧ i ∈ icrReads ∧ t.dev.icr = 0 := by
  apply step_preserves h
  case wait => exact fun _ => .inl (State.addsCauses_of_icr_eq rfl)
  case done =>
    intro c rest i r u htakes hdec _ hb
    rcases bodyOf_done_icr hb with hsame | ⟨hi, hzero⟩
    · exact .inl (State.addsCauses_of_icr_eq hsame)
    · exact .inr ⟨c, rest, i, htakes, hdec, hi, hzero⟩
  case fault => exact fun _ _ _ _ _ _ _ _ => .inl (State.addsCauses_of_icr_eq rfl)
  case stuck => exact fun _ _ _ => .inl (State.addsCauses_of_icr_eq rfl)
  case agent => exact fun a ts _ => .inl (agentStep_addsCauses a { s with schedule := ts })

/-! ### Reads and writes of ICR on a live block -/

theorem exec_icrRead {i : Instr} {s : State} (hl : s.live) (hi : i ∈ icrReads) :
    ∃ t, exec i s = .next t ∧ t.dev.icr = 0 := by
  obtain ⟨x, hb⟩ := bodyOf_icrRead hi s
  exact ⟨_, exec_done hl hb, by simp [Nic.afterRead_icr]⟩

theorem exec_icrWrite {i : Instr} {v : Word32} {s : State} (hl : s.live) (hi : i ∈ icrWrites v) :
    ∃ t, exec i s = .next t ∧ s.faultedWith t 0x03 (encode i) [] := by
  have hraised : bodyOf i s = .raised .accessDenied (s.afterReads []) := by
    rw [State.afterReads_nil, bodyOf_icrWrite hi s]
  exact exec_raised hl hraised

/-- Settles O40: a step that clears a bit is no step that only adds causes, so it took a read of ICR; the reads of ICR
complete on every live block, and the access check refuses its writes before any access. -/
theorem causesClearedOnlyByReads : Obligations.CausesClearedOnlyByReads := by
  refine ⟨fun s t k hstep hset hclear => ?_, fun s hl i hi => exec_icrRead hl hi,
    fun s v hl i hi => exec_icrWrite hl hi⟩
  rcases step_icr hstep with hadds | ⟨c, rest, i, htakes, hdec, hi, hzero⟩
  · exact absurd (hadds.getLsbD hset) (by simp [hclear])
  · rcases mem_icrReads.1 hi with rfl | rfl
    · exact ⟨c, rest, htakes, .inl hdec, hzero⟩
    · exact ⟨c, rest, htakes, .inr hdec, hzero⟩

end Sys2Proof.Machine
end

section
/-! PROOFS. The encoding: decode and encode are inverse to each other on well-formed commands (30_encoding R101 to
R115), and what the response words carry (R116). -/

namespace Sys2Proof

open Sys2Proof.Machine

/-! ### Decoding an encoded command -/

theorem Command.ifClear_of_clear {c : Command} {f : Format} (h : c.reservedClear f = true) (i : Instr) :
    c.ifClear f i = .ok i := if_pos h

theorem reservedClear_r_buildW0 (op : Byte) {ofs : Word32} (h : ofsFits ofs) :
    (Command.mk (buildW0 op false 0 ofs) 0).reservedClear .r = true := by
  simp only [Command.reservedClear, buildW0_reserved_reg _ _ h]; rfl

theorem reservedClear_rw_buildW0 (op : Byte) {ofs : Word32} (h : ofsFits ofs) (data : Word32) :
    (Command.mk (buildW0 op false 0 ofs) (data.setWidth 64)).reservedClear .rw = true := by
  simp only [Command.reservedClear, buildW0_reserved_reg _ _ h, setWidth_high_zero]; rfl

theorem reservedClear_t_buildW0 (op : Byte) (e : Bool) (len : Word16) (w1 : Word64) :
    (Command.mk (buildW0 op e len 0) w1).reservedClear .t = true := by
  simp only [Command.reservedClear, buildW0_res0, buildW0_low]; rfl

theorem reservedClear_b_buildW0 (op : Byte) (w1 : Word64) :
    (Command.mk (buildW0 op false 0 0) w1).reservedClear .b = true := by
  simp only [Command.reservedClear, buildW0_reserved_bare]; rfl

theorem reservedClear_n_buildW0 (op : Byte) : (Command.mk (buildW0 op false 0 0) 0).reservedClear .n = true := by
  simp only [Command.reservedClear, buildW0_reserved_bare]; rfl

theorem decode_encode {i : Instr} (h : i.wf) : decode (encode i) = .ok i := by
  have fits0 : ofsFits 0 := by decide
  cases i with
  | regRead ofs =>
    rw [encode, decode, buildW0_op _ _ _ _ _ h, buildW0_ofs _ _ _ _ _ h,
      Command.ifClear_of_clear (reservedClear_r_buildW0 _ h)]
    rfl
  | regWrite ofs data =>
    rw [encode, decode, buildW0_op _ _ _ _ _ h, buildW0_ofs _ _ _ _ _ h, Command.data, setWidth_low,
      Command.ifClear_of_clear (reservedClear_rw_buildW0 _ h _)]
    rfl
  | regSetBits ofs mask =>
    rw [encode, decode, buildW0_op _ _ _ _ _ h, buildW0_ofs _ _ _ _ _ h, Command.data, setWidth_low,
      Command.ifClear_of_clear (f := .rw) (reservedClear_rw_buildW0 _ h _) (.regSetBits ofs mask)]
    rfl
  | regClearBits ofs mask =>
    rw [encode, decode, buildW0_op _ _ _ _ _ h, buildW0_ofs _ _ _ _ _ h, Command.data, setWidth_low,
      Command.ifClear_of_clear (reservedClear_rw_buildW0 _ h _) (.regClearBits ofs mask)]
    rfl
  | txInit base =>
    rw [encode, decode, buildW0_op _ _ _ _ _ fits0, Command.ifClear_of_clear (reservedClear_b_buildW0 _ _)]
    rfl
  | txEnqueue addr len eop =>
    rw [encode, decode, buildW0_op _ _ _ _ _ fits0, buildW0_len, buildW0_eop,
      Command.ifClear_of_clear (reservedClear_t_buildW0 _ _ _ _)]
    rfl
  | rxInit base =>
    rw [encode, decode, buildW0_op _ _ _ _ _ fits0,
      Command.ifClear_of_clear (reservedClear_b_buildW0 _ _) (.rxInit base)]
    rfl
  | rxPoll =>
    rw [encode, decode, buildW0_op _ _ _ _ _ fits0, Command.ifClear_of_clear (reservedClear_n_buildW0 _)]
    rfl
  | intAck =>
    rw [encode, decode, buildW0_op _ _ _ _ _ fits0, Command.ifClear_of_clear (reservedClear_n_buildW0 _) .intAck]
    rfl

/-- Settles O10: each field of the encoding reads back as the operand put there, and the reserved bits are 0. -/
theorem decodeOfEncode : Obligations.DecodeOfEncode := fun _ h => decode_encode h

/-! ### Encoding a decoded command -/

theorem getLsbD_of_field_zero {w start len : Nat} {x : BitVec w} (h : x.extractLsb' start len = 0#len) {k : Nat}
    (hs : start ≤ k) (he : k < start + len) : x.getLsbD k = false := by
  have hbit := congrArg (BitVec.getLsbD · (k - start)) h
  simpa [BitVec.getLsbD_extractLsb', show k - start < len by omega, Nat.add_sub_cancel' hs] using hbit

/-- W0 is rebuilt from its opcode and the parts of its low 56 bits, each compared bit by bit. -/
theorem buildW0_of_bits {c : Command} {e : Bool} {len : Word16} {ofs : Word32}
    (hofs : ∀ k, k < 32 → ofs.getLsbD k = c.w0.getLsbD k) (hlen : ∀ k, k < 16 → len.getLsbD k = c.w0.getLsbD (32 + k))
    (he : e = c.w0.getLsbD 48) (hres : ∀ k, 49 ≤ k → k < 56 → c.w0.getLsbD k = false) :
    buildW0 c.op e len ofs = c.w0 := by
  apply BitVec.eq_of_getLsbD_eq
  intro k hk
  rw [buildW0_getLsbD _ _ _ _ k hk]
  by_cases h32 : k < 32
  · simp [hofs k h32, show ¬ 56 ≤ k by omega, show k ≠ 48 by omega, show ¬ 32 ≤ k by omega]
  have hofs0 : ofs.getLsbD k = false := BitVec.getLsbD_of_ge _ _ (by omega)
  by_cases h48 : k < 48
  · simp [hlen (k - 32) (by omega), show 32 + (k - 32) = k by omega, show ¬ 56 ≤ k by omega,
      show k ≠ 48 by omega, show 32 ≤ k by omega]
  have hlen0 : len.getLsbD (k - 32) = false := BitVec.getLsbD_of_ge _ _ (by omega)
  by_cases h49 : k = 48
  · subst h49
    simp [he]
  by_cases h56 : k < 56
  · simp [hofs0, hlen0, h49, hres k (by omega) h56, show ¬ 56 ≤ k by omega]
  · simp [hofs0, hlen0, h49, Command.op, show 56 ≤ k by omega, show k - 56 < 8 by omega,
      show 56 + (k - 56) = k by omega]

/-- W0 of a format R or RW command (R103): nothing between OFS and OP. -/
theorem buildW0_of_reg {c : Command} {op : Byte} (ho : c.op = op) (h : c.w0.extractLsb' 20 36 = 0#36) :
    buildW0 op false 0 c.ofs = c.w0 := by
  subst ho
  have clear : ∀ k, 20 ≤ k → k < 56 → c.w0.getLsbD k = false := fun k h1 h2 => getLsbD_of_field_zero h h1 h2
  refine buildW0_of_bits (fun k hk => ?_) (fun k hk => ?_) (clear 48 (by omega) (by omega)).symm
    fun k h1 h2 => clear k (by omega) h2
  · by_cases h20 : k < 20
    · simp [Command.ofs, h20, hk]
    · simp [Command.ofs, BitVec.getLsbD_extractLsb', h20, clear k (by omega) (by omega)]
  · simp [clear (32 + k) (by omega) (by omega)]

/-- W0 of a format T command (R103): LEN and E, and zeros around them. -/
theorem buildW0_of_tx {c : Command} {op : Byte} (ho : c.op = op) (hhigh : c.w0.extractLsb' 49 7 = 0#7)
    (hlow : c.w0.extractLsb' 0 32 = 0#32) : buildW0 op c.eop c.len 0 = c.w0 := by
  subst ho
  refine buildW0_of_bits (fun k hk => ?_) (fun k hk => ?_) rfl fun k h1 h2 => getLsbD_of_field_zero hhigh h1 h2
  · simp [getLsbD_of_field_zero hlow (Nat.zero_le k) (by omega)]
  · simp [Command.len, hk]

/-- W0 of a format B or N command (R103): the opcode alone. -/
theorem buildW0_of_bare {c : Command} {op : Byte} (ho : c.op = op) (h : c.w0.extractLsb' 0 56 = 0#56) :
    buildW0 op false 0 0 = c.w0 := by
  subst ho
  have clear : ∀ k, k < 56 → c.w0.getLsbD k = false := fun k hk => getLsbD_of_field_zero h (Nat.zero_le k) (by omega)
  refine buildW0_of_bits (fun k hk => ?_) (fun k hk => ?_) (clear 48 (by omega)).symm fun k _ h2 => clear k h2
  · simp [clear k (by omega)]
  · simp [clear (32 + k) (by omega)]

/-- W1 of a format RW command (R103): nothing above the data. -/
theorem setWidth_data {c : Command} (h : c.w1.extractLsb' 32 32 = 0#32) : c.data.setWidth 64 = c.w1 := by
  apply BitVec.eq_of_getLsbD_eq
  intro k hk
  by_cases h32 : k < 32
  · simp [Command.data, h32, hk]
  · simp [Command.data, BitVec.getLsbD_extractLsb', h32, getLsbD_of_field_zero h (by omega : 32 ≤ k) hk]

/-- A command that decodes is the encoding of what it decodes to, and that is well-formed. -/
theorem encode_of_decode {c : Command} {i : Instr} (h : decode c = .ok i) : encode i = c ∧ i.wf := by
  rcases decode_eq_ok h with ⟨ho, hc, rfl⟩ | ⟨ho, hc, rfl⟩ | ⟨ho, hc, rfl⟩ | ⟨ho, hc, rfl⟩ | ⟨ho, hc, rfl⟩ |
    ⟨ho, hc, rfl⟩ | ⟨ho, hc, rfl⟩ | ⟨ho, hc, rfl⟩ | ⟨ho, hc, rfl⟩ <;>
    simp only [Command.reservedClear, Bool.and_eq_true, beq_iff_eq] at hc
  · exact ⟨congrArg₂ Command.mk (buildW0_of_reg ho hc.1) hc.2.symm, c.ofs_fits⟩
  · exact ⟨congrArg₂ Command.mk (buildW0_of_reg ho hc.1) (setWidth_data hc.2), c.ofs_fits⟩
  · exact ⟨congrArg₂ Command.mk (buildW0_of_reg ho hc.1) (setWidth_data hc.2), c.ofs_fits⟩
  · exact ⟨congrArg₂ Command.mk (buildW0_of_reg ho hc.1) (setWidth_data hc.2), c.ofs_fits⟩
  · exact ⟨congrArg₂ Command.mk (buildW0_of_bare ho hc) rfl, trivial⟩
  · exact ⟨congrArg₂ Command.mk (buildW0_of_tx ho hc.1 hc.2) rfl, trivial⟩
  · exact ⟨congrArg₂ Command.mk (buildW0_of_bare ho hc) rfl, trivial⟩
  · exact ⟨congrArg₂ Command.mk (buildW0_of_bare ho hc.1) hc.2.symm, trivial⟩
  · exact ⟨congrArg₂ Command.mk (buildW0_of_bare ho hc.1) hc.2.symm, trivial⟩

/-- Settles O11: a word is the sum of the fields its format reads and the bits the decoder requires to be 0. -/
theorem encodeOfDecode : Obligations.EncodeOfDecode := fun _ _ h => encode_of_decode h

/-- Settles O7: the decoder computes on words written out. -/
theorem sampleWordsDecode : Obligations.SampleWordsDecode := by
  refine ⟨rfl, rfl, rfl, rfl, rfl, rfl, rfl, rfl, rfl, rfl, rfl, rfl⟩

/-! ### Response words -/

/-- A field placed at bit `n` of a word is what stands there. -/
theorem extractLsb'_field_same {w n : Nat} (x : BitVec w) (h : n + w ≤ 64) :
    (x.setWidth 64 <<< n).extractLsb' n w = x := by
  apply BitVec.eq_of_getLsbD_eq
  intro k hk
  simp [hk, show n + k < 64 by omega]

/-- A field placed at bit `n` of a word leaves the bits beside it 0. -/
theorem extractLsb'_field_beside {w n start len : Nat} (x : BitVec w) (h : start + len ≤ n ∨ n + w ≤ start) :
    (x.setWidth 64 <<< n).extractLsb' start len = 0#len := by
  apply BitVec.eq_of_getLsbD_eq
  intro k hk
  rcases h with h | h
  · simp [BitVec.getLsbD_extractLsb', show start + k < n by omega]
  · simp [BitVec.getLsbD_extractLsb', BitVec.getLsbD_of_ge x (start + k - n) (by omega)]

theorem getLsbD_of_extractLsb' {x : Word64} {k : Nat} {b : Bool} (h : x.extractLsb' k 1 = BitVec.ofBool b) :
    x.getLsbD k = b := by
  simpa using congrArg (BitVec.getLsbD · 0) h

/-- P0 as fields, each at its bit (R116). -/
theorem Response.p0_fields (r : Response) :
    r.p0 = r.code.byte.setWidth 64 <<< 0 ||| r.fcode.setWidth 64 <<< 8 ||| (BitVec.ofBool r.txh).setWidth 64 <<< 16 |||
      (BitVec.ofBool r.rxh).setWidth 64 <<< 17 ||| r.data.setWidth 64 <<< 32 := by
  rw [Response.p0, BitVec.shiftLeft_zero]

/-- P1 as fields, each at its bit (R116). -/
theorem Response.p1_fields (r : Response) :
    r.p1 = r.plen.setWidth 64 <<< 0 ||| r.rstat.setWidth 64 <<< 16 ||| r.rerr.setWidth 64 <<< 24 |||
      r.slot.setWidth 64 <<< 32 := by
  rw [Response.p1, BitVec.shiftLeft_zero]

/-- Settles O12: at the bits of one field of a response word every other field is 0, and between the fields all are. -/
theorem responseWordsCarryFields : Obligations.ResponseWordsCarryFields := by
  intro r
  refine ⟨?code, ?_, getLsbD_of_extractLsb' ?_, getLsbD_of_extractLsb' ?_, ?_, ?_, ?_, ?_, ?_, ?_, ?_⟩
  case code =>
    have hcode : r.p0.extractLsb' 0 8 = r.code.byte := by
      simp (disch := omega) only [Response.p0_fields, BitVec.extractLsb'_or, extractLsb'_field_beside,
        extractLsb'_field_same, BitVec.or_zero]
    rw [hcode]
    cases r.code <;> rfl
  all_goals
    simp (disch := omega) only [Response.p0_fields, Response.p1_fields, BitVec.extractLsb'_or,
      extractLsb'_field_beside, extractLsb'_field_same, BitVec.or_zero, BitVec.zero_or,
      BitVec.ofNat_eq_ofNat]

end Sys2Proof
end

section
/-! PROOFS. What a step can do to the rings, said once: most steps leave everything the invariants speak of as it was,
and the invariants of the other steps are taken one step at a time. -/

namespace Sys2Proof.Machine

/-! ### Steps that leave the rings as they are -/

/-- The two states agree on the block's ring state, the ring registers, the tails the block wrote, the events and the
parameters; and the mark of the run is not taken back. -/
structure State.ringsKept (s t : State) : Prop where
  txReady : t.block.txReady = s.block.txReady
  rxReady : t.block.rxReady = s.block.rxReady
  txBase : t.block.txBase = s.block.txBase
  rxBase : t.block.rxBase = s.block.rxBase
  txTail : t.block.txTail = s.block.txTail
  txBound : t.block.txBound = s.block.txBound
  rxCursor : t.block.rxCursor = s.block.rxCursor
  tdbal : t.dev.store.tdbal = s.dev.store.tdbal
  tdbah : t.dev.store.tdbah = s.dev.store.tdbah
  tdlen : t.dev.store.tdlen = s.dev.store.tdlen
  rdbal : t.dev.store.rdbal = s.dev.store.rdbal
  rdbah : t.dev.store.rdbah = s.dev.store.rdbah
  rdlen : t.dev.store.rdlen = s.dev.store.rdlen
  tdh : t.dev.tdh = s.dev.tdh
  rdh : t.dev.rdh = s.dev.rdh
  tdt : t.dev.tdt = s.dev.tdt
  rdt : t.dev.rdt = s.dev.rdt
  lastTdt : lastWrite .tdt t.bus = lastWrite .tdt s.bus
  lastRdt : lastWrite .rdt t.bus = lastWrite .rdt s.bus
  events : t.events = s.events
  params : t.params = s.params
  outside : s.outside = true → t.outside = true

theorem State.ringsKept_refl (s : State) : s.ringsKept s :=
  ⟨rfl, rfl, rfl, rfl, rfl, rfl, rfl, rfl, rfl, rfl, rfl, rfl, rfl, rfl, rfl, rfl, rfl, rfl, rfl, rfl, rfl, id⟩

theorem State.ringsKept_trans {s t u : State} (a : s.ringsKept t) (b : t.ringsKept u) : s.ringsKept u :=
  ⟨b.txReady.trans a.txReady, b.rxReady.trans a.rxReady, b.txBase.trans a.txBase, b.rxBase.trans a.rxBase,
    b.txTail.trans a.txTail, b.txBound.trans a.txBound, b.rxCursor.trans a.rxCursor, b.tdbal.trans a.tdbal,
    b.tdbah.trans a.tdbah, b.tdlen.trans a.tdlen, b.rdbal.trans a.rdbal, b.rdbah.trans a.rdbah, b.rdlen.trans a.rdlen,
    b.tdh.trans a.tdh, b.rdh.trans a.rdh, b.tdt.trans a.tdt, b.rdt.trans a.rdt, b.lastTdt.trans a.lastTdt,
    b.lastRdt.trans a.lastRdt, b.events.trans a.events, b.params.trans a.params, fun h => b.outside (a.outside h)⟩

/-- The block idles, or takes a command off its port. -/
theorem State.ringsKept_port (s : State) (cs : List Command) (ts : List Turn) :
    s.ringsKept { s with commands := cs, schedule := ts } := { s.ringsKept_refl with }

theorem respond_ringsKept (r : Response) (s : State) : s.ringsKept (respond r s) :=
  { s.ringsKept_refl with }

/-- An access that is no write of the register leaves its last write as it was. -/
theorem lastWrite_snoc_of_ne (r : Reg) (xs : List Access) {y : Access} (h : ∀ v, y ≠ .mmioWrite r v) :
    lastWrite r (xs ++ [y]) = lastWrite r xs :=
  lastWrite_quiet r xs [y] fun z hz => by rwa [List.mem_singleton.1 hz]

theorem lastWrite_memReads (r : Reg) (xs : List Access) {reads : List Access}
    (h : ∀ x ∈ reads, ∃ a n, x = Access.memRead a n) : lastWrite r (xs ++ reads) = lastWrite r xs := by
  refine lastWrite_quiet r xs reads fun y hy v => ?_
  obtain ⟨a, n, rfl⟩ := h y hy
  exact Access.noConfusion

theorem afterReads_ringsKept (s : State) {reads : List Access} (h : ∀ x ∈ reads, ∃ a n, x = Access.memRead a n) :
    s.ringsKept (s.afterReads reads) :=
  { s.ringsKept_refl with
    lastTdt := lastWrite_memReads .tdt s.bus h
    lastRdt := lastWrite_memReads .rdt s.bus h }

theorem takeFault_ringsKept (f : FaultCode) (c : Command) (s : State) : s.ringsKept (takeFault f c s) :=
  { s.ringsKept_refl with outside := fun h => by simp [h] }

/-- A read of a register changes ICR at most (10_state R31). -/
theorem mmioRead_ringsKept (r : Reg) (s : State) : s.ringsKept (mmioRead r s).2 := by
  obtain ⟨hstore, -, htdh, hrdh, htdt, hrdt⟩ := afterRead_keeps s.dev r
  constructor <;>
    simp [hstore, htdh, hrdh, htdt, hrdt, lastWrite_snoc_of_ne]

/-- A register the access check lets a command write is no ring register (40_register_access R132). -/
theorem ne_tail_of_allowed {r : Reg} (h : accessFault r .write = none ∨ accessFault r .rmw = none) :
    r ≠ .tdt ∧ r ≠ .rdt := by
  constructor <;> rintro rfl <;> simp [accessFault, regClass] at h

theorem mmioWrite_ringsKept {r : Reg} (v : Word32) (s : State)
    (h : accessFault r .write = none ∨ accessFault r .rmw = none) : s.ringsKept (mmioWrite r v s) := by
  obtain ⟨h1, h2, h3, h4, h5, h6, h7, h8, h9, h10⟩ := afterWrite_keeps_rings s.dev r v h
  obtain ⟨hne, hne'⟩ := ne_tail_of_allowed h
  constructor <;>
    simp [h1, h2, h3, h4, h5, h6, h7, h8, h9, h10, lastWrite_snoc_of_ne, hne, hne']

/-! ### Everything a command can do to the rings -/

/-- A command that completes leaves the rings and memory as they were, or is one of the four ring commands in the case
in which it works on its ring. -/
theorem bodyOf_done_rings {i : Instr} {s t : State} {x : Response} (h : bodyOf i s = .done x t) :
    (s.ringsKept t ∧ t.mem = s.mem) ∨
    (∃ base, i = .txInit base ∧ s.block.txReady = false ∧ ringBaseOk base Config.nTx = true ∧ t = txInitDone base s) ∨
    (∃ addr len eop, i = .txEnqueue addr len eop ∧ s.block.txReady = true ∧ ddAt s.mem s.txSlot = true ∧
      t = txEnqueueDone addr len eop s) ∨
    (∃ base, i = .rxInit base ∧ s.block.rxReady = false ∧ ringBaseOk base Config.mRx = true ∧ t = rxInitDone base s) ∨
    (i = .rxPoll ∧ s.block.rxReady = true ∧ ddAt s.mem s.rxSlot = true ∧ t = rxPollDone s) := by
  have rmw : ∀ {ofs f}, withRegister ofs .rmw (readModifyWrite f) s = .done x t → s.ringsKept t ∧ t.mem = s.mem := by
    intro ofs f hw
    obtain ⟨r, v, hallowed, rfl⟩ := rmw_done hw
    exact ⟨State.ringsKept_trans (mmioRead_ringsKept r s) (mmioWrite_ringsKept v _ (.inr hallowed)), by simp⟩
  have statusRead : ∀ a, s.ringsKept (s.afterReads [.memRead a 1]) := fun a =>
    afterReads_ringsKept s (by simp)
  cases i with
  | regRead ofs => obtain ⟨r, -, rfl⟩ := regRead_done h; exact .inl ⟨mmioRead_ringsKept r s, by simp⟩
  | regWrite ofs data =>
    obtain ⟨r, hallowed, rfl⟩ := regWrite_done h
    exact .inl ⟨mmioWrite_ringsKept data s (.inl hallowed), rfl⟩
  | regSetBits ofs mask => exact .inl (rmw h)
  | regClearBits ofs mask => exact .inl (rmw h)
  | txInit base =>
    obtain ⟨hr, hb, rfl⟩ := txInit_done h
    exact .inr (.inl ⟨base, rfl, hr, hb, rfl⟩)
  | txEnqueue addr len eop =>
    obtain ⟨hr, rfl | ⟨hd, rfl⟩⟩ := txEnqueue_done h
    · exact .inl ⟨statusRead _, rfl⟩
    · exact .inr (.inr (.inl ⟨addr, len, eop, rfl, hr, hd, rfl⟩))
  | rxInit base =>
    obtain ⟨hr, hb, rfl⟩ := rxInit_done h
    exact .inr (.inr (.inr (.inl ⟨base, rfl, hr, hb, rfl⟩)))
  | rxPoll =>
    obtain ⟨hr, rfl | ⟨hd, rfl⟩⟩ := rxPoll_done h
    · exact .inl ⟨statusRead _, rfl⟩
    · exact .inr (.inr (.inr (.inr ⟨rfl, hr, hd, rfl⟩)))
  | intAck => rw [intAck_done h]; exact .inl ⟨mmioRead_ringsKept .icr s, by simp⟩

/-! ### An invariant of every step -/

/-- To show `Q` after every step from a state with `P`: both survive where the rings and memory are kept, `P` implies
`Q`, and each of the remaining steps leads from `P` to `Q`. -/
theorem step_preserves_rings {P Q : State → Prop} {s t : State} (h : step s = .next t) (hP : P s)
    (keepP : ∀ u v, u.ringsKept v → v.mem = u.mem → P u → P v)
    (keepQ : ∀ u v, u.ringsKept v → v.mem = u.mem → Q u → Q v) (weaken : ∀ u, P u → Q u)
    (txInit : ∀ base u, P u → u.block.txReady = false → ringBaseOk base Config.nTx = true → Q (txInitDone base u))
    (txEnqueue : ∀ addr len eop u, P u → u.block.txReady = true → ddAt u.mem u.txSlot = true →
      Q (txEnqueueDone addr len eop u))
    (rxInit : ∀ base u, P u → u.block.rxReady = false → ringBaseOk base Config.mRx = true → Q (rxInitDone base u))
    (rxPoll : ∀ u, P u → u.block.rxReady = true → Q (rxPollDone u))
    (hostStore : ∀ a bytes u, P u → Q (hostStore a bytes u))
    (blockReset : ∀ ts, s.turnOf .blockReset ts → P { s with schedule := ts } →
      Q (blockReset { s with schedule := ts }))
    (devTx : ∀ sent errors cause u, P u → Q (devTx sent errors cause u))
    (devRx : ∀ data checksum errors special status causes u, P u →
      Q (devRx data checksum errors special status causes u))
    (devOverwrite : ∀ slot data u, P u → Q (devOverwrite slot data u)) : Q t := by
  have hsched : ∀ cs ts, P { s with commands := cs, schedule := ts } := fun cs ts =>
    keepP s _ (s.ringsKept_port cs ts) rfl hP
  have htaken : ∀ rest, P (s.taken rest) := fun rest => hsched rest s.schedule.tail
  apply step_preserves h
  case wait => exact fun _ => weaken _ (hsched s.commands s.schedule.tail)
  case done =>
    intro c rest i r u _ _ _ hb
    apply keepQ u _ (respond_ringsKept r u) rfl
    rcases bodyOf_done_rings hb with ⟨hk, hm⟩ | ⟨base, -, hr, hbase, rfl⟩ | ⟨addr, len, eop, -, hr, hd, rfl⟩ |
      ⟨base, -, hr, hbase, rfl⟩ | ⟨-, hr, -, rfl⟩
    · exact weaken _ (keepP _ _ hk hm (htaken rest))
    · exact txInit base _ (htaken rest) hr hbase
    · exact txEnqueue addr len eop _ (htaken rest) hr hd
    · exact rxInit base _ (htaken rest) hr hbase
    · exact rxPoll _ (htaken rest) hr
  case fault =>
    intro c d rest f reads _ _ hreads
    have hk := State.ringsKept_trans (afterReads_ringsKept (s.taken rest) hreads) (takeFault_ringsKept f d _)
    exact weaken _ (keepP _ _ hk rfl (htaken rest))
  case stuck => exact fun c rest _ => weaken _ (keepP _ _ (respond_ringsKept _ _) rfl (htaken rest))
  case agent =>
    intro a ts hturn
    have hts : P { s with schedule := ts } := hsched s.commands ts
    cases a with
    | issue c => exact weaken _ (hsched (s.commands ++ [c]) ts)
    | hostStore a bytes => exact hostStore a bytes _ hts
    | blockReset => exact blockReset ts hturn hts
    | devTx sent errors cause => exact devTx sent errors cause _ hts
    | devRx data checksum errors special status causes => exact devRx _ _ _ _ _ _ _ hts
    | devCause causes => exact weaken _ (keepP { s with schedule := ts } _ { State.ringsKept_refl _ with } rfl hts)
    | devOverwrite slot data => exact devOverwrite slot data _ hts

end Sys2Proof.Machine
end

section
/-! PROOFS. The invariants of 10_state: canonical memory (R52), mirrored tails (R23, R24), the ring registers (R37) and
the pin counts (R25, R51). -/

namespace Sys2Proof.Machine

/-! ### Canonical memory -/

theorem txEnqueueDone_wf (addr : Addr) (len : Word16) (eop : Bool) {s : State} (h : Memory.wf s.mem) :
    Memory.wf (txEnqueueDone addr len eop s).mem := by
  rw [txEnqueueDone_mem]
  exact writeTxDescriptor_wf _ _ _ (by simpa using h)

theorem rxPollDone_wf {s : State} (h : Memory.wf s.mem) : Memory.wf (rxPollDone s).mem := by
  rw [rxPollDone_mem]
  exact Memory.writeLE_wf _ _ _ _ (Memory.writeLE_wf _ _ _ _ h)

/-- Everything DEV_TX can do to memory: write one status byte, or nothing. -/
theorem devTx_mem (sent : Bool) (errors : Byte) (cause : Bool) (s : State) :
    (devTx sent errors cause s).mem = s.mem ∨
      ∃ g, s.dev.txWork = some g ∧
        (devTx sent errors cause s).mem = Memory.setByte s.mem (g.slot + 12) (txDoneStatus errors) := by
  unfold devTx
  split
  · exact .inl rfl
  · rename_i g hg
    by_cases hrs : txCmdRs (Memory.byte s.mem (g.slot + 11)) = true
    · exact .inr ⟨g, hg, if_pos hrs⟩
    · exact .inl (if_neg hrs)

/-- Everything DEV_RX can do to memory: write the frame and complete its descriptor, or nothing. -/
theorem devRx_mem (data : List Byte) (checksum : Word16) (errors : Byte) (special : Word16) (status : Byte)
    (causes : Word32) (s : State) :
    (devRx data checksum errors special status causes s).mem = s.mem ∨
      ∃ g, s.dev.rxWork = some g ∧ data.length ≤ s.params.pageSize ∧
        (devRx data checksum errors special status causes s).mem =
          rxDelivered s.mem g.slot data checksum errors special status := by
  unfold devRx
  split
  · exact .inl rfl
  · rename_i g hg
    split
    · rename_i hadmissible
      obtain ⟨-, hlen⟩ := hadmissible
      exact .inr ⟨g, hg, hlen, rfl⟩
    · exact .inl rfl

/-- Settles O54. Every memory operation lists its bytes in order, so every step that writes memory keeps the form. -/
theorem memoryStaysCanonical : Obligations.MemoryStaysCanonical := by
  intro s t hs hstep
  have keep : ∀ u v : State, u.ringsKept v → v.mem = u.mem → u.memCanonical → v.memCanonical :=
    fun u v _ hm hu => by rwa [State.memCanonical, hm]
  apply step_preserves_rings hstep hs keep keep fun _ => id
  case txInit =>
    intro base u hu _ _
    simpa [State.memCanonical] using writeTxRing_wf base txDescriptorInit Config.nTx u hu
  case txEnqueue => exact fun addr len eop u hu _ _ => txEnqueueDone_wf addr len eop hu
  case rxInit =>
    intro base u hu _ _
    simpa [State.memCanonical] using writeRxRing_wf base 0 (rxRingInit u.params) u hu
  case rxPoll => exact fun u hu _ => rxPollDone_wf hu
  case hostStore => exact fun a bytes u hu => Memory.writeBytes_wf _ _ _ hu
  case blockReset => exact fun ts _ hu => hu
  case devTx =>
    intro sent errors cause u hu
    rcases devTx_mem sent errors cause u with hm | ⟨g, -, hm⟩ <;> rw [State.memCanonical, hm]
    · exact hu
    · exact Memory.setByte_wf _ _ _ hu
  case devRx =>
    intro data checksum errors special status causes u hu
    rcases devRx_mem data checksum errors special status causes u with hm | ⟨g, -, -, hm⟩ <;>
      rw [State.memCanonical, hm]
    · exact hu
    · exact rxDelivered_wf _ _ _ _ _ _ _ hu
  case devOverwrite =>
    intro slot data u hu
    rcases devOverwrite_cases slot data u with ⟨-, -, hm⟩ | hsame
    · rw [State.memCanonical, hm]
      exact Memory.writeBytes_wf _ _ _ hu
    · rwa [hsame]

/-! ### Mirrored tails -/

/-- Writing a TX ring writes no register. -/
theorem writeTxRing_lastWrite (r : Reg) (base : Addr) (s : State) :
    lastWrite r (writeTxRing base txDescriptorInit Config.nTx s).bus = lastWrite r s.bus := by
  obtain ⟨ws, hbus, -, hws⟩ := writeTxRing_bus base txDescriptorInit Config.nTx s (by decide)
  rw [hbus]
  refine lastWrite_quiet r s.bus ws fun y hy v => ?_
  obtain ⟨a, n, w, rfl, -⟩ := hws y hy
  exact Access.noConfusion

/-- Writing an RX ring writes no register. -/
theorem writeRxRing_lastWrite (r : Reg) (base : Addr) (xs : List RxDescriptor) (s : State) :
    lastWrite r (writeRxRing base 0 xs s).bus = lastWrite r s.bus := by
  obtain ⟨ws, hbus, hws⟩ := writeRxRing_bus base 0 xs s
  rw [hbus]
  refine lastWrite_quiet r s.bus ws fun y hy v => ?_
  obtain ⟨a, n, w, rfl⟩ := hws y hy
  exact Access.noConfusion

theorem txInitDone_lastWrite_tdt (base : Addr) (s : State) : lastWrite .tdt (txInitDone base s).bus = some 0 := by
  simp [txInitDone_bus, lastWrite]

theorem txInitDone_lastWrite_rdt (base : Addr) (s : State) :
    lastWrite .rdt (txInitDone base s).bus = lastWrite .rdt s.bus := by
  rw [← writeTxRing_lastWrite .rdt base s]
  simp [txInitDone_bus, lastWrite]

theorem rxInitDone_lastWrite_rdt (base : Addr) (s : State) : lastWrite .rdt (rxInitDone base s).bus = some 0x7F := by
  simp [rxInitDone_bus, lastWrite]

theorem rxInitDone_lastWrite_tdt (base : Addr) (s : State) :
    lastWrite .tdt (rxInitDone base s).bus = lastWrite .tdt s.bus := by
  rw [← writeRxRing_lastWrite .tdt base (rxRingInit s.params) s]
  simp [rxInitDone_bus, lastWrite]

theorem txEnqueueDone_lastWrite_tdt (addr : Addr) (len : Word16) (eop : Bool) (s : State) :
    lastWrite .tdt (txEnqueueDone addr len eop s).bus = some (BitVec.ofNat 32 (nextSlot s.block.txTail).val) := by
  simp [txEnqueueDone_bus, lastWrite]

theorem txEnqueueDone_lastWrite_rdt (addr : Addr) (len : Word16) (eop : Bool) (s : State) :
    lastWrite .rdt (txEnqueueDone addr len eop s).bus = lastWrite .rdt s.bus := by
  simp [txEnqueueDone_bus, lastWrite]

theorem rxPollDone_lastWrite_rdt (s : State) :
    lastWrite .rdt (rxPollDone s).bus = some (BitVec.ofNat 32 s.block.rxCursor.val) := by
  simp [rxPollDone_bus, State.rxPollReads, lastWrite]

theorem rxPollDone_lastWrite_tdt (s : State) : lastWrite .tdt (rxPollDone s).bus = lastWrite .tdt s.bus := by
  simp [rxPollDone_bus, State.rxPollReads, lastWrite]

/-- The slot behind the advanced RX cursor is the one just returned (R24). -/
theorem nextSlot_behind (c : Fin Config.mRx) : ((nextSlot c).val + Config.mRx - 1) % Config.mRx = c.val := by
  have : c.val < 128 := c.isLt
  simp only [nextSlot, Config.mRx]
  omega

/-- Whatever the device's choices, it writes neither tail register nor a stored one (44_device_agent R216). -/
theorem devTx_registers (sent : Bool) (errors : Byte) (cause : Bool) (s : State) :
    (devTx sent errors cause s).dev.tdt = s.dev.tdt ∧ (devTx sent errors cause s).dev.rdt = s.dev.rdt ∧
    (devTx sent errors cause s).dev.rdh = s.dev.rdh ∧ (devTx sent errors cause s).dev.ims = s.dev.ims ∧
    (devTx sent errors cause s).dev.store = s.dev.store := by
  unfold devTx
  split <;> exact ⟨rfl, rfl, rfl, rfl, rfl⟩

theorem devRx_registers (data : List Byte) (checksum : Word16) (errors : Byte) (special : Word16) (status : Byte)
    (causes : Word32) (s : State) :
    let t := devRx data checksum errors special status causes s
    t.dev.tdt = s.dev.tdt ∧ t.dev.rdt = s.dev.rdt ∧ t.dev.tdh = s.dev.tdh ∧ t.dev.ims = s.dev.ims ∧
    t.dev.store = s.dev.store := by
  unfold devRx
  split
  · exact ⟨rfl, rfl, rfl, rfl, rfl⟩
  · dsimp only
    split <;> exact ⟨rfl, rfl, rfl, rfl, rfl⟩

theorem State.tailsMirrored_congr {s t : State} (hblock : t.block = s.block) (hbus : t.bus = s.bus)
    (htdt : t.dev.tdt = s.dev.tdt) (hrdt : t.dev.rdt = s.dev.rdt) (h : s.tailsMirrored) : t.tailsMirrored := by
  rwa [State.tailsMirrored, hblock, hbus, htdt, hrdt]

/-- Settles O55. Only the four ring commands write a tail, each the value its cursor then mirrors. -/
theorem tailsStayMirrored : Obligations.TailsStayMirrored := by
  intro s t hs hstep
  have keep : ∀ u v : State, u.ringsKept v → v.mem = u.mem → u.tailsMirrored → v.tailsMirrored := by
    intro u v hk _ hu
    rwa [State.tailsMirrored, hk.txReady, hk.rxReady, hk.txTail, hk.rxCursor, hk.lastTdt, hk.lastRdt, hk.tdt, hk.rdt]
  apply step_preserves_rings hstep hs keep keep fun _ => id
  case txInit =>
    rintro base u ⟨-, hrx⟩ _ _
    rw [State.tailsMirrored, txInitDone_lastWrite_tdt, txInitDone_lastWrite_rdt]
    simpa using hrx
  case txEnqueue =>
    rintro addr len eop u ⟨-, hrx⟩ _ _
    rw [State.tailsMirrored, txEnqueueDone_lastWrite_tdt, txEnqueueDone_lastWrite_rdt]
    simpa using hrx
  case rxInit =>
    rintro base u ⟨htx, -⟩ _ _
    rw [State.tailsMirrored, rxInitDone_lastWrite_tdt, rxInitDone_lastWrite_rdt]
    simpa using htx
  case rxPoll =>
    rintro u ⟨htx, -⟩ _
    rw [State.tailsMirrored, rxPollDone_lastWrite_tdt, rxPollDone_lastWrite_rdt]
    simp only [rxPollDone_block, rxPollDone_dev, nextSlot_behind, and_self, implies_true, and_true]
    exact htx
  case hostStore => exact fun a bytes u hu => State.tailsMirrored_congr rfl rfl rfl rfl hu
  case blockReset => exact fun ts _ _ => ⟨Bool.noConfusion, Bool.noConfusion⟩
  case devTx =>
    intro sent errors cause u hu
    obtain ⟨hblock, -, -, -, -, hbus, -⟩ := devTx_frame sent errors cause u
    obtain ⟨htdt, hrdt, -⟩ := devTx_registers sent errors cause u
    exact State.tailsMirrored_congr hblock hbus htdt hrdt hu
  case devRx =>
    intro data checksum errors special status causes u hu
    obtain ⟨hblock, -, -, -, -, hbus, -⟩ := devRx_frame data checksum errors special status causes u
    obtain ⟨htdt, hrdt, -⟩ := devRx_registers data checksum errors special status causes u
    exact State.tailsMirrored_congr hblock hbus htdt hrdt hu
  case devOverwrite =>
    intro slot data u hu
    rw [devOverwrite_eq]
    exact State.tailsMirrored_congr rfl rfl rfl rfl hu

/-! ### The ring registers -/

theorem State.ringRegisters_of_ringsKept {s t : State} (hk : s.ringsKept t) (hs : s.ringRegisters) :
    t.ringRegisters := by
  rwa [State.ringRegisters, hk.txReady, hk.rxReady, hk.txBase, hk.rxBase, hk.tdbal, hk.tdbah, hk.tdlen, hk.rdbal,
    hk.rdbah, hk.rdlen, hk.tdh, hk.rdh]

/-- A device step that moves a head to an index of its ring keeps the ring registers. -/
theorem State.ringRegisters_congr {s t : State} (hblock : t.block = s.block) (hstore : t.dev.store = s.dev.store)
    (htdh : ∀ h, t.dev.tdh = some h → s.dev.tdh = some h ∨
      ∃ len, s.dev.store.tdlen = some len ∧ h.toNat < len.toNat / 16)
    (hrdh : ∀ h, t.dev.rdh = some h → s.dev.rdh = some h ∨
      ∃ len, s.dev.store.rdlen = some len ∧ h.toNat < len.toNat / 16)
    (hs : s.ringRegisters) : t.ringRegisters := by
  obtain ⟨htx, hrx, htxHead, hrxHead⟩ := hs
  rw [State.ringRegisters, hblock, hstore]
  exact ⟨htx, hrx, fun h hh => (htdh h hh).elim (htxHead h) id, fun h hh => (hrdh h hh).elim (hrxHead h) id⟩

/-- The head after a device step is an index of the ring (44_device_agent R202, R204, R210). -/
theorem enabledRing_nextHead_lt {control low high length head tail : Option Word32} {g : DevRing}
    (h : enabledRing control low high length head tail = some g) :
    ∃ len, length = some len ∧ g.nextHead.toNat < len.toNat / 16 := by
  obtain ⟨c, lo, hi, len, hd, tl, -, -, -, hlen, -, -, -, -, h16, rfl⟩ := enabledRing_eq_some.1 h
  refine ⟨len, hlen, ?_⟩
  have hslots : (hd.toNat + 1) % (len.toNat / 16) < len.toNat / 16 := Nat.mod_lt _ (by omega)
  have hle : (BitVec.ofNat 32 ((hd.toNat + 1) % (len.toNat / 16))).toNat ≤ (hd.toNat + 1) % (len.toNat / 16) := by
    rw [BitVec.toNat_ofNat]
    exact Nat.mod_le _ _
  exact Nat.lt_of_le_of_lt hle hslots

theorem devTx_tdh (sent : Bool) (errors : Byte) (cause : Bool) (s : State) :
    (devTx sent errors cause s).dev.tdh = s.dev.tdh ∨
      ∃ g, s.dev.txWork = some g ∧ (devTx sent errors cause s).dev.tdh = some g.nextHead := by
  unfold devTx
  split
  · exact .inl rfl
  · rename_i g hg; exact .inr ⟨g, hg, rfl⟩

theorem devRx_rdh (data : List Byte) (checksum : Word16) (errors : Byte) (special : Word16) (status : Byte)
    (causes : Word32) (s : State) :
    (devRx data checksum errors special status causes s).dev.rdh = s.dev.rdh ∨
      ∃ g, s.dev.rxWork = some g ∧ (devRx data checksum errors special status causes s).dev.rdh = some g.nextHead := by
  unfold devRx
  split
  · exact .inl rfl
  · rename_i g hg
    split
    · exact .inr ⟨g, hg, rfl⟩
    · exact .inl rfl

/-- Settles O56. TX_INIT and RX_INIT write the registers of their ring from the base they have checked; the device moves
a head modulo the number of slots. -/
theorem ringRegistersStay : Obligations.RingRegistersStay := by
  intro s t hs hstep
  have keep : ∀ u v : State, u.ringsKept v → v.mem = u.mem → u.ringRegisters → v.ringRegisters :=
    fun u v hk _ => State.ringRegisters_of_ringsKept hk
  apply step_preserves_rings hstep hs keep keep fun _ => id
  case txInit =>
    rintro base u ⟨-, hrx, -, hrxHead⟩ _ hbase
    obtain ⟨haligned, hrange⟩ := (ringBaseOk_iff _ _).1 hbase
    simp only [State.ringRegisters, txInitDone_block, txInitDone_dev, true_and]
    exact ⟨fun _ => ⟨haligned, hrange⟩, hrx, by simp, hrxHead⟩
  case txEnqueue =>
    intro addr len eop u hu _ _
    simpa [State.ringRegisters] using hu
  case rxInit =>
    rintro base u ⟨htx, -, htxHead, -⟩ _ hbase
    obtain ⟨haligned, hrange⟩ := (ringBaseOk_iff _ _).1 hbase
    simp only [State.ringRegisters, rxInitDone_block, rxInitDone_dev, true_and]
    exact ⟨htx, fun _ => ⟨haligned, hrange⟩, htxHead, by simp⟩
  case rxPoll =>
    intro u hu _
    simpa [State.ringRegisters] using hu
  case hostStore => exact fun a bytes u hu => hu
  case blockReset =>
    rintro ts _ ⟨-, -, htxHead, hrxHead⟩
    exact ⟨Bool.noConfusion, Bool.noConfusion, htxHead, hrxHead⟩
  case devTx =>
    intro sent errors cause u hu
    obtain ⟨hblock, -⟩ := devTx_frame sent errors cause u
    obtain ⟨-, -, hrdh, -, hstore⟩ := devTx_registers sent errors cause u
    refine State.ringRegisters_congr hblock hstore (fun h hh => ?_) (fun h hh => .inl (hrdh ▸ hh)) hu
    rcases devTx_tdh sent errors cause u with hsame | ⟨g, hg, hnext⟩
    · exact .inl (hsame ▸ hh)
    · rw [← Option.some.inj (hnext.symm.trans hh)]
      exact .inr (enabledRing_nextHead_lt hg)
  case devRx =>
    intro data checksum errors special status causes u hu
    obtain ⟨hblock, -⟩ := devRx_frame data checksum errors special status causes u
    obtain ⟨-, -, htdh, -, hstore⟩ := devRx_registers data checksum errors special status causes u
    refine State.ringRegisters_congr hblock hstore (fun h hh => .inl (htdh ▸ hh)) (fun h hh => ?_) hu
    rcases devRx_rdh data checksum errors special status causes u with hsame | ⟨g, hg, hnext⟩
    · exact .inl (hsame ▸ hh)
    · rw [← Option.some.inj (hnext.symm.trans hh)]
      exact .inr (enabledRing_nextHead_lt hg)
  case devOverwrite =>
    intro slot data u hu
    rw [devOverwrite_eq]
    exact hu

/-! ### Pin counts -/

/-- What a bound slot counts for a page: 1 if it is bound to that page. -/
def bindingOf (b : Option PageId) (p : PageId) : Nat := if b = some p then 1 else 0

theorem boundCount_txEnqueueDone (p : PageId) (addr : Addr) (len : Word16) (eop : Bool) (s : State) :
    boundCount p (txEnqueueDone addr len eop s) + bindingOf s.block.txBound[s.block.txTail] p =
      boundCount p s + bindingOf (some (pageOf s.params addr)) p := by
  have h := count_set s.block.txBound.toList s.block.txTail.val (by simp) (some (pageOf s.params addr)) (some p)
  have hbeq : instBEqOfDecidableEq (α := Option PageId) = Option.instBEq := lawful_beq_subsingleton _ _
  rw [← Vector.toList_set, hbeq] at h
  simpa [boundCount, bindingOf] using h

theorem pinsOf_txEnqueueDone (p : PageId) (addr : Addr) (len : Word16) (eop : Bool) (s : State) :
    pinsOf p (txEnqueueDone addr len eop s).events = pinsOf p s.events + bindingOf (some (pageOf s.params addr)) p := by
  rw [pinsOf, txEnqueueDone_events]
  cases s.block.txBound[s.block.txTail] <;> simp [pinsOf, bindingOf, List.count_singleton]

theorem unpinsOf_txEnqueueDone (p : PageId) (addr : Addr) (len : Word16) (eop : Bool) (s : State) :
    unpinsOf p (txEnqueueDone addr len eop s).events =
      unpinsOf p s.events + bindingOf s.block.txBound[s.block.txTail] p := by
  rw [unpinsOf, txEnqueueDone_events]
  cases s.block.txBound[s.block.txTail] <;> simp [unpinsOf, bindingOf, List.count_cons]

theorem boundCount_congr {s t : State} (h : t.block.txBound = s.block.txBound) (p : PageId) :
    boundCount p t = boundCount p s := by
  rw [boundCount, h, boundCount]

theorem boundCount_of_unbound {s : State} (h : s.block.txBound = Vector.replicate Config.nTx none) (p : PageId) :
    boundCount p s = 0 := by
  rw [boundCount, h, count_unbound]

theorem State.pinsCovered_congr {s t : State} (hbound : t.block.txBound = s.block.txBound)
    (hevents : t.events = s.events) (h : s.pinsCovered) : t.pinsCovered := fun p => by
  rw [hevents, boundCount_congr hbound]
  exact h p

theorem State.pinsBalanced_congr {s t : State} (hready : t.block.txReady = s.block.txReady)
    (hbound : t.block.txBound = s.block.txBound) (hevents : t.events = s.events) (h : s.pinsBalanced) :
    t.pinsBalanced := by
  obtain ⟨hcount, hunbound⟩ := h
  refine ⟨fun p => ?_, by rwa [hready, hbound]⟩
  rw [hevents, boundCount_congr hbound]
  exact hcount p

/-- Dropping every binding keeps what is still bound pinned. -/
theorem State.pinsCovered_of_unbound {s t : State} (hbound : t.block.txBound = Vector.replicate Config.nTx none)
    (hevents : t.events = s.events) (h : s.pinsCovered) : t.pinsCovered := fun p => by
  have := h p
  rw [hevents, boundCount_of_unbound hbound]
  omega

/-- Every step keeps every binding pinned: a post moves the three counts together, and nothing else but the dropping of
all bindings touches one. -/
theorem step_pinsCovered {s t : State} (hs : s.pinsCovered) (hstep : step s = .next t) : t.pinsCovered := by
  have keep : ∀ u v : State, u.ringsKept v → v.mem = u.mem → u.pinsCovered → v.pinsCovered :=
    fun u v hk _ => State.pinsCovered_congr hk.txBound hk.events
  apply step_preserves_rings hstep hs keep keep fun _ => id
  case txInit => exact fun base u hu _ _ => State.pinsCovered_of_unbound (by simp) (by simp) hu
  case txEnqueue =>
    intro addr len eop u hu _ _ p
    have hbound := boundCount_txEnqueueDone p addr len eop u
    have := hu p
    rw [pinsOf_txEnqueueDone, unpinsOf_txEnqueueDone]
    omega
  case rxInit => exact fun base u hu _ _ => State.pinsCovered_congr (by simp) (by simp) hu
  case rxPoll => exact fun u hu _ => State.pinsCovered_congr (by simp) (by simp) hu
  case hostStore => exact fun a bytes u hu => hu
  case blockReset => exact fun ts _ hu => State.pinsCovered_of_unbound (s := { s with schedule := ts }) rfl rfl hu
  case devTx =>
    intro sent errors cause u hu
    obtain ⟨hblock, -, -, -, hevents, -⟩ := devTx_frame sent errors cause u
    exact State.pinsCovered_congr (congrArg Block.txBound hblock) hevents hu
  case devRx =>
    intro data checksum errors special status causes u hu
    obtain ⟨hblock, -, -, -, hevents, -⟩ := devRx_frame data checksum errors special status causes u
    exact State.pinsCovered_congr (congrArg Block.txBound hblock) hevents hu
  case devOverwrite =>
    intro slot data u hu
    rw [devOverwrite_eq]
    exact hu

/-- Every step but block reset keeps the counts equal. -/
theorem step_pinsBalanced {s t : State} (hs : s.pinsBalanced) (hreset : ∀ ts, ¬ s.turnOf .blockReset ts)
    (hstep : step s = .next t) : t.pinsBalanced := by
  have keep : ∀ u v : State, u.ringsKept v → v.mem = u.mem → u.pinsBalanced → v.pinsBalanced :=
    fun u v hk _ => State.pinsBalanced_congr hk.txReady hk.txBound hk.events
  apply step_preserves_rings hstep hs keep keep fun _ => id
  case txInit =>
    rintro base u ⟨hcount, hunbound⟩ hr _
    have hcongr : ∀ p, boundCount p (txInitDone base u) = boundCount p u :=
      boundCount_congr (by simp [hunbound hr])
    exact ⟨fun p => by rw [txInitDone_events, hcongr]; exact hcount p, by simp⟩
  case txEnqueue =>
    rintro addr len eop u ⟨hcount, -⟩ hr _
    refine ⟨fun p => ?_, by simp [hr]⟩
    have hbound := boundCount_txEnqueueDone p addr len eop u
    have := hcount p
    rw [pinsOf_txEnqueueDone, unpinsOf_txEnqueueDone]
    omega
  case rxInit => exact fun base u hu _ _ => State.pinsBalanced_congr (by simp) (by simp) (by simp) hu
  case rxPoll => exact fun u hu _ => State.pinsBalanced_congr (by simp) (by simp) (by simp) hu
  case hostStore => exact fun a bytes u hu => hu
  case blockReset => exact fun ts hts _ => absurd hts (hreset ts)
  case devTx =>
    intro sent errors cause u hu
    obtain ⟨hblock, -, -, -, hevents, -⟩ := devTx_frame sent errors cause u
    exact State.pinsBalanced_congr (congrArg Block.txReady hblock) (congrArg Block.txBound hblock) hevents hu
  case devRx =>
    intro data checksum errors special status causes u hu
    obtain ⟨hblock, -, -, -, hevents, -⟩ := devRx_frame data checksum errors special status causes u
    exact State.pinsBalanced_congr (congrArg Block.txReady hblock) (congrArg Block.txBound hblock) hevents hu
  case devOverwrite =>
    intro slot data u hu
    rw [devOverwrite_eq]
    exact hu

theorem State.pinsBalanced.pinCount {s : State} (h : s.pinsBalanced) (p : PageId) :
    pinCount p s.events = (boundCount p s : Int) := by
  obtain ⟨hcount, -⟩ := h
  have := hcount p
  simp only [Machine.pinCount]
  omega

/-- Settles O57. A post pins one page, unpins the page bound before, and exchanges the two bindings. -/
theorem pinsStayAccounted : Obligations.PinsStayAccounted := by
  refine ⟨fun s t hs hstep => step_pinsCovered hs hstep, fun s t hs hreset hstep => ?_⟩
  have ht := step_pinsBalanced hs hreset hstep
  exact ⟨ht, ht.pinCount⟩

end Sys2Proof.Machine
end

section
/-! PROOFS. The RX binding (10_state R45, R48): in a run inside the spec, no step changes a byte of an RX descriptor's
address field. -/

namespace Sys2Proof.Machine

/-! ### Addresses of rings and buffers -/

theorem slotAddr_add_sub_toNat (base : Addr) {k c : Nat} (h : 16 * k + c < 2 ^ 64) :
    (slotAddr base k + BitVec.ofNat 64 c - base).toNat = 16 * k + c := by
  rw [slotAddr, add_ofNat_assoc, add_ofNat_sub_toNat _ _ h]

theorem inRange_iff {x base : Addr} {n : Nat} : inRange x base n = true ↔ (x - base).toNat < n := by
  simp [inRange]

theorem inRange_eq_false {x base : Addr} {n : Nat} : inRange x base n = false ↔ ¬ (x - base).toNat < n := by
  simp [inRange]

/-- The bytes of a slot lie in its ring. -/
theorem inRange_of_inRange_slot {x base : Addr} {k n : Nat} (hk : k < n) (hn : 16 * n ≤ 2 ^ 64)
    (h : inRange x (slotAddr base k) 16 = true) : inRange x base (16 * n) = true := by
  have hlt := inRange_iff.1 h
  rw [sub_slotAddr_toNat _ _ _ (by omega)] at hlt
  refine inRange_iff.2 ?_
  split at hlt <;> omega

/-- Every address of a range is its base and an offset. -/
theorem eq_add_ofNat_sub (x a : Addr) : x = a + BitVec.ofNat 64 (x - a).toNat := by
  rw [BitVec.ofNat_toNat, BitVec.setWidth_eq, BitVec.add_comm, BitVec.sub_add_cancel]

theorem inDeviceRing_halves (x base : Addr) (len : Word32) :
    inDeviceRing x (some (base.extractLsb' 0 32)) (some (base.extractLsb' 32 32)) (some len) =
      inRange x base len.toNat := by
  rw [inDeviceRing, ringBaseOf_halves]

theorem inRxBuffer_of_inRange {x : Addr} {p : Params} (i : Fin Config.mRx) {n : Nat} (hn : n ≤ p.pageSize)
    (h : inRange x (p.rxBufAddr i) n = true) : inRxBuffer x p = true := by
  refine List.any_eq_true.2 ⟨p.rxBufAddr i, by simp [Params.rxBufAddr], ?_⟩
  exact inRange_iff.2 (Nat.lt_of_lt_of_le (inRange_iff.1 h) hn)

/-! ### The bytes that hold the addresses -/

/-- A byte of the address field of an RX descriptor: one of the first 8 of a slot of the RX ring (R45). -/
structure State.inRxAddrField (s : State) (x : Addr) : Prop where
  ring : inRange x s.block.rxBase 2048 = true
  field : (x - s.block.rxBase).toNat % 16 < 8

theorem State.rxBound_of_bytes {s t : State} (hready : t.block.rxReady = s.block.rxReady)
    (hbase : t.block.rxBase = s.block.rxBase) (hparams : t.params = s.params)
    (hbytes : s.block.rxReady = true → ∀ x, s.inRxAddrField x → Memory.byte t.mem x = Memory.byte s.mem x)
    (h : s.rxBound) : t.rxBound := by
  intro hr i
  rw [hready] at hr
  rw [hbase, hparams, ← h hr i]
  refine Memory.readLE_congr _ _ _ _ fun k hk => hbytes hr _ ?_
  have hi : i.val < 128 := i.isLt
  have hoff := slotAddr_add_sub_toNat s.block.rxBase (k := i) (c := k) (by omega)
  exact ⟨inRange_iff.2 (by omega), by omega⟩

/-! ### What the layout premise gives -/

theorem State.layoutOk_iff_of_ringsKept {s t : State} (h : s.ringsKept t) : t.layoutOk ↔ s.layoutOk := by
  rw [State.layoutOk, h.tdbal, h.tdbah, h.tdlen, h.rdbal, h.rdbah, h.rdlen, h.params, State.layoutOk]

/-- The RX ring the NIC was given is the block's. -/
theorem State.inDeviceRing_rx {s : State} (hs : s.ringRegisters) (hr : s.block.rxReady = true) (x : Addr) :
    inDeviceRing x s.dev.store.rdbal s.dev.store.rdbah s.dev.store.rdlen = inRange x s.block.rxBase 2048 := by
  obtain ⟨-, hrx, -⟩ := hs
  obtain ⟨hlo, hhi, hlen, -⟩ := hrx hr
  rw [hlo, hhi, hlen, inDeviceRing_halves]
  rfl

/-- No byte of the TX ring the NIC was given lies in the RX ring. -/
theorem State.layoutOk.tx_ne {s : State} (h : s.layoutOk) {x y : Addr}
    (hx : inDeviceRing x s.dev.store.tdbal s.dev.store.tdbah s.dev.store.tdlen = true)
    (hy : inDeviceRing y s.dev.store.rdbal s.dev.store.rdbah s.dev.store.rdlen = true) : x ≠ y := by
  rintro rfl
  obtain ⟨hdisj, -⟩ := h x
  simp [hx, hy] at hdisj

/-- No byte of an RX buffer lies in the RX ring. -/
theorem State.layoutOk.buffer_ne {s : State} (h : s.layoutOk) {x y : Addr} (hx : inRxBuffer x s.params = true)
    (hy : inDeviceRing y s.dev.store.rdbal s.dev.store.rdbah s.dev.store.rdlen = true) : x ≠ y := by
  rintro rfl
  obtain ⟨-, -, hdisj⟩ := h x
  simp [hx, hy] at hdisj

/-- The premises the RX binding is kept under, and the binding. -/
structure State.rxBoundPremises (s : State) : Prop where
  wf : s.params.wf
  registers : s.ringRegisters
  layout : s.layoutOk
  bound : s.rxBound

theorem State.rxBoundPremises_of_ringsKept {s t : State} (hk : s.ringsKept t) (hm : t.mem = s.mem)
    (h : s.rxBoundPremises) : t.rxBoundPremises where
  wf := hk.params ▸ h.wf
  registers := State.ringRegisters_of_ringsKept hk h.registers
  layout := (State.layoutOk_iff_of_ringsKept hk).2 h.layout
  bound := State.rxBound_of_bytes hk.rxReady hk.rxBase hk.params (fun _ x _ => by rw [hm]) h.bound

/-! ### The steps that write memory -/

theorem txInitDone_keeps_rxBound {base : Addr} {s : State} (h : s.rxBoundPremises)
    (hlayout : (txInitDone base s).layoutOk) : (txInitDone base s).rxBound := by
  refine State.rxBound_of_bytes (by simp) (by simp) (by simp) (fun hr x hx => ?_) h.bound
  rw [txInitDone_mem, byte_writeTxRing _ _ _ _ _ (by decide)]
  refine if_neg fun hin => hlayout.tx_ne (x := x) (y := x) ?_ ?_ rfl
  · simp only [txInitDone_dev]
    rw [inDeviceRing_halves]
    exact inRange_iff.2 hin
  · simp only [txInitDone_dev]
    rw [State.inDeviceRing_rx h.registers hr]
    exact hx.ring

theorem txEnqueueDone_keeps_rxBound {addr : Addr} {len : Word16} {eop : Bool} {s : State} (h : s.rxBoundPremises)
    (hready : s.block.txReady = true) : (txEnqueueDone addr len eop s).rxBound := by
  refine State.rxBound_of_bytes (by simp) (by simp) (by simp) (fun hr x hx => ?_) h.bound
  rw [byte_txEnqueueDone]
  refine if_neg fun hin => h.layout.tx_ne (x := x) (y := x) ?_ ?_ rfl
  · obtain ⟨htx, -⟩ := h.registers
    obtain ⟨hlo, hhi, hlen, -⟩ := htx hready
    rw [hlo, hhi, hlen, inDeviceRing_halves]
    exact inRange_of_inRange_slot (n := 16) s.block.txTail.isLt (by decide) (inRange_iff.2 hin)
  · rw [State.inDeviceRing_rx h.registers hr]
    exact hx.ring

/-- What a delivering RX_POLL does to every byte of memory: status and errors of its slot become 0. -/
theorem byte_rxPollDone (s : State) (y : Addr) :
    Memory.byte (rxPollDone s).mem y = if y = s.rxSlot + 12 ∨ y = s.rxSlot + 13 then 0 else Memory.byte s.mem y := by
  have one : ∀ (m : Memory) (a : Addr),
      Memory.byte (Memory.writeLE m a 1 0) y = if y = a then 0 else Memory.byte m y := by
    intro m a
    simp [Memory.writeLE, Memory.byte_setByte]
  rw [rxPollDone_mem, one, one]
  by_cases h : y = s.rxSlot + 13
  · rw [if_pos h, if_pos (.inr h)]
  · rw [if_neg h]
    simp only [h, or_false]

theorem rxPollDone_keeps_rxBound {s : State} (h : s.rxBoundPremises) : (rxPollDone s).rxBound := by
  refine State.rxBound_of_bytes (by simp) (by simp) (by simp) (fun hr x hx => ?_) h.bound
  rw [byte_rxPollDone]
  have hfield := hx.field
  have hc : s.block.rxCursor.val < 128 := s.block.rxCursor.isLt
  have h12 : (s.rxSlot + 12 - s.block.rxBase).toNat = 16 * s.block.rxCursor.val + 12 :=
    slotAddr_add_sub_toNat _ (c := 12) (by omega)
  have h13 : (s.rxSlot + 13 - s.block.rxBase).toNat = 16 * s.block.rxCursor.val + 13 :=
    slotAddr_add_sub_toNat _ (c := 13) (by omega)
  refine if_neg ?_
  rintro (rfl | rfl) <;> omega

/-- A store the host may make writes no byte of a ready RX ring (R266). -/
theorem hostStore_keeps_rxBound {a : Addr} {bytes : List Byte} {s : State} (h : s.rxBound)
    (hinside : (hostStore a bytes s).outside = false) : (hostStore a bytes s).rxBound := by
  refine State.rxBound_of_bytes (s := s) rfl rfl rfl (fun hr x hx => ?_) h
  by_contra hchanged
  have hk := Memory.writeBytes_changes _ _ _ _ hchanged
  have howned : blockOwns s x = true := by
    have hring : inRange x s.block.rxBase (Config.descBytes * Config.mRx) = true := hx.ring
    simp [blockOwns, hr, hring]
  obtain ⟨-, hmay⟩ := Bool.or_eq_false_iff.1 hinside
  rw [Bool.not_eq_false'] at hmay
  have hfree := List.all_eq_true.1 hmay _ (List.mem_range.2 hk)
  rw [← eq_add_ofNat_sub x a, howned] at hfree
  cases hfree

theorem devTx_keeps_rxBound {sent : Bool} {errors : Byte} {cause : Bool} {s : State} (h : s.rxBoundPremises) :
    (devTx sent errors cause s).rxBound := by
  obtain ⟨hblock, hparams, -⟩ := devTx_frame sent errors cause s
  refine State.rxBound_of_bytes (by rw [hblock]) (by rw [hblock]) hparams (fun hr x hx => ?_) h.bound
  rcases devTx_mem sent errors cause s with hm | ⟨g, hg, hm⟩ <;> rw [hm]
  rw [Memory.byte_setByte]
  refine if_neg (Ne.symm (h.layout.tx_ne ?_ ?_))
  · obtain ⟨c, lo, hi, len, hd, tl, -, hlo, hhi, hlen, hhd, -, -, -, -, rfl⟩ := enabledRing_eq_some.1 hg
    obtain ⟨-, -, hhead, -⟩ := h.registers
    obtain ⟨len', hlen', hlt⟩ := hhead hd hhd
    obtain rfl := Option.some.inj (hlen.symm.trans hlen')
    have hoff : (slotAddr (ringBaseOf lo hi) hd.toNat + 12 - ringBaseOf lo hi).toNat = 16 * hd.toNat + 12 :=
      slotAddr_add_sub_toNat _ (c := 12) (by have := hd.isLt; omega)
    rw [hlo, hhi, hlen]
    exact inRange_iff.2 (by rw [DevRing.slot, hoff]; omega)
  · rw [State.inDeviceRing_rx h.registers hr]
    exact hx.ring

/-- The ring DEV_RX works on is the block's, where that is ready. -/
theorem rxWork_of_ready {s : State} {g : DevRing} (h : s.ringRegisters) (hr : s.block.rxReady = true)
    (hg : s.dev.rxWork = some g) : ∃ i : Fin Config.mRx, g.head.toNat = i.val ∧ g.slot = slotAddr s.block.rxBase i := by
  obtain ⟨c, lo, hi, len, hd, tl, -, hlo, hhi, hlen, hhd, -, -, -, -, rfl⟩ := enabledRing_eq_some.1 hg
  obtain ⟨-, hrx, -, hhead⟩ := h
  obtain ⟨hlo', hhi', hlen', -⟩ := hrx hr
  obtain ⟨len', hlen'', hlt⟩ := hhead hd hhd
  obtain rfl := Option.some.inj (hlo.symm.trans hlo')
  obtain rfl := Option.some.inj (hhi.symm.trans hhi')
  obtain rfl := Option.some.inj (hlen'.symm.trans hlen'')
  exact ⟨⟨hd.toNat, hlt⟩, rfl, by rw [DevRing.slot, ringBaseOf_halves]⟩

theorem devRx_keeps_rxBound {data : List Byte} {checksum special : Word16} {errors status : Byte} {causes : Word32}
    {s : State} (h : s.rxBoundPremises) : (devRx data checksum errors special status causes s).rxBound := by
  obtain ⟨hblock, hparams, -⟩ := devRx_frame data checksum errors special status causes s
  refine State.rxBound_of_bytes (by rw [hblock]) (by rw [hblock]) hparams (fun hr x hx => ?_) h.bound
  rcases devRx_mem data checksum errors special status causes s with hm | ⟨g, hg, hlen, hm⟩ <;> rw [hm]
  obtain ⟨i, -, hslot⟩ := rxWork_of_ready h.registers hr hg
  have hi : i.val < 128 := i.isLt
  obtain ⟨hring, hfield⟩ := hx
  have hfield8 : ¬ (x - (g.slot + 8)).toNat < 8 := by
    have hx := inRange_iff.1 hring
    have h8 : (x - (slotAddr s.block.rxBase i + 8)).toNat = _ :=
      sub_add_toNat x (slotAddr s.block.rxBase i) 8 (by omega)
    rw [sub_slotAddr_toNat _ _ _ (by omega)] at h8
    rw [hslot]
    split at h8 <;> split at h8 <;> omega
  have hbuffer : data.length ≤ (x - s.params.rxBufAddr i).toNat := by
    by_contra hin
    have hbuf := inRxBuffer_of_inRange i hlen (inRange_iff.2 (Nat.lt_of_not_le hin))
    exact h.layout.buffer_ne hbuf (by rw [State.inDeviceRing_rx h.registers hr]; exact hring) rfl
  have hpage := Params.pageSize_lt h.wf
  rw [byte_rxDelivered _ _ _ _ _ _ _ _ (by omega), if_neg hfield8, hslot, h.bound hr i,
    List.getElem?_eq_none hbuffer, Option.getD_none]

theorem devOverwrite_keeps_rxBound {slot : Fin Config.mRx} {data : List Byte} {s : State} (h : s.rxBoundPremises) :
    (devOverwrite slot data s).rxBound := by
  rcases devOverwrite_cases slot data s with ⟨-, hlen, hm⟩ | hsame
  · rw [devOverwrite_eq]
    refine State.rxBound_of_bytes (s := s) rfl rfl rfl (fun hr x hx => ?_) h.bound
    by_contra hchanged
    rw [hm] at hchanged
    have hbuf := inRxBuffer_of_inRange slot hlen (inRange_iff.2 (Memory.writeBytes_changes _ _ _ _ hchanged))
    exact h.layout.buffer_ne hbuf (by rw [State.inDeviceRing_rx h.registers hr]; exact hx.ring) rfl
  · rw [hsame]
    exact h.bound

/-- Settles O58. Each step that writes memory writes bytes of the TX ring, of RX buffers or of other fields of the RX
descriptors, or it is RX_INIT, which writes the addresses themselves. -/
theorem rxBindingIsNeverChanged : Obligations.RxBindingIsNeverChanged := by
  intro s t hwf hregs hlayout hbound hstep hlayout' hinside
  suffices hQ : t.layoutOk → t.outside = false → t.rxBound from hQ hlayout' hinside
  apply step_preserves_rings (P := State.rxBoundPremises) (Q := fun u => u.layoutOk → u.outside = false → u.rxBound)
    hstep ⟨hwf, hregs, hlayout, hbound⟩
  case keepP => exact fun u v hk hm hu => State.rxBoundPremises_of_ringsKept hk hm hu
  case keepQ =>
    intro u v hk hm hu hl ho
    have hul := (State.layoutOk_iff_of_ringsKept hk).1 hl
    have huo : u.outside = false := Bool.eq_false_iff.2 fun h => by simp [hk.outside h] at ho
    exact State.rxBound_of_bytes hk.rxReady hk.rxBase hk.params (fun _ x _ => by rw [hm]) (hu hul huo)
  case weaken => exact fun u hu _ _ => hu.bound
  case txInit => exact fun base u hu _ _ hl _ => txInitDone_keeps_rxBound hu hl
  case txEnqueue => exact fun addr len eop u hu hr _ _ _ => txEnqueueDone_keeps_rxBound hu hr
  case rxInit => exact fun base u _ _ _ _ _ => rxInitDone_rxBound base u
  case rxPoll => exact fun u hu _ _ _ => rxPollDone_keeps_rxBound hu
  case hostStore => exact fun a bytes u hu _ ho => hostStore_keeps_rxBound hu.bound ho
  case blockReset => exact fun ts _ _ _ _ => Bool.noConfusion
  case devTx => exact fun sent errors cause u hu _ _ => devTx_keeps_rxBound hu
  case devRx => exact fun data checksum errors special status causes u hu _ _ => devRx_keeps_rxBound hu
  case devOverwrite => exact fun slot data u hu _ _ => devOverwrite_keeps_rxBound hu

end Sys2Proof.Machine
end

section
/-! PROOFS. The REG_* commands that complete (40_register_access R132 to R137) and INT_ACK (43_interrupt R190). -/

namespace Sys2Proof.Machine

/-! ### The tables of the statements are the register file's -/

theorem regGives_eq_held (d : Nic) (r : Reg) : regGives d r = d.held r := by
  cases r <;> rfl

/-- Where REG_WRITE may write, the access check passes and the effect is the register file's (10_state R31). -/
theorem regTakes_eq_some {d e : Nic} {r : Reg} {v : Word32} (h : regTakes d r v = some e) :
    accessFault r .write = none ∧ e = d.afterWrite r v := by
  cases r <;> cases h <;> exact ⟨rfl, rfl⟩

/-- A storage register may be read and written as one access, and keeps what is written (10_state R31). -/
theorem storageReg_access {r : Reg} (h : r ∈ storageRegs) :
    accessFault r .rmw = none ∧
      ∀ d v, regTakes d r v = some (d.afterWrite r v) ∧ regGives (d.afterWrite r v) r = some v := by
  simp only [storageRegs, List.mem_cons, List.not_mem_nil, or_false] at h
  rcases h with rfl | rfl | rfl | rfl | rfl | rfl | rfl | rfl <;> exact ⟨rfl, fun _ _ => ⟨rfl, rfl⟩⟩

theorem Nic.afterRead_eq (d : Nic) (r : Reg) : d.afterRead r = if r = .icr then { d with icr := 0 } else d := by
  cases r <;> rfl

theorem NicStore.set_set (st : NicStore) (k : StoreReg) (v : Word32) : (st.set k v).set k v = st.set k v := by
  cases k <;> rfl

/-- Writing a register twice with one value is writing it once (20_memory R80). -/
theorem Nic.afterWrite_afterWrite (d : Nic) (r : Reg) (v : Word32) :
    (d.afterWrite r v).afterWrite r v = d.afterWrite r v := by
  simp only [Nic.afterWrite]
  cases regClass r with
  | writeOneToSet => simp [BitVec.or_assoc]
  | writeOneToClear => simp [BitVec.and_assoc]
  | storage k => simp only [NicStore.set_set]
  | ringStorage k => simp only [NicStore.set_set]
  | ringHead ring => cases ring <;> rfl
  | ringDoorbell ring => cases ring <;> rfl
  | deviceOwned | readOnly | readToClear => rfl

/-- The faults REG_WRITE takes, by register (40_register_access R132). -/
theorem accessFault_write_eq (r : Reg) :
    accessFault r .write =
      if r = .ctrl then some .unmodelled else if r ∈ writeDeniedRegs then some .accessDenied else none := by
  cases r <;> rfl

/-- The faults REG_SET_BITS and REG_CLEAR_BITS take, by register (40_register_access R132). -/
theorem accessFault_rmw_eq (r : Reg) :
    accessFault r .rmw =
      if r = .ctrl then some .unmodelled
      else if r ∈ writeDeniedRegs ∨ r = .ims ∨ r = .imc then some .accessDenied else none := by
  cases r <;> rfl

/-! ### The commands on a live block -/

theorem exec_regRead {s : State} (hl : s.live) (r : Reg) :
    exec (.regRead (regOffset r)) s =
      .next (respond { code := .ok, data := (mmioRead r s).1 } (mmioRead r s).2) :=
  exec_done hl (by rw [bodyOf, withRegister_of_allowed (regAt_regOffset r) rfl])

theorem exec_regWrite {s : State} (hl : s.live) {r : Reg} (hr : accessFault r .write = none) (v : Word32) :
    exec (.regWrite (regOffset r) v) s = .next (respond { code := .ok } (mmioWrite r v s)) :=
  exec_done hl (by rw [bodyOf, withRegister_of_allowed (regAt_regOffset r) hr])

/-- The state a completed read and write of a register leaves. -/
def rmwDone (f : Word32 → Word32) (r : Reg) (s : State) : State :=
  respond { code := .ok, data := (mmioRead r s).1 } (mmioWrite r (f (mmioRead r s).1) (mmioRead r s).2)

theorem exec_regSetBits {s : State} (hl : s.live) {r : Reg} (hr : accessFault r .rmw = none) (m : Word32) :
    exec (.regSetBits (regOffset r) m) s = .next (rmwDone (· ||| m) r s) :=
  exec_done hl (withRegister_of_allowed (regAt_regOffset r) hr)

theorem exec_regClearBits {s : State} (hl : s.live) {r : Reg} (hr : accessFault r .rmw = none) (m : Word32) :
    exec (.regClearBits (regOffset r) m) s = .next (rmwDone (· &&& ~~~m) r s) :=
  exec_done hl (withRegister_of_allowed (regAt_regOffset r) hr)

/-- A live command that raises a fault in the state it found answers that fault, having made no access. -/
theorem exec_raised_at_once {i : Instr} {s : State} {f : FaultCode} (hl : s.live) (h : bodyOf i s = .raised f s) :
    ∃ t, exec i s = .next t ∧ s.faultedWith t f.byte (encode i) [] :=
  exec_raised hl (by rw [h, State.afterReads_nil])

/-- A command the access check refuses is a precise fault before any access (60_exceptions R236). -/
theorem exec_refused {s : State} (hl : s.live) {i : Instr} {r : Reg} {k : AccessKind} {body : Reg → State → Ending}
    {f : FaultCode} (hi : bodyOf i = withRegister (regOffset r) k body) (hf : accessFault r k = some f) :
    ∃ t, exec i s = .next t ∧ s.faultedWith t f.byte (encode i) [] := by
  have hraised : bodyOf i s = .raised f s := by rw [hi, withRegister_of_fault (regAt_regOffset r) hf]
  exact exec_raised_at_once hl hraised

theorem mmioRead_gives {r : Reg} {s : State} {w : Word32} (h : regGives s.dev r = some w) : (mmioRead r s).1 = w :=
  mmioRead_value (regGives_eq_held s.dev r ▸ h)

/-- Settles O14: a read is allowed on every register, and the register file says its value and its side effect. -/
theorem regReadAnswers : Obligations.RegReadAnswers := by
  intro s r hl
  refine ⟨_, _, exec_regRead hl r, fun w hw => mmioRead_gives hw, ?_, ?_⟩
  · rw [respond_dev, mmioRead_dev, Nic.afterRead_eq]
  · constructor <;> simp [State.sameMemory, State.sameSurroundings]

/-- Settles O15: the ten registers pass the access check, and the register file says each one's effect. -/
theorem regWriteAnswers : Obligations.RegWriteAnswers := by
  intro s r v d hl hd
  obtain ⟨hr, rfl⟩ := regTakes_eq_some hd
  exact ⟨_, exec_regWrite hl hr v, rfl, rfl, rfl, rfl, rfl, fun _ => rfl, rfl, rfl, rfl, rfl, rfl, rfl⟩

theorem rmwDone_regFrame (f : Word32 → Word32) (r : Reg) (s : State) :
    regFrame s (rmwDone f r s) { code := .ok, data := (mmioRead r s).1 }
      [.mmioRead r (mmioRead r s).1, .mmioWrite r (f (mmioRead r s).1)] := by
  constructor <;> simp [rmwDone, State.sameMemory, State.sameSurroundings]

/-- A read of a storage register has no side effect, so what the write leaves is the write's. -/
theorem rmwDone_dev (f : Word32 → Word32) {r : Reg} (hr : r ∈ storageRegs) (s : State) :
    (rmwDone f r s).dev = s.dev.afterWrite r (f (mmioRead r s).1) := by
  have hne : r ≠ .icr := by rintro rfl; revert hr; decide
  simp [rmwDone, Nic.afterRead_eq, hne]

/-- A read and a write as one access of a storage register, once it completes. -/
theorem rmwDone_answers {i : Instr} {r : Reg} {s : State} (f : Word32 → Word32) (hr : r ∈ storageRegs)
    (hexec : exec i s = .next (rmwDone f r s)) :
    ∃ v t, exec i s = .next t ∧ (∀ w, regGives s.dev r = some w → v = w) ∧ regTakes s.dev r (f v) = some t.dev ∧
      regFrame s t { code := .ok, data := v } [.mmioRead r v, .mmioWrite r (f v)] := by
  obtain ⟨-, haccess⟩ := storageReg_access hr
  obtain ⟨htakes, -⟩ := haccess s.dev (f (mmioRead r s).1)
  exact ⟨_, _, hexec, fun w hw => mmioRead_gives hw, by rw [rmwDone_dev f hr, htakes], rmwDone_regFrame f r s⟩

/-- Settles O16: a storage register passes the access check, and the write follows the read. -/
theorem regSetBitsAnswers : Obligations.RegSetBitsAnswers := by
  intro s r m hl hr
  obtain ⟨hallowed, -⟩ := storageReg_access hr
  exact rmwDone_answers (· ||| m) hr (exec_regSetBits hl hallowed m)

/-- Settles O17: as O16, with the mask's bits cleared. -/
theorem regClearBitsAnswers : Obligations.RegClearBitsAnswers := by
  intro s r m hl hr
  obtain ⟨hallowed, -⟩ := storageReg_access hr
  exact rmwDone_answers (· &&& ~~~m) hr (exec_regClearBits hl hallowed m)

/-- A read and a write as one access ends as the access check says. -/
theorem exec_rmw_answers {s : State} (hl : s.live) {i : Instr} {r : Reg} {f : Word32 → Word32}
    (hi : bodyOf i = withRegister (regOffset r) .rmw (readModifyWrite f)) :
    ∃ t, exec i s = .next t ∧
      if r = .ctrl then s.faultedWith t 0x04 (encode i) []
      else if r ∈ writeDeniedRegs ∨ r = .ims ∨ r = .imc then s.faultedWith t 0x03 (encode i) []
      else ∃ x, t.responses = s.responses ++ [{ code := .ok, data := x }] := by
  have hfault := accessFault_rmw_eq r
  split_ifs at hfault ⊢
  · exact exec_refused hl hi hfault
  · exact exec_refused hl hi hfault
  · have hbody : bodyOf i s = readModifyWrite f r s := by
      rw [hi, withRegister_of_allowed (regAt_regOffset r) hfault]
    exact ⟨_, exec_done hl hbody, (mmioRead r s).1, by simp⟩

/-- Settles O19: each kind of access faults or completes as the access check says of the register. -/
theorem accessRightsByRegister : Obligations.AccessRightsByRegister := by
  intro s r v hl
  refine ⟨⟨_, (mmioRead r s).1, exec_regRead hl r, by simp⟩, ?_, fun i hi => ?_⟩
  · have hfault := accessFault_write_eq r
    split_ifs at hfault ⊢
    · exact exec_refused hl rfl hfault
    · exact exec_refused hl rfl hfault
    · exact ⟨_, exec_regWrite hl hfault v, rfl⟩
  · simp only [List.mem_cons, List.not_mem_nil, or_false] at hi
    rcases hi with rfl | rfl
    · exact exec_rmw_answers hl rfl
    · exact exec_rmw_answers hl rfl

/-- A storage register that holds v holds f v after a read and a write by f. -/
theorem rmwDone_holds {f : Word32 → Word32} {r : Reg} {s : State} {v : Word32} (hr : r ∈ storageRegs)
    (hv : holds s r v) : holds (rmwDone f r s) r (f v) := by
  obtain ⟨-, htakes⟩ := storageReg_access hr
  rw [holds, rmwDone_dev f hr, mmioRead_gives hv]
  exact (htakes _ _).2

theorem rmwDone_live {f : Word32 → Word32} {r : Reg} {s : State} (hl : s.live) : (rmwDone f r s).live := by
  simpa [State.live, rmwDone] using hl

/-- Two such commands in a row apply both functions. -/
theorem rmwDone_rmwDone_holds {f g : Word32 → Word32} {r : Reg} {s : State} {v w : Word32} (hr : r ∈ storageRegs)
    (hv : holds s r v) (hw : f (g v) = w) : holds (rmwDone f r (rmwDone g r s)) r w :=
  hw ▸ rmwDone_holds hr (rmwDone_holds hr hv)

theorem or_and_not_self (v m : Word32) : (v ||| m) &&& ~~~m = v &&& ~~~m := by
  ext k hk
  cases hm : m[k] <;> simp [hm]

theorem and_not_or_self (v m : Word32) : (v &&& ~~~m) ||| m = v ||| m := by
  ext k hk
  cases hm : m[k] <;> simp [hm]

/-- Settles O21: the second command applies its function to what the first left. -/
theorem maskLaws : Obligations.MaskLaws := by
  intro s r v m n hl hr hv
  obtain ⟨hallowed, -⟩ := storageReg_access hr
  have hclear {g : Word32 → Word32} (k : Word32) := exec_regClearBits (rmwDone_live (f := g) (r := r) hl) hallowed k
  have hset {g : Word32 → Word32} (k : Word32) := exec_regSetBits (rmwDone_live (f := g) (r := r) hl) hallowed k
  exact ⟨_, _, exec_regSetBits hl hallowed m, exec_regClearBits hl hallowed m,
    ⟨_, hclear m, rmwDone_rmwDone_holds hr hv (or_and_not_self v m)⟩,
    ⟨_, hset m, rmwDone_rmwDone_holds hr hv (and_not_or_self v m)⟩,
    ⟨_, hset n, rmwDone_rmwDone_holds hr hv (BitVec.or_assoc v m n)⟩,
    ⟨_, hclear n, rmwDone_rmwDone_holds hr hv (by rw [BitVec.not_or, BitVec.and_assoc])⟩⟩

/-- Settles O22: the register file takes a repeated write as one. -/
theorem repeatedWritesAreIdempotent : Obligations.RepeatedWritesAreIdempotent := by
  intro s r v d hl hd
  obtain ⟨hr, rfl⟩ := regTakes_eq_some hd
  have hlive : (respond { code := .ok } (mmioWrite r v s)).live := hl
  exact ⟨_, _, exec_regWrite hl hr v, exec_regWrite hlive hr v, rfl, Nic.afterWrite_afterWrite s.dev r v⟩

/-! ### INT_ACK and the interrupt line -/

theorem mmioRead_of_held {r : Reg} {s : State} {v : Word32} (h : s.dev.held r = some v) :
    mmioRead r s = (v, recordAccess (.mmioRead r v) { s with dev := s.dev.afterRead r }) := by
  simp [mmioRead, regValue_of_held h]

/-- The response of INT_ACK: ICR and its two hints (43_interrupt R190). -/
def Nic.ackResponse (d : Nic) : Response where
  code := .ok
  data := d.icr
  txh := txHint d.icr
  rxh := rxHint d.icr

theorem exec_intAck {s : State} (hl : s.live) :
    exec .intAck s =
      .next (respond s.dev.ackResponse
        (recordAccess (.mmioRead .icr s.dev.icr) { s with dev := { s.dev with icr := 0 } })) := by
  refine exec_done hl ?_
  simp only [bodyOf, mmioRead_of_held (show s.dev.held .icr = some s.dev.icr from rfl)]
  rfl

/-- Settles O37: INT_ACK is one read of ICR, which is held and cleared by it. -/
theorem intAckAnswers : Obligations.IntAckAnswers := fun _ hl =>
  ⟨_, exec_intAck hl, rfl, rfl, rfl, rfl, rfl, fun _ => rfl, rfl, rfl, rfl, rfl, rfl, rfl⟩

/-- Settles O38: the first INT_ACK leaves ICR 0 and the block live. -/
theorem secondIntAckReportsNothing : Obligations.SecondIntAckReportsNothing := by
  intro s hl
  obtain ⟨t, ht, hdev, -, -, -, hblock, -⟩ := intAckAnswers s hl
  have hlive : t.live := by rw [State.live, hblock]; exact hl
  obtain ⟨u, hu, -, -, hresp, -⟩ := intAckAnswers t hlive
  exact ⟨t, u, ht, hu, by simpa [hdev] using hresp⟩

theorem intLine_eq_true {d : Nic} : intLine d = true ↔ d.icr &&& d.ims ≠ 0 := by
  simp [intLine]

/-- Settles O39: INT_ACK leaves ICR 0, and a write of IMS or IMC leaves ICR and changes the mask alone. -/
theorem interruptLineFollowsCausesAndMask : Obligations.InterruptLineFollowsCausesAndMask := by
  intro s v hl
  exact ⟨⟨_, exec_intAck hl, by simp [intLine]⟩, ⟨_, exec_regWrite (r := .ims) hl rfl v, intLine_eq_true⟩,
    ⟨_, exec_regWrite (r := .imc) hl rfl v, intLine_eq_true⟩⟩

end Sys2Proof.Machine
end

section
/-! PROOFS. The TX ring commands that complete or fault (41_tx_ring R150 to R155), and a ring's 16 posts. -/

namespace Sys2Proof.Machine

/-! ### TX_INIT -/

theorem exec_txInit {s : State} {base : Addr} (hl : s.live) (hr : s.block.txReady = false)
    (haligned : base.toNat % 16 = 0) (hrange : base.toNat ≤ 2 ^ 64 - 256) :
    exec (.txInit base) s = .next (respond { code := .ok } (txInitDone base s)) :=
  exec_done hl (txInitBody_done hr ((ringBaseOk_iff _ _).2 ⟨haligned, hrange⟩))

/-- What TX_INIT does to every byte of memory. -/
theorem byte_txInitDone (base y : Addr) (s : State) :
    Memory.byte (txInitDone base s).mem y =
      if (y - base).toNat < 256 then txDescriptorInit.byteAt ((y - base).toNat % 16) else Memory.byte s.mem y := by
  have hlen : 16 * Config.nTx = 256 := rfl
  rw [txInitDone_mem, byte_writeTxRing _ _ _ _ _ (by decide), hlen]

theorem txInitDone_descriptorAt (base : Addr) (s : State) {i : Nat} (hi : i < 16) :
    txDescriptorAt (txInitDone base s).mem (slotAddr base i) txDescriptorInit := by
  refine txDescriptorAt_of_bytes _ _ _ fun k hk => ?_
  rw [byte_txInitDone, slotAddr_add_sub_toNat _ (by omega), if_pos (by omega), show (16 * i + k) % 16 = k by omega]

/-- Settles O23: both checks pass, the 256 bytes of the ring become 16 initial descriptors, then the registers are
written. -/
theorem txInitCompletes : Obligations.TxInitCompletes := by
  intro s base hl hr haligned hrange
  refine ⟨_, exec_txInit hl hr haligned hrange, ?_⟩
  simp only [State.sameMemoryOutside, respond_mem]
  refine ⟨fun i hi => txInitDone_descriptorAt base s hi, fun y hy => ?_, ?_⟩
  · rw [byte_txInitDone, if_neg (inRange_eq_false.1 hy)]
  · simpa [State.sameSurroundings, State.live] using hl

/-- Settles O24: each of the 16 descriptors is seven writes within the ring, and the register writes come after. -/
theorem txInitOrder : Obligations.TxInitOrder := by
  intro s base hl hr haligned hrange
  obtain ⟨ws, hbus, hlen, hws⟩ := writeTxRing_bus base txDescriptorInit Config.nTx s (by decide)
  refine ⟨_, ws, exec_txInit hl hr haligned hrange, hlen, fun x hx => ?_, ?_⟩
  · obtain ⟨a, n, v, rfl, ha⟩ := hws x hx
    exact ⟨a, n, v, rfl, inRange_iff.2 ha⟩
  · rw [respond_bus, txInitDone_bus, hbus]

theorem ringBaseOk_eq_false {base : Addr} {n : Nat} (h : base.toNat % 16 ≠ 0 ∨ base.toNat > 2 ^ 64 - 16 * n) :
    ringBaseOk base n = false := by
  refine Bool.eq_false_iff.2 fun hok => ?_
  obtain ⟨haligned, hrange⟩ := (ringBaseOk_iff _ _).1 hok
  omega

/-- Settles O25: the ready flag is checked before the base, and both before any access. -/
theorem txInitFaults : Obligations.TxInitFaults := by
  intro s base hl
  refine ⟨fun hr => ?_, fun hr hbad => ?_⟩
  · have hbody : bodyOf (.txInit base) s = .raised .alreadyInitialized s := by simp [bodyOf, txInitBody, hr]
    exact exec_raised_at_once hl hbody
  · have hbase : ringBaseOk base Config.nTx = false := ringBaseOk_eq_false hbad
    have hbody : bodyOf (.txInit base) s = .raised .badArgument s := by simp [bodyOf, txInitBody, hr, hbase]
    exact exec_raised_at_once hl hbody

/-! ### TX_ENQUEUE -/

theorem exec_txEnqueue {s : State} {addr : Addr} {len : Word16} {eop : Bool} (hl : s.live)
    (hr : s.block.txReady = true) (hpage : addr.toNat % s.params.pageSize + len.toNat ≤ s.params.pageSize)
    (hd : ddAt s.mem s.txSlot = true) :
    exec (.txEnqueue addr len eop) s = .next (respond { code := .ok } (txEnqueueDone addr len eop s)) := by
  refine exec_done hl ?_
  rw [bodyOf, txEnqueueBody_ready hr ((withinPage_iff _ _ _).2 hpage), if_pos hd]

theorem txCmdByte_eq (eop : Bool) : txCmdByte eop = if eop then 0x89 else 0x88 := by
  cases eop <;> rfl

theorem txEnqueueDone_descriptorAt (addr : Addr) (len : Word16) (eop : Bool) (s : State) :
    txDescriptorAt (txEnqueueDone addr len eop s).mem s.txSlot (txDescriptorPosted addr len eop) := by
  refine txDescriptorAt_of_bytes _ _ _ fun k hk => ?_
  rw [byte_txEnqueueDone, add_ofNat_sub_toNat _ _ (by omega), if_pos hk]

/-- Settles O26: both checks pass and the status read finds DD set, so the slot is bound, written and advanced past. -/
theorem txEnqueuePosts : Obligations.TxEnqueuePosts := by
  intro s addr len eop hl hr hpage hd
  have hdesc := txEnqueueDone_descriptorAt addr len eop s
  rw [txDescriptorPosted, txCmdByte_eq] at hdesc
  refine ⟨_, nextSlot s.block.txTail, exec_txEnqueue hl hr hpage hd, rfl, ?_⟩
  simp only [State.sameMemoryOutside, respond_mem, respond_events]
  refine ⟨hdesc, fun y hy => ?_, txEnqueueDone_events addr len eop s, ?_⟩
  · rw [byte_txEnqueueDone, if_neg (inRange_eq_false.1 hy)]
  · simp [State.sameSurroundings, pageOf]

/-- Settles O28: the ready flag is checked before the buffer, and both before the status read. -/
theorem txEnqueueFaults : Obligations.TxEnqueueFaults := by
  intro s addr len eop hl
  refine ⟨fun hr => ?_, fun hr hcross => ?_⟩
  · have hbody : bodyOf (.txEnqueue addr len eop) s = .raised .notInitialized s := by
      simp [bodyOf, txEnqueueBody, hr]
    exact exec_raised_at_once hl hbody
  · have hw : withinPage s.params addr len = false :=
      Bool.eq_false_iff.2 fun h => absurd ((withinPage_iff _ _ _).1 h) (by omega)
    have hbody : bodyOf (.txEnqueue addr len eop) s = .raised .badArgument s := by
      simp [bodyOf, txEnqueueBody, hr, hw]
    exact exec_raised_at_once hl hbody

/-- Settles O29: the post's accesses in order, as recorded. -/
theorem txDoorbellIsLast : Obligations.TxDoorbellIsLast := by
  intro s addr len eop hl hr hpage hd
  have hcmd : (txCmdByte eop).setWidth 64 = if eop then 0x89#64 else 0x88#64 := by cases eop <;> rfl
  refine ⟨_, exec_txEnqueue hl hr hpage hd, ?_⟩
  rw [respond_bus, txEnqueueDone_bus, hcmd]
  rfl

/-! ### Sixteen posts -/

/-- The block is live with a ready TX ring, of which the `n` slots from `tx_tail` on are free and no other. -/
structure State.txFree (n : Nat) (s : State) : Prop where
  live : s.live
  ready : s.block.txReady = true
  dd : ∀ j, j < 16 → ddAt s.mem (slotAddr s.block.txBase ((s.block.txTail.val + j) % 16)) = decide (j < n)

/-- A post clears DD of its slot and of no other. -/
theorem ddAt_txEnqueueDone (addr : Addr) (len : Word16) (eop : Bool) (s : State) {k : Nat} (hk : k < 16) :
    ddAt (txEnqueueDone addr len eop s).mem (slotAddr s.block.txBase k) =
      (decide (k ≠ s.block.txTail.val) && ddAt s.mem (slotAddr s.block.txBase k)) := by
  have htail : s.block.txTail.val < 16 := s.block.txTail.isLt
  have hdist : (slotAddr s.block.txBase k + 12 - s.txSlot).toNat = _ :=
    sub_slotAddr_toNat (slotAddr s.block.txBase k + 12) s.block.txBase s.block.txTail.val (by omega)
  have hoff : (slotAddr s.block.txBase k + 12 - s.block.txBase).toNat = 16 * k + 12 :=
    slotAddr_add_sub_toNat _ (c := 12) (by omega)
  rw [hoff] at hdist
  rw [ddAt, byte_txEnqueueDone]
  by_cases h : k = s.block.txTail.val
  · have h12 : (slotAddr s.block.txBase k + 12 - s.txSlot).toNat = 12 := by
      rw [hdist, if_pos (by omega)]
      omega
    rw [h12]
    simp [h, TxDescriptor.byteAt, txDescriptorPosted]
  · rw [if_neg (by rw [hdist]; split <;> omega)]
    simp [h, ddAt]

theorem txFree_post {s : State} {n : Nat} (addr : Addr) (len : Word16) (eop : Bool) (h : s.txFree (n + 1))
    (hn : n < 16) : (respond { code := .ok } (txEnqueueDone addr len eop s)).txFree n := by
  have htail : s.block.txTail.val < 16 := s.block.txTail.isLt
  refine ⟨by simpa [State.live] using h.live, by simpa using h.ready, fun j hj => ?_⟩
  have hnext : (nextSlot s.block.txTail).val = (s.block.txTail.val + 1) % 16 := rfl
  simp only [respond_mem, respond_block, txEnqueueDone_block, hnext]
  rw [ddAt_txEnqueueDone _ _ _ _ (Nat.mod_lt _ (by omega))]
  by_cases hlast : j = 15
  · have hcome : ((s.block.txTail.val + 1) % 16 + j) % 16 = s.block.txTail.val := by omega
    simp [hcome, show ¬ j < n by omega]
  · have hdd := h.dd (j + 1) (by omega)
    have hcome : ((s.block.txTail.val + 1) % 16 + j) % 16 = (s.block.txTail.val + (j + 1)) % 16 := by omega
    have hne : (s.block.txTail.val + (j + 1)) % 16 ≠ s.block.txTail.val := by omega
    rw [hcome, hdd]
    simp [hne]

/-- As many posts as there are free slots all succeed, and leave no slot free. -/
theorem txFree_posted (xs : List (Addr × Word16 × Bool)) {s : State} (h : s.txFree xs.length) (hlen : xs.length ≤ 16)
    (hpages : ∀ x ∈ xs, x.1.toNat % s.params.pageSize + x.2.1.toNat ≤ s.params.pageSize) :
    ∃ t, posted xs s t ∧ t.txFree 0 ∧ t.params = s.params ∧
      t.block.txTail.val = (s.block.txTail.val + xs.length) % 16 := by
  induction xs generalizing s with
  | nil => exact ⟨s, rfl, h, rfl, (Nat.mod_eq_of_lt s.block.txTail.isLt).symm⟩
  | cons x rest ih =>
    obtain ⟨addr, len, eop⟩ := x
    simp only [List.length_cons] at h hlen
    have hd : ddAt s.mem s.txSlot = true := by
      simpa [State.txSlot, Nat.mod_eq_of_lt s.block.txTail.isLt] using h.dd 0 (by omega)
    have hexec := exec_txEnqueue (eop := eop) h.live h.ready (hpages _ List.mem_cons_self) hd
    obtain ⟨t, hposted, hfree, hparams, htail⟩ :=
      ih (txFree_post addr len eop h (by omega)) (by omega) fun x hx => by
        simpa using hpages x (List.mem_cons_of_mem _ hx)
    refine ⟨t, ⟨_, hexec, by simp, hposted⟩, hfree, by simpa using hparams, ?_⟩
    have hnext : (nextSlot s.block.txTail).val = (s.block.txTail.val + 1) % 16 := rfl
    simp only [respond_block, txEnqueueDone_block, hnext] at htail
    rw [htail, List.length_cons]
    omega

/-- Settles O30: each post takes the first of the free slots and the cursor passes it; after 16 the cursor is back at a
slot whose DD is clear, where a post is turned away (O27). -/
theorem ringTakesSixteenPosts : Obligations.RingTakesSixteenPosts := by
  intro s xs hl hr hdd hlen hpages
  have hfree : s.txFree xs.length :=
    ⟨hl, hr, fun j hj => by rw [hdd _ (Nat.mod_lt _ (by omega)), hlen, decide_eq_true hj]⟩
  obtain ⟨t, hposted, hfull, hparams, htail⟩ := txFree_posted xs hfree (by omega) hpages
  have hsame : t.block.txTail = s.block.txTail := by
    have := s.block.txTail.isLt
    apply Fin.ext
    simp only [Config.nTx] at *
    omega
  have hbusy : ddAt t.mem t.txSlot = false := by
    simpa [State.txSlot, Nat.mod_eq_of_lt t.block.txTail.isLt] using hfull.dd 0 (by omega)
  refine ⟨t, hposted, hsame, fun addr len eop hpage => ?_⟩
  exact txEnqueueBusyIsSideEffectFree t addr len eop hfull.live hfull.ready (hparams ▸ hpage) hbusy

end Sys2Proof.Machine
end

section
/-! PROOFS. The RX ring commands that complete or fault (42_rx_ring R170 to R178). -/

namespace Sys2Proof.Machine

/-! ### RX_INIT -/

theorem exec_rxInit {s : State} {base : Addr} (hl : s.live) (hr : s.block.rxReady = false)
    (haligned : base.toNat % 16 = 0) (hrange : base.toNat ≤ 2 ^ 64 - 2048) :
    exec (.rxInit base) s = .next (respond { code := .ok } (rxInitDone base s)) :=
  exec_done hl (rxInitBody_done hr ((ringBaseOk_iff _ _).2 ⟨haligned, hrange⟩))

theorem rxRingInit_getElem? (p : Params) (i : Fin Config.mRx) :
    (rxRingInit p)[i.val]? = some (rxDescriptorInit (p.rxBufAddr i)) := by
  simp [rxRingInit, Params.rxBufAddr]

theorem rxInitDone_descriptorAt (base : Addr) (s : State) (i : Fin Config.mRx) :
    rxDescriptorAt (rxInitDone base s).mem (slotAddr base i) (rxDescriptorInit (s.params.rxBufAddr i)) := by
  have hi : i.val < 128 := i.isLt
  refine rxDescriptorAt_of_bytes _ _ _ fun k hk => ?_
  rw [rxInitDone_mem, byte_writeRxRing _ _ _ _ _ (by simp [rxRingInit, Config.mRx]),
    slotAddr_add_sub_toNat _ (by omega), if_pos (by omega), show (16 * i.val + k) % 16 = k by omega,
    show (16 * i.val + k) / 16 - 0 = i.val by omega, rxRingInit_getElem?]
  rfl

theorem byte_rxInitDone_outside (base : Addr) (s : State) {y : Addr} (hy : inRange y base 2048 = false) :
    Memory.byte (rxInitDone base s).mem y = Memory.byte s.mem y := by
  have hfar := inRange_eq_false.1 hy
  have hlen : (rxRingInit s.params).length = 128 := by simp [rxRingInit]
  have hnone : (rxRingInit s.params)[(y - base).toNat / 16 - 0]? = none := List.getElem?_eq_none (by omega)
  rw [rxInitDone_mem, byte_writeRxRing _ _ _ _ _ (by simp [rxRingInit, Config.mRx]), if_pos (by omega), hnone]
  rfl

/-- Settles O31: both checks pass, the ring's bytes become the descriptors of its buffers, then the registers are
written. -/
theorem rxInitCompletes : Obligations.RxInitCompletes := by
  intro s base hl hr haligned hrange
  refine ⟨_, exec_rxInit hl hr haligned hrange, ?_⟩
  simp only [State.sameMemoryOutside, respond_mem]
  refine ⟨rxInitDone_descriptorAt base s, fun y hy => byte_rxInitDone_outside base s hy, ?_⟩
  simpa [State.sameSurroundings, State.live] using hl

/-- Settles O32: the ready flag is checked before the base, and both before any access. -/
theorem rxInitFaults : Obligations.RxInitFaults := by
  intro s base hl
  refine ⟨fun hr => ?_, fun hr hbad => ?_⟩
  · have hbody : bodyOf (.rxInit base) s = .raised .alreadyInitialized s := by simp [bodyOf, rxInitBody, hr]
    exact exec_raised_at_once hl hbody
  · have hbase : ringBaseOk base Config.mRx = false := ringBaseOk_eq_false hbad
    have hbody : bodyOf (.rxInit base) s = .raised .badArgument s := by simp [bodyOf, rxInitBody, hr, hbase]
    exact exec_raised_at_once hl hbody

/-! ### RX_POLL -/

theorem exec_rxPoll {s : State} (hl : s.live) (hr : s.block.rxReady = true) (hd : ddAt s.mem s.rxSlot = true)
    (hlen : (Memory.readLE s.mem (s.rxSlot + 8) 2).toNat ≤ s.params.pageSize) :
    exec .rxPoll s = .next (respond s.rxPollResponse (rxPollDone s)) :=
  exec_done hl (rxPollBody_delivers hr hd hlen)

theorem byte_rxPollDone_outside (s : State) {y : Addr} (hy : inRange y (s.rxSlot + 12) 2 = false) :
    Memory.byte (rxPollDone s).mem y = Memory.byte s.mem y := by
  have hfar := inRange_eq_false.1 hy
  rw [byte_rxPollDone, if_neg]
  rintro (rfl | rfl) <;> exact hfar (by bv_omega)

/-- Settles O33: the checks pass, the bytes are read before the two clearing writes, and the slot is returned. -/
theorem rxPollDelivers : Obligations.RxPollDelivers := by
  intro s hl hr hd hlen
  refine ⟨_, nextSlot s.block.rxCursor, exec_rxPoll hl hr hd hlen, rfl, ?_⟩
  simp only [State.sameMemoryOutside, respond_mem, respond_responses]
  refine ⟨by simp [State.rxPollResponse, State.rxLength], (byte_rxPollDone s _).trans (if_pos (.inl rfl)),
    (byte_rxPollDone s _).trans (if_pos (.inr rfl)), fun y hy => byte_rxPollDone_outside s hy, ?_⟩
  simp

/-- Settles O35: the ready flag is checked before any access, the length after the status and length reads. -/
theorem rxPollFaults : Obligations.RxPollFaults := by
  intro s hl
  refine ⟨fun hr => ?_, fun hr hd hlen => ?_⟩
  · have hbody : bodyOf .rxPoll s = .raised .notInitialized s := by simp [bodyOf, rxPollBody, hr]
    exact exec_raised_at_once hl hbody
  · have hbody : bodyOf .rxPoll s = .raised .rxLengthOverrun
        (s.afterReads [.memRead (s.rxSlot + 12) 1, .memRead (s.rxSlot + 8) 2]) :=
      rxPollBody_overrun hr hd (Nat.not_le.2 hlen)
    exact exec_raised hl hbody

/-- Settles O36: the poll's accesses in order, as recorded. -/
theorem rxPollCopiesBeforeReturn : Obligations.RxPollCopiesBeforeReturn := by
  intro s hl hr hd hlen
  refine ⟨_, exec_rxPoll hl hr hd hlen, ?_⟩
  simp [rxPollDone_bus, State.rxPollReads, State.rxLength]

end Sys2Proof.Machine
end

section
/-! PROOFS. The machine's step as a whole: executing, waiting and issuing (10_state R22, 20_memory R84), faults
(60_exceptions R235 to R237), what a command may change (20_memory R71, R86) and what only grows
(60_exceptions R232). -/

namespace Sys2Proof.Machine

/-! ### Taking the turn -/

/-- Settles O4: the step executes what the words decode to, and what they decode to is well-formed (O11). -/
theorem stepRunsDecodedCommand : Obligations.StepRunsDecodedCommand := by
  intro s c rest i htakes hdec
  obtain ⟨-, hwf⟩ := encode_of_decode hdec
  exact ⟨hwf, by rw [step_of_takes htakes, hdec]⟩

/-- Settles O5: with an empty port the block's turn does nothing. -/
theorem emptyPortWaits : Obligations.EmptyPortWaits := by
  intro s hturn hport
  rcases hturn with hnil | ⟨ts, hcons⟩
  · have hsame : { s with schedule := s.schedule.tail } = s := by rw [hnil, List.tail_nil, ← hnil]
    rw [hsame]
    simp [step, nextTurn, hnil, executeStep, takeCommand, hport]
  · simp [step, nextTurn, hcons, executeStep, takeCommand, hport]

/-- Settles O6: the issue is the agent's step. -/
theorem issuedCommandsQueue : Obligations.IssuedCommandsQueue := fun _ _ _ hturn => step_of_turn hturn

/-! ### Every step answers -/

theorem exec_next (i : Instr) (s : State) : ∃ t, exec i s = .next t := by
  rw [exec_eq]
  exact runCommand_next _ _ s

theorem executeStep_next (s : State) : ∃ t, executeStep s = .next t := by
  unfold executeStep
  split
  · exact ⟨_, rfl⟩
  · split
    · exact exec_next _ _
    · exact runCommand_next _ _ _

theorem step_next (s : State) : ∃ t, step s = .next t := by
  unfold step
  split
  · exact executeStep_next _
  · exact ⟨_, rfl⟩

/-- A command that answers has delivered exactly one response. -/
theorem exec_responses {i : Instr} {s t : State} (h : exec i s = .next t) : ∃ r, t.responses = s.responses ++ [r] := by
  rcases exec_cases h with ⟨-, rfl⟩ | ⟨-, r, u, hb, rfl⟩ | ⟨-, f, reads, -, rfl⟩
  · exact ⟨_, rfl⟩
  · exact ⟨r, by rw [respond_responses, (bodyOf_done hb).responses]⟩
  · exact ⟨_, rfl⟩

/-- Settles O43: each of the three ways a command can end delivers one response. -/
theorem everyCommandAnswersOnce : Obligations.EveryCommandAnswersOnce := by
  refine ⟨fun s i => ?_, step_next⟩
  obtain ⟨t, ht⟩ := exec_next i s
  obtain ⟨r, hr⟩ := exec_responses ht
  exact ⟨t, r, ht, hr⟩

/-! ### Faults -/

/-- On a faulted block every command, decodable or not, answers the sticky fault (R237). -/
theorem step_of_takes_faulted {s : State} {c : Command} {rest : List Command} (hf : s.block.faultCode ≠ 0)
    (htakes : s.takes c rest) : step s = .next (respondFaulted (s.taken rest)) := by
  have htaken : (s.taken rest).block.faultCode ≠ 0 := hf
  rw [step_of_takes htakes]
  cases decode c with
  | ok i => exact (exec_eq i _).trans (runCommand_faulted htaken)
  | error e => exact rejectCommand_faulted htaken

/-- What an agent other than the block does to the NIC and to memory does not depend on the block. -/
theorem agentStep_withBlock (a : AgentStep) (b : Block) (s : State) :
    (agentStep a (s.withBlock b)).dev = (agentStep a s).dev ∧
    (agentStep a (s.withBlock b)).mem = (agentStep a s).mem := by
  cases a with
  | issue c => exact ⟨rfl, rfl⟩
  | hostStore addr bytes => exact ⟨rfl, rfl⟩
  | blockReset => exact ⟨rfl, rfl⟩
  | devTx sent errors cause =>
    simp only [agentStep, devTx, State.withBlock_dev, State.withBlock_mem]
    cases s.dev.txWork <;> exact ⟨rfl, rfl⟩
  | devRx data checksum errors special status causes =>
    simp only [agentStep, devRx, State.withBlock_dev, State.withBlock_mem, State.withBlock_params]
    cases s.dev.rxWork with
    | none => exact ⟨rfl, rfl⟩
    | some g => dsimp only; split <;> exact ⟨rfl, rfl⟩
  | devCause causes => exact ⟨rfl, rfl⟩
  | devOverwrite slot data =>
    simp only [agentStep, devOverwrite, State.withBlock_rxOpen, State.withBlock_mem, State.withBlock_params]
    split <;> exact ⟨rfl, rfl⟩

/-- Only the block and block reset change the block. -/
theorem agentStep_block {a : AgentStep} (h : a ≠ .blockReset) (s : State) : (agentStep a s).block = s.block := by
  cases a with
  | issue c => rfl
  | hostStore addr bytes => rfl
  | blockReset => exact absurd rfl h
  | devTx sent errors cause =>
    obtain ⟨hblock, -⟩ := devTx_frame sent errors cause s
    exact hblock
  | devRx data checksum errors special status causes =>
    obtain ⟨hblock, -⟩ := devRx_frame data checksum errors special status causes s
    exact hblock
  | devCause causes => rfl
  | devOverwrite slot data => rw [agentStep, devOverwrite_eq]

/-- Settles O41: the frame of every command asks for the sticky fault first, and no device step reads the block. -/
theorem faultedBlockIsStuck : Obligations.FaultedBlockIsStuck := by
  refine ⟨fun s c rest hf htakes => step_of_takes_faulted hf htakes, fun s a ts hf hturn hne => ?_⟩
  have hcleared : State.turnOf { s with block := { s.block with faultCode := 0 } } a ts := hturn
  obtain ⟨hdev, hmem⟩ := agentStep_withBlock a { s.block with faultCode := 0 } { s with schedule := ts }
  exact ⟨_, step_of_turn hturn, agentStep_block hne _, _, step_of_turn hcleared, hdev, hmem⟩

theorem FaultCode.byte_ne_zero (f : FaultCode) : f.byte ≠ 0 := by
  cases f <;> decide

/-- Settles O42: a command that faults has made reads alone, and one that completes leaves the fault code 0. -/
theorem faultsArePrecise : Obligations.FaultsArePrecise := by
  refine ⟨fun s t i hl hexec hfault => ?_, fun s t c rest e hl htakes hdec hstep => ?_⟩
  · rcases exec_cases hexec with ⟨hne, -⟩ | ⟨-, r, u, hb, rfl⟩ | ⟨-, f, reads, hreads, rfl⟩
    · exact absurd hl hne
    · exact absurd ((bodyOf_done hb).faultCode.trans hl) hfault
    · exact ⟨f.byte, reads, f.byte_ne_zero, takeFault_faultedWith f _ s reads, hreads⟩
  · have hundecodable : ∀ i, decode c ≠ .ok i := fun i hi => by rw [hdec] at hi; cases hi
    obtain ⟨u, hu, hfaulted⟩ := step_of_undecodable htakes hl hundecodable
    rw [hstep] at hu
    exact Host.Outcome.next.inj hu ▸ hfaulted

/-! ### What a command may change -/

/-- Settles O44: only the four ring commands, where they work on their ring, write memory. -/
theorem blockWriteFootprint : Obligations.BlockWriteFootprint := by
  intro s t i a hexec hchanged
  rcases exec_cases hexec with ⟨-, rfl⟩ | ⟨-, r, u, hb, rfl⟩ | ⟨-, f, reads, -, rfl⟩
  case inl => exact absurd rfl hchanged
  case inr.inr => exact absurd rfl hchanged
  rw [respond_mem] at hchanged
  rcases bodyOf_done_rings hb with ⟨-, hm⟩ | ⟨base, rfl, hr, -, rfl⟩ | ⟨addr, len, eop, rfl, -, hd, rfl⟩ |
    ⟨base, rfl, hr, -, rfl⟩ | ⟨rfl, -, hd, rfl⟩
  · exact absurd (by rw [hm]) hchanged
  · refine .inl ⟨base, rfl, hr, eq_true_of_ne_false fun hout => hchanged ?_⟩
    rw [byte_txInitDone, if_neg (inRange_eq_false.1 hout)]
  · refine .inr (.inl ⟨addr, len, eop, rfl, hd, eq_true_of_ne_false fun hout => hchanged ?_⟩)
    rw [byte_txEnqueueDone, if_neg (inRange_eq_false.1 hout)]
  · refine .inr (.inr (.inl ⟨base, rfl, hr, eq_true_of_ne_false fun hout => hchanged ?_⟩))
    exact byte_rxInitDone_outside base s hout
  · refine .inr (.inr (.inr ⟨rfl, hd, by_contra fun hout => hchanged ?_⟩))
    rw [byte_rxPollDone, if_neg hout]

/-- The block state and the NIC registers that a TX command leaves to the RX ring. -/
def State.rxSideKept (s t : State) : Prop :=
  t.block.rxReady = s.block.rxReady ∧ t.block.rxBase = s.block.rxBase ∧ t.block.rxCursor = s.block.rxCursor ∧
  ∀ r ∈ [Reg.rdbal, .rdbah, .rdlen, .rdh, .rdt, .rctl, .icr, .ims], regGives t.dev r = regGives s.dev r

/-- The block state, events and NIC registers that an RX command leaves to the TX ring. -/
def State.txSideKept (s t : State) : Prop :=
  t.block.txReady = s.block.txReady ∧ t.block.txBase = s.block.txBase ∧ t.block.txTail = s.block.txTail ∧
  t.block.txBound = s.block.txBound ∧ t.events = s.events ∧
  ∀ r ∈ [Reg.tdbal, .tdbah, .tdlen, .tdh, .tdt, .tctl, .tipg, .rctl, .icr, .ims], regGives t.dev r = regGives s.dev r

theorem txInitDone_rxSideKept (base : Addr) (s : State) : s.rxSideKept (txInitDone base s) := by
  simp [State.rxSideKept, regGives]

theorem txEnqueueDone_rxSideKept (addr : Addr) (len : Word16) (eop : Bool) (s : State) :
    s.rxSideKept (txEnqueueDone addr len eop s) := by
  simp [State.rxSideKept, regGives]

theorem rxInitDone_txSideKept (base : Addr) (s : State) : s.txSideKept (rxInitDone base s) := by
  simp [State.txSideKept, regGives]

theorem rxPollDone_txSideKept (s : State) : s.txSideKept (rxPollDone s) := by
  simp [State.txSideKept, regGives]

/-- Settles O45: whatever a command answers but its own completion touches no ring, and its completion touches its
own. -/
theorem ringsAreIndependent : Obligations.RingsAreIndependent := by
  refine ⟨fun s t base addr len eop i hi hexec => ?_, fun s t base i hi hexec => ?_⟩
  · show s.rxSideKept t
    rcases exec_cases hexec with ⟨-, rfl⟩ | ⟨-, r, u, hb, rfl⟩ | ⟨-, f, reads, -, rfl⟩
    · exact ⟨rfl, rfl, rfl, fun _ _ => rfl⟩
    · suffices hu : s.rxSideKept u from hu
      simp only [List.mem_cons, List.not_mem_nil, or_false] at hi
      rcases hi with rfl | rfl
      · obtain ⟨-, -, rfl⟩ := txInit_done hb
        exact txInitDone_rxSideKept base s
      · obtain ⟨-, rfl | ⟨-, rfl⟩⟩ := txEnqueue_done hb
        · exact ⟨rfl, rfl, rfl, fun _ _ => rfl⟩
        · exact txEnqueueDone_rxSideKept addr len eop s
    · exact ⟨rfl, rfl, rfl, fun _ _ => rfl⟩
  · show s.txSideKept t
    rcases exec_cases hexec with ⟨-, rfl⟩ | ⟨-, r, u, hb, rfl⟩ | ⟨-, f, reads, -, rfl⟩
    · exact ⟨rfl, rfl, rfl, rfl, rfl, fun _ _ => rfl⟩
    · suffices hu : s.txSideKept u from hu
      simp only [List.mem_cons, List.not_mem_nil, or_false] at hi
      rcases hi with rfl | rfl
      · obtain ⟨-, -, rfl⟩ := rxInit_done hb
        exact rxInitDone_txSideKept base s
      · obtain ⟨-, rfl | ⟨-, rfl⟩⟩ := rxPoll_done hb
        · exact ⟨rfl, rfl, rfl, rfl, rfl, fun _ _ => rfl⟩
        · exact rxPollDone_txSideKept s
    · exact ⟨rfl, rfl, rfl, rfl, rfl, fun _ _ => rfl⟩

/-! ### What only grows -/

/-- What was delivered, emitted, accessed or sent before is still there, and the parameters are the same. -/
structure State.outputsGrow (s t : State) : Prop where
  responses : s.responses <+: t.responses
  events : s.events <+: t.events
  bus : s.bus <+: t.bus
  wire : s.dev.wire <+: t.dev.wire
  params : t.params = s.params
  draws : s.draws ≤ t.draws
  outside : s.outside = true → t.outside = true

theorem State.outputsGrow_refl (s : State) : s.outputsGrow s :=
  ⟨List.prefix_refl _, List.prefix_refl _, List.prefix_refl _, List.prefix_refl _, rfl, Nat.le_refl _, id⟩

theorem respond_outputsGrow {s t : State} (h : s.sameOuter t) (r : Response) : s.outputsGrow (respond r t) where
  responses := by rw [respond_responses, h.responses]; exact List.prefix_append _ _
  events := h.events
  bus := h.bus
  wire := by rw [respond_dev, h.wire]
  params := h.params
  draws := h.draws
  outside := fun ho => h.outside.trans ho

theorem takeFault_outputsGrow (f : FaultCode) (c : Command) (s : State) (reads : List Access) :
    s.outputsGrow (takeFault f c (s.afterReads reads)) :=
  { s.outputsGrow_refl with
    responses := List.prefix_append _ _
    bus := List.prefix_append _ _
    outside := fun ho => by simp [ho] }

theorem devTx_wire (sent : Bool) (errors : Byte) (cause : Bool) (s : State) :
    s.dev.wire <+: (devTx sent errors cause s).dev.wire := by
  unfold devTx
  split
  · exact List.prefix_refl _
  · dsimp only
    split
    · exact List.prefix_append _ _
    · exact List.prefix_refl _

theorem devRx_wire (data : List Byte) (checksum : Word16) (errors : Byte) (special : Word16) (status : Byte)
    (causes : Word32) (s : State) : (devRx data checksum errors special status causes s).dev.wire = s.dev.wire := by
  unfold devRx
  split
  · rfl
  · split <;> rfl

theorem agentStep_outputsGrow (a : AgentStep) (s : State) : s.outputsGrow (agentStep a s) := by
  cases a with
  | issue c => exact { s.outputsGrow_refl with }
  | hostStore addr bytes => exact { s.outputsGrow_refl with outside := fun ho => by simp [agentStep, hostStore, ho] }
  | blockReset => exact { s.outputsGrow_refl with draws := Nat.le_add_right s.draws 2 }
  | devTx sent errors cause =>
    obtain ⟨-, hparams, -, hresponses, hevents, hbus, hdraws, houtside, -⟩ := devTx_frame sent errors cause s
    exact ⟨hresponses ▸ List.prefix_refl _, hevents ▸ List.prefix_refl _, hbus ▸ List.prefix_refl _,
      devTx_wire sent errors cause s, hparams, Nat.le_of_eq hdraws.symm, fun ho => houtside.trans ho⟩
  | devRx data checksum errors special status causes =>
    obtain ⟨-, hparams, -, hresponses, hevents, hbus, hdraws, houtside, -⟩ :=
      devRx_frame data checksum errors special status causes s
    have hwire := devRx_wire data checksum errors special status causes s
    exact ⟨hresponses ▸ List.prefix_refl _, hevents ▸ List.prefix_refl _, hbus ▸ List.prefix_refl _,
      hwire ▸ List.prefix_refl _, hparams, Nat.le_of_eq hdraws.symm, fun ho => houtside.trans ho⟩
  | devCause causes => exact { s.outputsGrow_refl with }
  | devOverwrite slot data => rw [agentStep, devOverwrite_eq]; exact { s.outputsGrow_refl with }

/-- Settles O53: every kind of step appends to the histories or leaves them. -/
theorem outputsOnlyGrow : Obligations.OutputsOnlyGrow := by
  intro s t hstep
  suffices hgrow : s.outputsGrow t from
    ⟨hgrow.responses, hgrow.events, hgrow.bus, hgrow.wire, hgrow.params, hgrow.draws, hgrow.outside⟩
  apply step_preserves hstep
  case wait => exact fun _ => { s.outputsGrow_refl with }
  case done =>
    intro c rest i r u _ _ _ hb
    exact { respond_outputsGrow (bodyOf_done hb) r with }
  case fault =>
    intro c d rest f reads _ _ _
    exact { takeFault_outputsGrow f d (s.taken rest) reads with }
  case stuck =>
    intro c rest _
    exact { respond_outputsGrow (State.sameOuter_refl (s.taken rest)) (Response.faulted s.block.faultCode) with }
  case agent =>
    intro a ts _
    exact { agentStep_outputsGrow a { s with schedule := ts } with }

end Sys2Proof.Machine
end

section
/-! PROOFS. Host memory (20_memory R72), the host's stores (70_reset_and_hazards R266) and the device's steps
(44_device_agent, 70_reset_and_hazards R275). -/

namespace Sys2Proof.Machine

/-! ### Memory, byte by byte -/

theorem Memory.byte_writeLE_at (m : Memory) (a : Addr) {n k : Nat} (v : Word64) (hn : n ≤ 8) (hk : k < n) :
    Memory.byte (Memory.writeLE m a n v) (a + BitVec.ofNat 64 k) = v.extractLsb' (8 * k) 8 := by
  rw [Memory.byte_writeLE _ _ _ _ _ (by omega), add_ofNat_sub_toNat _ _ (by omega), if_pos hk]

/-- Settles O13: a write sets the bytes at distance less than n from its address, and a read puts them together. -/
theorem memoryIsLittleEndian : Obligations.MemoryIsLittleEndian := by
  intro m a n v hn
  refine ⟨fun k hk => Memory.byte_writeLE_at m a v hn hk, fun x hx => ?_, ?_⟩
  · rw [Memory.byte_writeLE _ _ _ _ _ (by omega), if_neg (inRange_eq_false.1 hx)]
  · have hread := Memory.readLE_of_bytes _ a n v fun k hk => Memory.byte_writeLE_at m a v hn hk
    have hfits : 2 ^ (8 * n) - 1 < 2 ^ 64 :=
      Nat.lt_of_lt_of_le (Nat.sub_lt (Nat.two_pow_pos _) Nat.one_pos) (Nat.pow_le_pow_right (by omega) (by omega))
    rw [hread, BitVec.toNat_and, BitVec.toNat_ofNat, Nat.mod_eq_of_lt hfits, Nat.and_two_pow_sub_one_eq_mod]

/-- The bytes of a value read are the bytes of memory, and 0 above its width. -/
theorem Memory.extractLsb'_readLE (m : Memory) (a : Addr) {n : Nat} (hn : n ≤ 8) (k : Nat) :
    (Memory.readLE m a n).extractLsb' (8 * k) 8 = if k < n then Memory.byte m (a + BitVec.ofNat 64 k) else 0 := by
  induction n with
  | zero => simp [Memory.readLE]
  | succ j ih =>
    rw [Memory.readLE, BitVec.extractLsb'_or, ih (by omega)]
    rcases Nat.lt_trichotomy k j with hlt | rfl | hgt
    · rw [extractLsb'_field_beside _ (by omega), if_pos hlt, if_pos (by omega), BitVec.or_zero]
    · rw [extractLsb'_field_same _ (by omega), if_neg (by omega), if_pos (by omega)]
      exact BitVec.zero_or
    · rw [extractLsb'_field_beside _ (by omega), if_neg (by omega), if_neg (by omega), BitVec.or_zero]

theorem Memory.byte_writeBytes_at (m : Memory) (a : Addr) {bs : List Byte} (hn : bs.length ≤ 2 ^ 64) {k : Nat}
    (hk : k < bs.length) : Memory.byte (Memory.writeBytes m a bs) (a + BitVec.ofNat 64 k) = bs[k] := by
  rw [Memory.byte_writeBytes _ _ _ _ hn, add_ofNat_sub_toNat _ _ (by omega), List.getElem?_eq_getElem hk,
    Option.getD_some]

theorem Memory.byte_writeBytes_outside (m : Memory) {a x : Addr} {bs : List Byte}
    (hx : inRange x a bs.length = false) : Memory.byte (Memory.writeBytes m a bs) x = Memory.byte m x :=
  by_contra fun hchanged => inRange_eq_false.1 hx (Memory.writeBytes_changes _ _ _ _ hchanged)

theorem Memory.readBytes_eq {m : Memory} {a : Addr} {bs : List Byte}
    (h : ∀ k (hk : k < bs.length), Memory.byte m (a + BitVec.ofNat 64 k) = bs[k]) :
    Memory.readBytes m a bs.length = bs :=
  List.ext_getElem (by simp [Memory.readBytes]) fun k _ hk => by simpa [Memory.readBytes] using h k hk

/-! ### The host's stores -/

theorem hostMayStore_eq_false {s : State} {a : Addr} {bytes : List Byte} :
    hostMayStore s a bytes = false ↔ ∃ k, k < bytes.length ∧ blockOwns s (a + BitVec.ofNat 64 k) = true := by
  simp [hostMayStore]

/-- Settles O52: a store is a write of its bytes, and its mark asks of each byte whether the block owns it. -/
theorem hostStoreWritesItsBytes : Obligations.HostStoreWritesItsBytes := by
  intro s ts a bytes hturn hlen
  refine ⟨_, step_of_turn hturn, fun k hk => Memory.byte_writeBytes_at s.mem a hlen hk,
    fun x hx => Memory.byte_writeBytes_outside s.mem hx, rfl, rfl, rfl, rfl, rfl, rfl, rfl, rfl, rfl, rfl, ?_⟩
  have howns : ∀ x, blockOwns { s with schedule := ts } x = blockOwns s x := fun _ => rfl
  simp only [agentStep, hostStore, Bool.or_eq_true, Bool.not_eq_true', hostMayStore_eq_false, howns]

/-! ### When the device does nothing -/

theorem enabledRing_eq_none {control low high length head tail : Option Word32}
    (h : (∀ v, control = some v → v.getLsbD 1 = false) ∨ head = tail) :
    enabledRing control low high length head tail = none := by
  cases hg : enabledRing control low high length head tail with
  | none => rfl
  | some g =>
    obtain ⟨c, lo, hi, len, hd, tl, hc, -, -, -, hhd, htl, hen, hne, -⟩ := enabledRing_eq_some.1 hg
    rcases h with hdis | heq
    · rw [hdis c hc] at hen
      cases hen
    · exact absurd (Option.some.inj (hhd.symm.trans (heq.trans htl))) hne

theorem devTx_of_no_work (sent : Bool) (errors : Byte) (cause : Bool) {s : State} (h : s.dev.txWork = none) :
    devTx sent errors cause s = s := by
  simp only [devTx, h]

theorem devRx_of_no_work (data : List Byte) (checksum : Word16) (errors : Byte) (special : Word16) (status : Byte)
    (causes : Word32) {s : State} (h : s.dev.rxWork = none) :
    devRx data checksum errors special status causes s = s := by
  simp only [devRx, h]

/-- Settles O49: with EN clear or unwritten, or head equal to tail, the ring registers give the device no work. -/
theorem disabledDeviceDoesNothing : Obligations.DisabledDeviceDoesNothing := by
  refine ⟨fun s ts sent cause errors hturn hdis => ?_,
    fun s ts data checksum special errors status causes hturn hdis => ?_⟩
  · rw [step_of_turn hturn, agentStep, devTx_of_no_work]
    exact enabledRing_eq_none hdis
  · rw [step_of_turn hturn, agentStep, devRx_of_no_work]
    exact enabledRing_eq_none hdis

/-! ### What every device step leaves -/

theorem devTx_deviceFrame (sent : Bool) (errors : Byte) (cause : Bool) (s : State) :
    deviceFrame s (devTx sent errors cause s) s.schedule := by
  obtain ⟨hblock, hparams, hcommands, hresponses, hevents, hbus, hdraws, houtside, hschedule, -⟩ :=
    devTx_frame sent errors cause s
  obtain ⟨htdt, hrdt, -, hims, hstore⟩ := devTx_registers sent errors cause s
  exact ⟨hblock, hresponses, hevents, hbus, hparams, hcommands, hdraws, houtside, hschedule, htdt, hrdt, hims, hstore⟩

theorem devRx_deviceFrame (data : List Byte) (checksum : Word16) (errors : Byte) (special : Word16) (status : Byte)
    (causes : Word32) (s : State) :
    deviceFrame s (devRx data checksum errors special status causes s) s.schedule := by
  obtain ⟨hblock, hparams, hcommands, hresponses, hevents, hbus, hdraws, houtside, hschedule⟩ :=
    devRx_frame data checksum errors special status causes s
  obtain ⟨htdt, hrdt, -, hims, hstore⟩ := devRx_registers data checksum errors special status causes s
  exact ⟨hblock, hresponses, hevents, hbus, hparams, hcommands, hdraws, houtside, hschedule, htdt, hrdt, hims, hstore⟩

theorem devOverwrite_deviceFrame (slot : Fin Config.mRx) (data : List Byte) (s : State) :
    deviceFrame s (devOverwrite slot data s) s.schedule := by
  rw [devOverwrite_eq]
  exact ⟨rfl, rfl, rfl, rfl, rfl, rfl, rfl, rfl, rfl, rfl, rfl, rfl, rfl⟩

/-- Settles O50: the frame of each of the four device steps. -/
theorem deviceNeverWritesTails : Obligations.DeviceNeverWritesTails := by
  intro s ts a hturn ha
  refine ⟨_, step_of_turn hturn, ?_⟩
  rcases ha with ⟨sent, errors, cause, rfl⟩ | ⟨data, checksum, errors, special, status, causes, rfl⟩ | ⟨x, rfl⟩ |
    ⟨i, data, rfl⟩
  · exact devTx_deviceFrame sent errors cause { s with schedule := ts }
  · exact devRx_deviceFrame data checksum errors special status causes { s with schedule := ts }
  · exact ⟨rfl, rfl, rfl, rfl, rfl, rfl, rfl, rfl, rfl, rfl, rfl, rfl, rfl⟩
  · exact devOverwrite_deviceFrame i data { s with schedule := ts }

/-- Settles O48: the cause is the agent's step. -/
theorem devCauseAddsCauses : Obligations.DevCauseAddsCauses := fun _ _ _ hturn => step_of_turn hturn

/-- The ring the registers give, with its slot at the head and its next head (44_device_agent R202, R204, R210). -/
theorem enabledRing_work {ctl lo hi len h tl : Word32} (hen : ctl.getLsbD 1 = true) (h16 : 16 ≤ len.toNat)
    (hne : h ≠ tl) :
    ∃ g, enabledRing (some ctl) (some lo) (some hi) (some len) (some h) (some tl) = some g ∧ g.head = h ∧
      g.slot = ((hi.setWidth 64 <<< 32) ||| lo.setWidth 64) + BitVec.ofNat 64 (16 * h.toNat) ∧
      g.nextHead = BitVec.ofNat 32 ((h.toNat + 1) % (len.toNat / 16)) :=
  ⟨_, enabledRing_eq_some.2 ⟨ctl, lo, hi, len, h, tl, rfl, rfl, rfl, rfl, rfl, rfl, hen, hne, h16, rfl⟩, rfl, rfl, rfl⟩

/-! ### DEV_TX at work -/

section DevTxWork
variable (sent : Bool) (errors : Byte) (cause : Bool) {s : State} {g : DevRing} (hg : s.dev.txWork = some g)
include hg

theorem devTx_mem_of_work : (devTx sent errors cause s).mem =
    if txCmdRs (Memory.byte s.mem (g.slot + 11)) then Memory.setByte s.mem (g.slot + 12) (txDoneStatus errors)
    else s.mem := by
  simp only [devTx, hg]

theorem devTx_dev_of_work : (devTx sent errors cause s).dev = { s.dev with
    txframe := if txCmdEop (Memory.byte s.mem (g.slot + 11)) then [] else s.dev.txframe ++ txFragment s.mem g.slot
    wire := if txCmdEop (Memory.byte s.mem (g.slot + 11)) && sent then
      s.dev.wire ++ [s.dev.txframe ++ txFragment s.mem g.slot] else s.dev.wire
    tdh := some g.nextHead
    icr := if txCmdRs (Memory.byte s.mem (g.slot + 11)) && cause then s.dev.icr ||| icrTxdw else s.dev.icr } := by
  simp only [devTx, hg]

/-- At EOP the frame is sent or dropped and a new one begun. -/
theorem devTx_endsFrame (h : txCmdEop (Memory.byte s.mem (g.slot + 11)) = true) :
    (devTx sent errors cause s).dev.txframe = [] ∧
    (devTx sent errors cause s).dev.wire =
      if sent then s.dev.wire ++ [s.dev.txframe ++ txFragment s.mem g.slot] else s.dev.wire := by
  simp only [devTx_dev_of_work sent errors cause hg, h, Bool.true_and, if_true, and_self]

/-- Before EOP the frame only gathers bytes. -/
theorem devTx_gathersFrame (h : txCmdEop (Memory.byte s.mem (g.slot + 11)) = false) :
    (devTx sent errors cause s).dev.txframe = s.dev.txframe ++ txFragment s.mem g.slot ∧
    (devTx sent errors cause s).dev.wire = s.dev.wire := by
  simp only [devTx_dev_of_work sent errors cause hg, h, Bool.false_and, Bool.false_eq_true, if_false, and_self]

theorem devTx_writesBack (h : txCmdRs (Memory.byte s.mem (g.slot + 11)) = true) :
    Memory.byte (devTx sent errors cause s).mem (g.slot + 12) = txDoneStatus errors := by
  rw [devTx_mem_of_work sent errors cause hg, if_pos h, Memory.byte_setByte_same]

theorem devTx_byte_kept {a : Addr} (h : a ≠ g.slot + 12 ∨ txCmdRs (Memory.byte s.mem (g.slot + 11)) = false) :
    Memory.byte (devTx sent errors cause s).mem a = Memory.byte s.mem a := by
  rw [devTx_mem_of_work sent errors cause hg]
  split
  · rename_i hrs
    rw [Memory.byte_setByte, if_neg (h.resolve_right (by rw [hrs]; exact Bool.noConfusion))]
  · rfl

end DevTxWork

/-- Settles O46: each part of the step is what DEV_TX does at the ring the registers give. -/
theorem devTxConsumes : Obligations.DevTxConsumes := by
  intro s ts sent cause errors ctl lo hi len h tl hturn hctl hen hlo hhi hlen h16 hhd htl hne
  obtain ⟨g, hg, -, hslot, hnext⟩ := enabledRing_work (lo := lo) (hi := hi) hen h16 hne
  have hwork : ({ s with schedule := ts } : State).dev.txWork = some g := by
    rw [Nic.txWork, hctl, hlo, hhi, hlen, hhd, htl, hg]
  have hdev := devTx_dev_of_work sent errors cause hwork
  obtain ⟨-, -, -, -, -, -, -, -, -, hopen⟩ := devTx_frame sent errors cause { s with schedule := ts }
  obtain ⟨-, -, hrdh, -⟩ := devTx_registers sent errors cause { s with schedule := ts }
  exact ⟨_, g.slot, _, s.dev.txframe ++ txFragment s.mem g.slot, step_of_turn hturn, hslot, rfl, rfl,
    devTx_endsFrame sent errors cause hwork, devTx_gathersFrame sent errors cause hwork,
    devTx_writesBack sent errors cause hwork, fun a ha => devTx_byte_kept sent errors cause hwork ha,
    (congrArg Nic.tdh hdev).trans (congrArg some hnext), congrArg Nic.icr hdev, hrdh, hopen,
    devTx_deviceFrame sent errors cause { s with schedule := ts }⟩

end Sys2Proof.Machine
end

section
/-! PROOFS. The device's receive step (44_device_agent R208 to R210), the bytes the device may change (R218) and the
overwriting of a returned buffer (70_reset_and_hazards R275). -/

namespace Sys2Proof.Machine

/-! ### DEV_RX at work -/

/-- The fields of the completed descriptor behind its address (10_state R45). -/
def rxDescriptorFilled (buf : Addr) (data : List Byte) (checksum : Word16) (errors : Byte) (special : Word16)
    (status : Byte) : RxDescriptor where
  addr := buf
  length := BitVec.ofNat 16 data.length
  checksum := checksum
  status := rxDoneStatus status
  errors := errors
  special := special

section DevRxMemory
variable (m : Memory) (d : Addr) {data : List Byte} (checksum : Word16) (errors : Byte) (special : Word16)
  (status : Byte)

/-- DEV_RX leaves a completed descriptor; its address field holds what the frame left there. -/
theorem rxDelivered_descriptorAt (hl : data.length ≤ 2 ^ 64) :
    rxDescriptorAt (rxDelivered m d data checksum errors special status) d
      (rxDescriptorFilled (Memory.readLE (rxDelivered m d data checksum errors special status) d 8) data checksum
        errors special status) := by
  refine rxDescriptorAt_of_bytes _ _ _ fun k hk => ?_
  by_cases h8 : k < 8
  · have hbyte := Memory.extractLsb'_readLE (rxDelivered m d data checksum errors special status) d (n := 8)
      (Nat.le_refl 8) k
    rw [if_pos h8] at hbyte
    simp [RxDescriptor.byteAt, rxDescriptorFilled, h8, hbyte]
  · have hoff : (d + BitVec.ofNat 64 k - (d + 8)).toNat = k - 8 := by
      have h := sub_add_toNat (d + BitVec.ofNat 64 k) d 8 (by omega)
      rwa [add_ofNat_sub_toNat _ _ (by omega), if_pos (by omega)] at h
    rw [byte_rxDelivered _ _ _ _ _ _ _ _ hl, hoff, if_pos (by omega), show 8 + (k - 8) = k by omega]
    simp [RxDescriptor.byteAt, rxDescriptorFilled, h8]

/-- The frame stands in the buffer, but where that overlaps the fields of the descriptor. -/
theorem byte_rxDelivered_buffer (hl : data.length ≤ 2 ^ 64) {k : Nat} (hk : k < data.length)
    (hout : inRange (Memory.readLE m d 8 + BitVec.ofNat 64 k) (d + 8) 8 = false) :
    Memory.byte (rxDelivered m d data checksum errors special status) (Memory.readLE m d 8 + BitVec.ofNat 64 k) =
      data[k] := by
  rw [byte_rxDelivered _ _ _ _ _ _ _ _ hl, if_neg (inRange_eq_false.1 hout), add_ofNat_sub_toNat _ _ (by omega),
    List.getElem?_eq_getElem hk, Option.getD_some]

/-- DEV_RX writes no byte but those of the buffer and of the descriptor's fields, however long the frame. -/
theorem byte_rxDelivered_outside {y : Addr} (hbuf : inRange y (Memory.readLE m d 8) data.length = false)
    (hout : inRange y (d + 8) 8 = false) :
    Memory.byte (rxDelivered m d data checksum errors special status) y = Memory.byte m y := by
  have hfar := inRange_eq_false.1 hout
  simp only [rxDelivered]
  rw [Memory.byte_setByte, if_neg (by bv_omega), Memory.byte_writeLE _ _ _ _ _ (by omega), if_neg (by bv_omega),
    Memory.byte_setByte, if_neg (by bv_omega), Memory.byte_writeLE _ _ _ _ _ (by omega), if_neg (by bv_omega),
    Memory.byte_writeLE _ _ _ _ _ (by omega), if_neg (by bv_omega), Memory.byte_writeBytes_outside m hbuf]

end DevRxMemory

section DevRxWork
variable {data : List Byte} (checksum : Word16) (errors : Byte) (special : Word16) (status : Byte) (causes : Word32)
  {s : State} {g : DevRing} (hg : s.dev.rxWork = some g) (hpos : 1 ≤ data.length)
  (hlen : data.length ≤ s.params.pageSize)
include hg hpos hlen

/-- DEV_RX where it is enabled and the frame is admissible, as an update of the state. -/
theorem devRx_of_work : devRx data checksum errors special status causes s = { s with
    mem := rxDelivered s.mem g.slot data checksum errors special status
    rxOpen := s.rxOpen.setIfInBounds g.head.toNat false
    dev := { s.dev with rdh := some g.nextHead, icr := s.dev.icr ||| (causes &&& icrRxCauses) } } := by
  simp only [devRx, hg, hpos, hlen, and_self, if_true]

end DevRxWork

/-- Settles O47: the frame goes to the buffer the descriptor names, then bytes 8 to 15 of the descriptor are written. -/
theorem devRxDelivers : Obligations.DevRxDelivers := by
  intro s ts data checksum special errors status causes ctl lo hi len h tl hturn hwf hpos hlen hctl hen hlo hhi hrdlen
    h16 hhd htl hne
  obtain ⟨g, hg, hhead, hslot, hnext⟩ := enabledRing_work (lo := lo) (hi := hi) hen h16 hne
  have hwork : ({ s with schedule := ts } : State).dev.rxWork = some g := by
    rw [Nic.rxWork, hctl, hlo, hhi, hrdlen, hhd, htl, hg]
  have hl : data.length ≤ 2 ^ 64 := by
    have := Params.pageSize_lt hwf
    omega
  have heq := devRx_of_work checksum errors special status causes hwork hpos hlen
  have hleft := devRx_deviceFrame data checksum errors special status causes { s with schedule := ts }
  obtain ⟨-, hlength, hchecksum, hstatus, herrors, hspecial⟩ :=
    rxDelivered_descriptorAt s.mem g.slot checksum errors special status hl
  rw [heq] at hleft
  refine ⟨_, g.slot, Memory.readLE s.mem g.slot 8, (step_of_turn hturn).trans (congrArg _ heq), hslot, rfl,
    fun k hk hout => byte_rxDelivered_buffer s.mem g.slot checksum errors special status hl hk hout, hlength,
    hchecksum, hstatus, herrors, hspecial,
    fun a hbuf hout => byte_rxDelivered_outside s.mem g.slot checksum errors special status hbuf hout,
    congrArg some hnext, rfl, fun i => ?_, rfl, rfl, rfl, hleft⟩
  rw [← hhead]
  exact rxOpen_filled s.rxOpen g.head.toNat i

/-! ### The bytes a device step may change -/

/-- Settles O51: a byte a device step changes is one its memory write meets, and the step has work to do. -/
theorem deviceMemoryFootprint : Obligations.DeviceMemoryFootprint := by
  refine ⟨fun s t ts sent cause errors x hturn hstep hchanged => ?_,
    fun s t ts data checksum special errors status causes x hturn hstep hchanged => ?_,
    fun s t ts i data x hturn hstep hchanged => ?_⟩ <;>
    rw [step_of_turn hturn] at hstep <;> obtain rfl := Host.Outcome.next.inj hstep
  · rcases devTx_mem sent errors cause { s with schedule := ts } with hm | ⟨g, hg, hm⟩
    · exact absurd (congrArg (Memory.byte · x) hm) hchanged
    · obtain ⟨-, lo, hi, len, h, tl, -, hlo, hhi, -, hhd, htl, -, hne, -, rfl⟩ := enabledRing_eq_some.1 hg
      refine ⟨lo, hi, h, tl, hlo, hhi, hhd, htl, hne, by_contra fun hx => hchanged ?_⟩
      rw [agentStep, hm, Memory.byte_setByte]
      exact if_neg hx
  · rcases devRx_mem data checksum errors special status causes { s with schedule := ts } with hm | ⟨g, hg, hlen, hm⟩
    · exact absurd (congrArg (Memory.byte · x) hm) hchanged
    · obtain ⟨-, lo, hi, len, h, tl, -, hlo, hhi, -, hhd, htl, -, hne, -, rfl⟩ := enabledRing_eq_some.1 hg
      refine ⟨lo, hi, h, tl, hlo, hhi, hhd, htl, hne, ?_⟩
      by_contra hout
      obtain ⟨hfields, hbuffer⟩ := not_or.1 hout
      refine hchanged ?_
      rw [agentStep, hm]
      exact byte_rxDelivered_outside s.mem _ checksum errors special status
        (Bool.eq_false_iff.2 fun hin => hbuffer ⟨hin, hlen⟩) (Bool.eq_false_iff.2 hfields)
  · rcases devOverwrite_cases i data { s with schedule := ts } with ⟨hopen, hlen, hm⟩ | hsame
    · refine ⟨hopen, by_contra fun hout => hchanged ?_, hlen⟩
      rw [agentStep, hm]
      exact Memory.byte_writeBytes_outside s.mem (Bool.eq_false_iff.2 hout)
    · exact absurd (by rw [agentStep, hsame]) hchanged

/-! ### The returned buffer -/

/-- The turn of an overwriting of an open buffer writes its bytes there and changes nothing else. -/
theorem step_devOverwrite {s : State} {ts : List Turn} {i : Fin Config.mRx} {data : List Byte}
    (hturn : s.turnOf (.devOverwrite i data) ts) (hwf : s.params.wf) (hopen : s.rxOpen[i] = true)
    (hlen : data.length ≤ s.params.pageSize) :
    ∃ t, step s = .next t ∧
      (∀ k (hk : k < data.length), Memory.byte t.mem (s.params.rxBufAddr i + BitVec.ofNat 64 k) = data[k]) ∧
      s.sameMemoryOutside t (s.params.rxBufAddr i) data.length ∧
      t.dev = s.dev ∧ t.rxOpen = s.rxOpen ∧ deviceFrame s t ts := by
  have hl : data.length ≤ 2 ^ 64 := by
    have := Params.pageSize_lt hwf
    omega
  have heq : devOverwrite i data { s with schedule := ts } =
      { s with schedule := ts, mem := Memory.writeBytes s.mem (s.params.rxBufAddr i) data } := if_pos ⟨hopen, hlen⟩
  refine ⟨_, (step_of_turn hturn).trans (congrArg _ heq),
    fun k hk => Memory.byte_writeBytes_at s.mem _ hl hk, fun x hx => Memory.byte_writeBytes_outside s.mem hx, rfl,
    rfl, ?_⟩
  exact ⟨rfl, rfl, rfl, rfl, rfl, rfl, rfl, rfl, rfl, rfl, rfl, rfl, rfl⟩

/-- Settles O60: a delivering RX_POLL opens the buffer of the slot it returns, so the overwriting is enabled at the very
next step. -/
theorem returnedBufferMayHoldAnything : Obligations.ReturnedBufferMayHoldAnything := by
  refine ⟨fun s ts i data hturn hwf hopen hlen => step_devOverwrite hturn hwf hopen hlen,
    fun s ts data hl hwf hr hd hfits hlen hsched => ?_⟩
  obtain ⟨t, next, ht, -, -, -, -, -, -, -, hopen, -, -, -, hparams, -, hschedule⟩ := rxPollDelivers s hl hr hd hfits
  have hturn : t.turnOf (.devOverwrite s.block.rxCursor data) ts := hschedule.trans hsched
  have hopened : t.rxOpen[s.block.rxCursor] = true := by
    rw [hopen, Fin.getElem_fin, Vector.getElem_set_self]
  obtain ⟨u, hu, hbytes, -, -, -, -, hresponses, -⟩ :=
    step_devOverwrite hturn (hparams ▸ hwf) hopened (by rw [hparams, hlen])
  rw [hparams] at hbytes
  exact ⟨t, u, ht, hu, hlen ▸ Memory.readBytes_eq hbytes, hresponses⟩

end Sys2Proof.Machine
end

section
/-! PROOFS. Reset (10_state R20, R50, 70_reset_and_hazards R260 to R262). -/

namespace Sys2Proof.Machine

/-- Settles O1: the reset state written out. -/
theorem resetLeavesSpecifiedValues : Obligations.ResetLeavesSpecifiedValues := by
  have hbound : ∀ i : Fin Config.nTx, State.reset.block.txBound[i] = none := fun i => by
    simp [State.reset, Block.reset]
  have hstore : ∀ k : StoreReg, State.reset.dev.store.get k = none := fun k => by cases k <;> rfl
  exact ⟨rfl, rfl, rfl, rfl, hbound, rfl, rfl, rfl, hstore, rfl, rfl, rfl, rfl, rfl, rfl, fun _ => rfl⟩

/-- Settles O2: parameters that do not meet R7 are replaced by those of 95_test_vectors, which do. -/
theorem resetParametersAdmissible : Obligations.ResetParametersAdmissible := by
  show Config.params.wf
  unfold Config.params
  split
  · assumption
  · exact Params.reference_wf

/-- Settles O3: the step sets the block to its reset value and draws the two bases. -/
theorem blockResetStep : Obligations.BlockResetStep := by
  intro s ts hturn
  have hbound : ∀ (a b : Addr) (i : Fin Config.nTx), (Block.reset a b).txBound[i] = none := fun a b i => by
    simp [Block.reset]
  exact ⟨_, step_of_turn hturn, rfl, rfl, rfl, rfl, hbound _ _, rfl, rfl, rfl, rfl, fun _ => rfl, rfl, rfl, rfl, rfl,
    rfl, rfl, rfl, rfl⟩

/-- Settles O59: no ring is ready, no register is written, nothing is pinned and no slot bound. -/
theorem invariantsHoldAtReset : Obligations.InvariantsHoldAtReset := by
  have hunbound : State.reset.block.txBound = Vector.replicate Config.nTx none := rfl
  have hcount : ∀ p, unpinsOf p State.reset.events + boundCount p State.reset = pinsOf p State.reset.events := by
    intro p
    rw [boundCount_of_unbound hunbound]
    rfl
  refine ⟨Memory.empty_wf, ⟨Bool.noConfusion, Bool.noConfusion⟩, ⟨Bool.noConfusion, Bool.noConfusion, ?_, ?_⟩,
    fun p => Nat.le_of_eq (hcount p), ⟨hcount, fun _ => hunbound⟩, fun x => ⟨rfl, rfl, rfl⟩, Bool.noConfusion⟩
  · rintro h ⟨⟩
  · rintro h ⟨⟩

end Sys2Proof.Machine
end
